-- ==== Sys2Proof/Word.lean ====
section
/-! DEFINITION. The word types of the block (`00_scope.md` R10): every value is an unsigned 8-bit
byte, a 4-bit nibble of one, or the nine-bit bus word `rs d7..d0` of R70. -/

namespace Sys2Proof

/-- An 8-bit value; bit 0 is the least significant bit (R10). -/
abbrev Byte := BitVec 8

/-- Half a byte, the unit of one enable pulse (R18, R77). -/
abbrev Nibble := BitVec 4

/-- The nine bits `rs d7..d0` of a bus word, `rs` being bit 8 (R70, R84). -/
abbrev WordBits := BitVec 9

end Sys2Proof
end

