-- ==== Sys2Proof/Config.lean ====
section
/-! DEFINITION. The configuration record of one block instance (`00_scope.md` R6 to R8), the names
it is made of, and the model's free values. The named constants (pin maps, default instruction
words) are in `Sys2Proof/Machine/Params.lean`. -/

namespace Sys2Proof

/-- The line names of R13. -/
inductive Line where
  | rs | en | d4 | d5 | d6 | d7 | bl
  deriving DecidableEq, Repr, Inhabited

/-- The direction `LD[l]` of a line (R33). -/
inductive LineDir where
  | unset | out
  deriving DecidableEq, Repr, Inhabited

/-- The sixteen mode setters of R90. -/
inductive Setter where
  | entryInc | entryDec | shiftOn | shiftOff
  | displayOn | displayOff | cursorOn | cursorOff | blinkOn | blinkOff
  | bus8bit | bus4bit | lines2 | lines1 | font5x10 | font5x8
  deriving DecidableEq, Repr, Inhabited

/-- A pin map (R78): the bit position of each of eight signals in the expander byte. The positions
are plain numbers, so that a map with an entry of 8 or more can be written down and refused
(R88, V-F6). -/
structure PinMap where
  rs : Nat
  rw : Nat
  en : Nat
  d4 : Nat
  d5 : Nat
  d6 : Nat
  d7 : Nat
  bl : Nat
  deriving DecidableEq, Repr, Inhabited

/-- The record `IC` of instruction constants (R7). -/
structure IC where
  iInit1 : Byte
  iInit2 : Byte
  iClear : Byte
  iHome : Byte
  iEntry : Byte
  eInc : Byte
  eShift : Byte
  iDisplay : Byte
  dOn : Byte
  dCursor : Byte
  dBlink : Byte
  iFunction : Byte
  f8bit : Byte
  f2line : Byte
  f5x10 : Byte
  iShiftl : Byte
  iShiftr : Byte
  iDdram : Byte
  deriving DecidableEq, Repr, Inhabited

/-- Which of the seven line handles the parallel constructor was given (R100: "every non-nil
line"). `bl` is the parameter `HAS_BL` of R6. -/
structure Handles where
  rs : Bool
  en : Bool
  d4 : Bool
  d5 : Bool
  d6 : Bool
  d7 : Bool
  bl : Bool
  deriving DecidableEq, Repr, Inhabited

/-- The parameter `BUS` of R6, with the parameters that exist for that bus only: the line handles
(`HAS_BL` among them), or `PINMAP`, `I2C_ADDR` and `BL_RESET`. -/
inductive BusCfg where
  | par (handles : Handles)
  | i2c (map : PinMap) (addr : Byte) (blReset : Bool)
  deriving DecidableEq, Repr, Inhabited

/-- The record `CFG` of R6, and the client's `OWNS_BLH` of R190. -/
structure Cfg where
  bus : BusCfg
  tPulse : Nat
  tWrite : Nat
  tClear : Nat
  ctorSetters : List Setter
  ic : IC
  cols : Nat
  rows : Nat
  ownsBlh : Bool
  deriving DecidableEq, Repr, Inhabited

/-- FREE VALUE (log 4). What `LD[l]` is after a `LineDir(l)` that failed: "unspecified (`any
value` of the two)" (R33). Applied to the counter `State.draws`. -/
opaque Config.freeDir : Nat → LineDir

/-- FREE VALUE (log 4). What `LC[l]` is after a `LineClose(l)` that failed: "leaves it unspecified"
(R35). Applied to the counter `State.draws`. -/
opaque Config.freeClosed : Nat → Bool

end Sys2Proof
end

