-- ==== Sys2Proof/Machine/Params.lean ====
section
/-! DEFINITION. The named constants of the source (`00_scope.md` R6, R7; `30_encoding.md` R78),
kept in one place, and the checks of R8, R88 and R100 on a configuration. -/

namespace Sys2Proof

/-- The `MJKDZ` pin map (R78). -/
def PinMap.mjkdz : PinMap :=
  { rs := 6, rw := 5, en := 4, d4 := 0, d5 := 1, d6 := 2, d7 := 3, bl := 7 }

/-- The `PCF8574` pin map (R78). -/
def PinMap.pcf8574 : PinMap :=
  { rs := 0, rw := 1, en := 2, d4 := 4, d5 := 5, d6 := 6, d7 := 7, bl := 3 }

/-- The defaults of R7. The two initialisation words are the source's; the rest are the datasheet
values `[from general knowledge, not in source]` (log 10). -/
def IC.default : IC :=
  { iInit1 := 0x33, iInit2 := 0x32, iClear := 0x01, iHome := 0x02
    iEntry := 0x04, eInc := 0x02, eShift := 0x01
    iDisplay := 0x08, dOn := 0x04, dCursor := 0x02, dBlink := 0x01
    iFunction := 0x20, f8bit := 0x10, f2line := 0x08, f5x10 := 0x04
    iShiftl := 0x18, iShiftr := 0x1C, iDdram := 0x80 }

/-- Six lines, and the backlight line when `hasBl` (R100). -/
def Handles.six (hasBl : Bool) : Handles :=
  { rs := true, en := true, d4 := true, d5 := true, d6 := true, d7 := true, bl := hasBl }

/-- A parallel configuration with the values of R6 and the defaults of R7, no constructor setters
and a 16 by 2 client (log 8). -/
def Cfg.parallel (hasBl : Bool) : Cfg :=
  { bus := .par (Handles.six hasBl), tPulse := 1, tWrite := 37, tClear := 1520
    ctorSetters := [], ic := IC.default, cols := 16, rows := 2, ownsBlh := false }

/-- An expander configuration with the values of R6 and the defaults of R7. -/
def Cfg.expander (map : PinMap) (blReset : Bool) : Cfg :=
  { Cfg.parallel false with bus := .i2c map 0x00 blReset }

/-- A mask with exactly one bit set. -/
def singleBit (m : Byte) : Bool := m != 0 && (m &&& (m - 1)) == 0

/-- Masks of which no two share a bit. -/
def disjointMasks : List Byte → Bool
  | [] => true
  | m :: ms => ms.all (fun k => (m &&& k) == 0) && disjointMasks ms

/-- One mode group of R8: "pairwise disjoint single-bit masks". -/
def maskGroup (ms : List Byte) : Bool := ms.all singleBit && disjointMasks ms

/-- Positions of which no two are equal. -/
def distinctPositions : List Nat → Bool
  | [] => true
  | p :: ps => ps.all (fun q => p != q) && distinctPositions ps

/-- The check of R8 on the three mode groups of `IC`. -/
def icCheck (ic : IC) : Bool :=
  maskGroup [ic.iEntry, ic.eInc, ic.eShift]
    && maskGroup [ic.iDisplay, ic.dOn, ic.dCursor, ic.dBlink]
    && maskGroup [ic.iFunction, ic.f8bit, ic.f2line, ic.f5x10]

/-- The check of R88: eight entries in 0..7, and seven of them (all but `RW`) pairwise distinct. -/
def pinMapCheck (p : PinMap) : Bool :=
  [p.rs, p.rw, p.en, p.d4, p.d5, p.d6, p.d7, p.bl].all (fun n => decide (n < 8))
    && distinctPositions [p.rs, p.en, p.d4, p.d5, p.d6, p.d7, p.bl]

/-- The check of R100: none of the six lines every word needs is absent. -/
def handlesCheck (h : Handles) : Bool := h.rs && h.en && h.d4 && h.d5 && h.d6 && h.d7

/-- The check that R214(b) makes of the bus part of a configuration. -/
def busCheck : BusCfg → Bool
  | .par h => handlesCheck h
  | .i2c map _ _ => pinMapCheck map

/-- The client's geometries (R191): at least one column and one to four rows. -/
def geometryCheck (c : Cfg) : Bool :=
  decide (1 ≤ c.cols) && decide (1 ≤ c.rows) && decide (c.rows ≤ 4)

end Sys2Proof
end

