-- ==== Sys2Proof/Syntax.lean ====
section
/-! DEFINITION. The instructions: one constructor of `Instr` per row of `spec/opcode_table.json`
(R84, R89, R90), the commands the host puts on the command port (R16, R89), and the ways a
command can fail to be one of them. -/

namespace Sys2Proof

/-- The 51 mnemonics of `spec/opcode_table.json`, in the table's order. -/
inductive Mnemonic where
  | reset | init | apply | flush | clear | clearr | home | setcursor | shiftl | shiftr | wchar
  | winstr | displayOn | displayOff | cursorOn | cursorOff | blinkOn | blinkOff | blOn | blOff
  | close | ltr | entryInc | entryDec | shiftOn | shiftOff | bus8bit | bus4bit | lines2
  | lines1 | font5x10 | font5x8 | init1 | init2 | clearw | homew | entryw | dispw | funcw
  | shlw | shrw | ddramw | char | raw | zero | dhome | dclear | dnewline | dsetcursor
  | dmessage | dclose
  deriving DecidableEq, Repr, Inhabited

/-- The instructions. The operands are those of R82, R89 and, for a bus word, the fields of R71. -/
inductive Instr where
  /-- `RESET`. R230: controller construction. -/
  | reset (cfg : Cfg)
  /-- `INIT`. R140. -/
  | init
  /-- `APPLY`. R167: zero or more setters, then the three mode words. -/
  | apply (setters : List Setter)
  /-- `FLUSH`. R169: `APPLY` with no setters. -/
  | flush
  /-- `CLEAR`. R142. -/
  | clear
  /-- `CLEARR`. R178: the full clear. -/
  | clearr
  /-- `HOME`. R144. -/
  | home
  /-- `SETCURSOR`. R146: the whole 8-bit operand, unmasked. -/
  | setcursor (a : Byte)
  /-- `SHIFTL`. R148. -/
  | shiftl
  /-- `SHIFTR`. R149. -/
  | shiftr
  /-- `WCHAR`. R150. -/
  | wchar (b : Byte)
  /-- `WINSTR`. R151. -/
  | winstr (b : Byte)
  /-- `DISPLAY_ON`. R171: as a host operation; R162 as a setter of `APPLY` (`Setter.displayOn`). -/
  | displayOn
  | displayOff
  | cursorOn
  | cursorOff
  | blinkOn
  | blinkOff
  /-- `BL_ON`. R105, R127. -/
  | blOn
  /-- `BL_OFF`. R105, R127. -/
  | blOff
  /-- `CLOSE`. R152. -/
  | close
  /-- `LTR?`. R176: the status read `LTR?`. -/
  | ltr
  /-- `ENTRY_INC`. R161: the setter by itself. -/
  | entryInc
  | entryDec
  | shiftOn
  | shiftOff
  /-- `BUS_8BIT`. R163. -/
  | bus8bit
  | bus4bit
  | lines2
  | lines1
  | font5x10
  | font5x8
  /-- `INIT1`. R71: a bus word, as the argument of the bus abstraction's `write` (R70). -/
  | init1
  | init2
  | clearw
  | homew
  /-- `ENTRYW`. R73: the fields `i = EM.ID`, `s = EM.S`. -/
  | entryw (i : Bool) (s : Bool)
  /-- `DISPW`. R74: the fields `D`, `C`, `B`. -/
  | dispw (d : Bool) (c : Bool) (b : Bool)
  /-- `FUNCW`. R75: the fields `L = FM.DL`, `N`, `F`. -/
  | funcw (l : Bool) (n : Bool) (f : Bool)
  | shlw
  | shrw
  /-- `DDRAMW`. R71, R76: the seven address bits. -/
  | ddramw (a : BitVec 7)
  /-- `CHAR`. R71: any character. -/
  | char (d : Byte)
  /-- `RAW`. R71: any instruction byte. -/
  | raw (d : Byte)
  /-- `ZERO`. R71, R127. -/
  | zero
  /-- `DHOME`. R193 (client). -/
  | dhome
  /-- `DCLEAR`. R194 (client). -/
  | dclear
  /-- `DNEWLINE`. R195 (client). -/
  | dnewline
  /-- `DSETCURSOR`. R196 (client). -/
  | dsetcursor (c : Nat) (r : Nat)
  /-- `DMESSAGE`. R200 (client). -/
  | dmessage (text : List Byte)
  /-- `DCLOSE`. R201 (client). -/
  | dclose
  deriving DecidableEq, Repr, Inhabited

/-- One operand on the command port (R82): a configuration record, a setter name, a byte, one field
bit of a bus word, a seven-bit address, a natural number or a text. -/
inductive Operand where
  | cfg (c : Cfg)
  | setter (s : Setter)
  | byte (b : Byte)
  | bit (b : Bool)
  | addr (a : BitVec 7)
  | nat (n : Nat)
  | text (t : List Byte)
  deriving DecidableEq, Repr

/-- What the host puts on the command port for one operation: "a mnemonic ... with its operands"
(R16, R89). Host operations have no binary encoding (`30_encoding.md`, first paragraph). -/
structure Command where
  mnemonic : Mnemonic
  operands : List Operand
  deriving DecidableEq, Repr

/-- One item waiting at the block: a command on the command port, or a bus word handed to the bus
abstraction's `write` as bytes, the low byte `d7..d0` first and `rs` in bit 0 of the second
(log 9). -/
inductive PortItem where
  | command (c : Command)
  | word (bytes : List Byte)
  deriving DecidableEq, Repr

/-- Why an item is no instruction. -/
inductive DecodeError where
  /-- The operands are not those R82 and R89 give the mnemonic. -/
  | badOperands (m : Mnemonic)
  /-- A setter that is no toggle, issued by itself: "There are no such stand-alone operations for the
  entry or function flags" (R171); the table calls it an operand only. -/
  | setterAlone (m : Mnemonic)
  /-- Fewer than the two bytes a nine-bit bus word takes. -/
  | truncated
  /-- A bit above `rs` is set: a bus word has nine bits (R70). -/
  | highBits
  /-- Bytes follow the word: every bus word has one length (R70). -/
  | trailingBytes
  /-- A line of text whose first word is no mnemonic of R89, R90 or the table. -/
  | unknownMnemonic
  /-- A line of text with an operand that is no hex byte, quoted character or setter name (R91). -/
  | badOperandText
  deriving DecidableEq, Repr

/-- The mnemonic of an instruction. -/
def Instr.mnemonic : Instr → Mnemonic
  | .reset _ => .reset
  | .init => .init
  | .apply _ => .apply
  | .flush => .flush
  | .clear => .clear
  | .clearr => .clearr
  | .home => .home
  | .setcursor _ => .setcursor
  | .shiftl => .shiftl
  | .shiftr => .shiftr
  | .wchar _ => .wchar
  | .winstr _ => .winstr
  | .displayOn => .displayOn
  | .displayOff => .displayOff
  | .cursorOn => .cursorOn
  | .cursorOff => .cursorOff
  | .blinkOn => .blinkOn
  | .blinkOff => .blinkOff
  | .blOn => .blOn
  | .blOff => .blOff
  | .close => .close
  | .ltr => .ltr
  | .entryInc => .entryInc
  | .entryDec => .entryDec
  | .shiftOn => .shiftOn
  | .shiftOff => .shiftOff
  | .bus8bit => .bus8bit
  | .bus4bit => .bus4bit
  | .lines2 => .lines2
  | .lines1 => .lines1
  | .font5x10 => .font5x10
  | .font5x8 => .font5x8
  | .init1 => .init1
  | .init2 => .init2
  | .clearw => .clearw
  | .homew => .homew
  | .entryw _ _ => .entryw
  | .dispw _ _ _ => .dispw
  | .funcw _ _ _ => .funcw
  | .shlw => .shlw
  | .shrw => .shrw
  | .ddramw _ => .ddramw
  | .char _ => .char
  | .raw _ => .raw
  | .zero => .zero
  | .dhome => .dhome
  | .dclear => .dclear
  | .dnewline => .dnewline
  | .dsetcursor _ _ => .dsetcursor
  | .dmessage _ => .dmessage
  | .dclose => .dclose

/-- The mnemonic as `spec/opcode_table.json` spells it. -/
def Mnemonic.name : Mnemonic → String
  | .reset => "RESET"
  | .init => "INIT"
  | .apply => "APPLY"
  | .flush => "FLUSH"
  | .clear => "CLEAR"
  | .clearr => "CLEARR"
  | .home => "HOME"
  | .setcursor => "SETCURSOR"
  | .shiftl => "SHIFTL"
  | .shiftr => "SHIFTR"
  | .wchar => "WCHAR"
  | .winstr => "WINSTR"
  | .displayOn => "DISPLAY_ON"
  | .displayOff => "DISPLAY_OFF"
  | .cursorOn => "CURSOR_ON"
  | .cursorOff => "CURSOR_OFF"
  | .blinkOn => "BLINK_ON"
  | .blinkOff => "BLINK_OFF"
  | .blOn => "BL_ON"
  | .blOff => "BL_OFF"
  | .close => "CLOSE"
  | .ltr => "LTR?"
  | .entryInc => "ENTRY_INC"
  | .entryDec => "ENTRY_DEC"
  | .shiftOn => "SHIFT_ON"
  | .shiftOff => "SHIFT_OFF"
  | .bus8bit => "BUS_8BIT"
  | .bus4bit => "BUS_4BIT"
  | .lines2 => "LINES_2"
  | .lines1 => "LINES_1"
  | .font5x10 => "FONT_5X10"
  | .font5x8 => "FONT_5X8"
  | .init1 => "INIT1"
  | .init2 => "INIT2"
  | .clearw => "CLEARW"
  | .homew => "HOMEW"
  | .entryw => "ENTRYW"
  | .dispw => "DISPW"
  | .funcw => "FUNCW"
  | .shlw => "SHLW"
  | .shrw => "SHRW"
  | .ddramw => "DDRAMW"
  | .char => "CHAR"
  | .raw => "RAW"
  | .zero => "ZERO"
  | .dhome => "DHOME"
  | .dclear => "DCLEAR"
  | .dnewline => "DNEWLINE"
  | .dsetcursor => "DSETCURSOR"
  | .dmessage => "DMESSAGE"
  | .dclose => "DCLOSE"

end Sys2Proof
end

