-- ==== Sys2Proof/WellFormed.lean ====
section
/-! DEFINITION. Well-formedness of a configuration (R214(b): R8, R88, R100) and of an instruction.
The checks themselves are in `Sys2Proof/Machine/Params.lean`. -/

namespace Sys2Proof

/-- A configuration that `RESET` accepts (R214(b)). Geometry is the client's matter and is not part
of it (R191). -/
def Cfg.wf (c : Cfg) : Bool := busCheck c.bus && icCheck c.ic

/-- A well-formed instruction. The block has no illegal encoding and no invalid argument (R85,
R213); the one operand that can be ill-formed is the configuration of `RESET`. -/
def Instr.wf : Instr → Bool
  | .reset cfg => cfg.wf
  | .init => true
  | .apply _ => true
  | .flush => true
  | .clear => true
  | .clearr => true
  | .home => true
  | .setcursor _ => true
  | .shiftl => true
  | .shiftr => true
  | .wchar _ => true
  | .winstr _ => true
  | .displayOn => true
  | .displayOff => true
  | .cursorOn => true
  | .cursorOff => true
  | .blinkOn => true
  | .blinkOff => true
  | .blOn => true
  | .blOff => true
  | .close => true
  | .ltr => true
  | .entryInc => true
  | .entryDec => true
  | .shiftOn => true
  | .shiftOff => true
  | .bus8bit => true
  | .bus4bit => true
  | .lines2 => true
  | .lines1 => true
  | .font5x10 => true
  | .font5x8 => true
  | .init1 => true
  | .init2 => true
  | .clearw => true
  | .homew => true
  | .entryw _ _ => true
  | .dispw _ _ _ => true
  | .funcw _ _ _ => true
  | .shlw => true
  | .shrw => true
  | .ddramw _ => true
  | .char _ => true
  | .raw _ => true
  | .zero => true
  | .dhome => true
  | .dclear => true
  | .dnewline => true
  | .dsetcursor _ _ => true
  | .dmessage _ => true
  | .dclose => true

end Sys2Proof
end

