-- ==== Sys2Proof/Decode.lean ====
section
/-! DEFINITION. Decoding and encoding. (1) Commands: a mnemonic with its operands (R82, R89, R90).
(2) Bus words: the nine bits of R71, as two bytes. (3) The text form of R91. (4) The grouping of
instruction words by their highest set bit (R72). Every decoder is total and rejects by name. -/

namespace Sys2Proof

/-! ### Commands (R89) -/

/-- No operand. -/
def takeNone (m : Mnemonic) (i : Instr) : List Operand → Except DecodeError Instr
  | [] => .ok i
  | _ => .error (.badOperands m)

/-- One byte (R82). -/
def takeByte (m : Mnemonic) (f : Byte → Instr) : List Operand → Except DecodeError Instr
  | [.byte b] => .ok (f b)
  | _ => .error (.badOperands m)

/-- One configuration record (R89, `RESET`). -/
def takeCfg (m : Mnemonic) (f : Cfg → Instr) : List Operand → Except DecodeError Instr
  | [.cfg c] => .ok (f c)
  | _ => .error (.badOperands m)

/-- Setter names, and nothing else, in order. -/
def setterNames : List Operand → Option (List Setter)
  | [] => some []
  | .setter s :: ops => (setterNames ops).map (s :: ·)
  | _ :: _ => none

/-- Any number of setter names (R82, `APPLY`). -/
def takeSetters (m : Mnemonic) (f : List Setter → Instr) (ops : List Operand) :
    Except DecodeError Instr :=
  match setterNames ops with
  | some ss => .ok (f ss)
  | none => .error (.badOperands m)

/-- Two field bits, as the pattern of R71 has them from left to right. -/
def takeBits2 (m : Mnemonic) (f : Bool → Bool → Instr) : List Operand → Except DecodeError Instr
  | [.bit a, .bit b] => .ok (f a b)
  | _ => .error (.badOperands m)

/-- Three field bits, as the pattern of R71 has them from left to right. -/
def takeBits3 (m : Mnemonic) (f : Bool → Bool → Bool → Instr) :
    List Operand → Except DecodeError Instr
  | [.bit a, .bit b, .bit c] => .ok (f a b c)
  | _ => .error (.badOperands m)

/-- One seven-bit address (R71, `DDRAMW`). -/
def takeAddr (m : Mnemonic) (f : BitVec 7 → Instr) : List Operand → Except DecodeError Instr
  | [.addr a] => .ok (f a)
  | _ => .error (.badOperands m)

/-- Column and row (R196). -/
def takeNats (m : Mnemonic) (f : Nat → Nat → Instr) : List Operand → Except DecodeError Instr
  | [.nat c, .nat r] => .ok (f c r)
  | _ => .error (.badOperands m)

/-- A sequence of bytes (R200). -/
def takeText (m : Mnemonic) (f : List Byte → Instr) : List Operand → Except DecodeError Instr
  | [.text t] => .ok (f t)
  | _ => .error (.badOperands m)

/-- The instruction a command names (R89, R90). A setter that is no toggle is an operand of `APPLY` and
of `CTOR_SETTERS` only (R90, R171): by itself it is no command. The names of R89 are commands by the spec
(R16); that the six client operations and the thirteen bus words are commands on this port too, by
their names in the table, is the model's choice (DESIGN CHOICE, log 25). -/
def decodeCommand (c : Command) : Except DecodeError Instr :=
  match c.mnemonic with
  | .reset => takeCfg .reset .reset c.operands
  | .init => takeNone .init .init c.operands
  | .apply => takeSetters .apply .apply c.operands
  | .flush => takeNone .flush .flush c.operands
  | .clear => takeNone .clear .clear c.operands
  | .clearr => takeNone .clearr .clearr c.operands
  | .home => takeNone .home .home c.operands
  | .setcursor => takeByte .setcursor .setcursor c.operands
  | .shiftl => takeNone .shiftl .shiftl c.operands
  | .shiftr => takeNone .shiftr .shiftr c.operands
  | .wchar => takeByte .wchar .wchar c.operands
  | .winstr => takeByte .winstr .winstr c.operands
  | .displayOn => takeNone .displayOn .displayOn c.operands
  | .displayOff => takeNone .displayOff .displayOff c.operands
  | .cursorOn => takeNone .cursorOn .cursorOn c.operands
  | .cursorOff => takeNone .cursorOff .cursorOff c.operands
  | .blinkOn => takeNone .blinkOn .blinkOn c.operands
  | .blinkOff => takeNone .blinkOff .blinkOff c.operands
  | .blOn => takeNone .blOn .blOn c.operands
  | .blOff => takeNone .blOff .blOff c.operands
  | .close => takeNone .close .close c.operands
  | .ltr => takeNone .ltr .ltr c.operands
  | .entryInc => .error (.setterAlone .entryInc)
  | .entryDec => .error (.setterAlone .entryDec)
  | .shiftOn => .error (.setterAlone .shiftOn)
  | .shiftOff => .error (.setterAlone .shiftOff)
  | .bus8bit => .error (.setterAlone .bus8bit)
  | .bus4bit => .error (.setterAlone .bus4bit)
  | .lines2 => .error (.setterAlone .lines2)
  | .lines1 => .error (.setterAlone .lines1)
  | .font5x10 => .error (.setterAlone .font5x10)
  | .font5x8 => .error (.setterAlone .font5x8)
  | .init1 => takeNone .init1 .init1 c.operands
  | .init2 => takeNone .init2 .init2 c.operands
  | .clearw => takeNone .clearw .clearw c.operands
  | .homew => takeNone .homew .homew c.operands
  | .entryw => takeBits2 .entryw .entryw c.operands
  | .dispw => takeBits3 .dispw .dispw c.operands
  | .funcw => takeBits3 .funcw .funcw c.operands
  | .shlw => takeNone .shlw .shlw c.operands
  | .shrw => takeNone .shrw .shrw c.operands
  | .ddramw => takeAddr .ddramw .ddramw c.operands
  | .char => takeByte .char .char c.operands
  | .raw => takeByte .raw .raw c.operands
  | .zero => takeNone .zero .zero c.operands
  | .dhome => takeNone .dhome .dhome c.operands
  | .dclear => takeNone .dclear .dclear c.operands
  | .dnewline => takeNone .dnewline .dnewline c.operands
  | .dsetcursor => takeNats .dsetcursor .dsetcursor c.operands
  | .dmessage => takeText .dmessage .dmessage c.operands
  | .dclose => takeNone .dclose .dclose c.operands

/-- The operands of an instruction, as the command port carries them. -/
def Instr.operands : Instr → List Operand
  | .reset cfg => [.cfg cfg]
  | .init => []
  | .apply ss => ss.map .setter
  | .flush => []
  | .clear => []
  | .clearr => []
  | .home => []
  | .setcursor a => [.byte a]
  | .shiftl => []
  | .shiftr => []
  | .wchar b => [.byte b]
  | .winstr b => [.byte b]
  | .displayOn => []
  | .displayOff => []
  | .cursorOn => []
  | .cursorOff => []
  | .blinkOn => []
  | .blinkOff => []
  | .blOn => []
  | .blOff => []
  | .close => []
  | .ltr => []
  | .entryInc => []
  | .entryDec => []
  | .shiftOn => []
  | .shiftOff => []
  | .bus8bit => []
  | .bus4bit => []
  | .lines2 => []
  | .lines1 => []
  | .font5x10 => []
  | .font5x8 => []
  | .init1 => []
  | .init2 => []
  | .clearw => []
  | .homew => []
  | .entryw i s => [.bit i, .bit s]
  | .dispw d c b => [.bit d, .bit c, .bit b]
  | .funcw l n f => [.bit l, .bit n, .bit f]
  | .shlw => []
  | .shrw => []
  | .ddramw a => [.addr a]
  | .char d => [.byte d]
  | .raw d => [.byte d]
  | .zero => []
  | .dhome => []
  | .dclear => []
  | .dnewline => []
  | .dsetcursor c r => [.nat c, .nat r]
  | .dmessage t => [.text t]
  | .dclose => []

/-- The command of an instruction: the encoder beside `decodeCommand`. -/
def encodeCommand (i : Instr) : Command := { mnemonic := i.mnemonic, operands := i.operands }

/-! ### Bus words (R70, R71) -/

/-- The eight data bits of a bus word. -/
def wordData (w : WordBits) : Byte := w.setWidth 8

/-- A row of the table of R71: the fixed bits, which bits they are, and the instruction with its
fields taken from the word. -/
structure WordRow where
  pat : WordBits
  mask : WordBits
  build : WordBits → Instr

/-- The row's fixed bits are in the word. -/
def WordRow.accepts (r : WordRow) (w : WordBits) : Bool := (w &&& r.mask) == r.pat

/-- The nine bits of an instruction byte: `rs = 0` (R70). -/
def instrBits (d : Byte) : WordBits := 0#1 ++ d

/-- A mask's bit is set in the word's data. -/
def hasBit (m : Byte) (w : WordBits) : Bool := wordData w &&& m != 0

/-- A row that is one word. -/
def constRow (d : Byte) (i : Instr) : WordRow :=
  { pat := instrBits d, mask := 0x1FF, build := fun _ => i }

/-- A row with a "set" flag and the feature bits `fields`: every other bit is fixed (R73 to R75). -/
def modeRow (flag fields : Byte) (build : WordBits → Instr) : WordRow :=
  { pat := instrBits flag, mask := ~~~ instrBits fields, build := build }

/-- The rows of R71 with `rs = 0` and a meaning of their own, and `CHAR`, under a given `IC`. With the
default `IC` they have the patterns of the table (R84), and no two of them accept one word. -/
def wordRows (ic : IC) : List WordRow :=
  [ constRow ic.iInit1 .init1,
    constRow ic.iInit2 .init2,
    constRow ic.iClear .clearw,
    constRow ic.iHome .homew,
    modeRow ic.iEntry (ic.eInc ||| ic.eShift) fun w => .entryw (hasBit ic.eInc w) (hasBit ic.eShift w),
    modeRow ic.iDisplay (ic.dOn ||| ic.dCursor ||| ic.dBlink) fun w =>
      .dispw (hasBit ic.dOn w) (hasBit ic.dCursor w) (hasBit ic.dBlink w),
    modeRow ic.iFunction (ic.f8bit ||| ic.f2line ||| ic.f5x10) fun w =>
      .funcw (hasBit ic.f8bit w) (hasBit ic.f2line w) (hasBit ic.f5x10 w),
    constRow ic.iShiftl .shlw,
    constRow ic.iShiftr .shrw,
    { pat := instrBits ic.iDdram, mask := instrBits (ic.iDdram ||| 0x80) ||| 0x100
      build := fun w => .ddramw (w.setWidth 7) },
    { pat := 0x100, mask := 0x100, build := fun w => .char (wordData w) },
    constRow 0x00 .zero ]

/-- The row of R71 that a bus word is, under the `IC` in use: the first that accepts it, and `RAW` for
a word no other row claims, because that row "overlaps every rs=0 word: the table is not a decoder"
(`opcode_table.json`, R84). Whichever row it is, the word sent is the word given (R70). That a word
has its own row before `RAW` is the model's choice (log 9). -/
def decodeWord (ic : IC) (w : WordBits) : Instr :=
  match (wordRows ic).find? (fun r => r.accepts w) with
  | some r => r.build w
  | none => .raw (wordData w)

/-- The nine bits of a bus word, written out from the patterns of R71, which use the default `IC`
(R84); `none` for an instruction that is no bus word. -/
def encodeWord : Instr → Option WordBits
  | .reset _ => none
  | .init => none
  | .apply _ => none
  | .flush => none
  | .clear => none
  | .clearr => none
  | .home => none
  | .setcursor _ => none
  | .shiftl => none
  | .shiftr => none
  | .wchar _ => none
  | .winstr _ => none
  | .displayOn => none
  | .displayOff => none
  | .cursorOn => none
  | .cursorOff => none
  | .blinkOn => none
  | .blinkOff => none
  | .blOn => none
  | .blOff => none
  | .close => none
  | .ltr => none
  | .entryInc => none
  | .entryDec => none
  | .shiftOn => none
  | .shiftOff => none
  | .bus8bit => none
  | .bus4bit => none
  | .lines2 => none
  | .lines1 => none
  | .font5x10 => none
  | .font5x8 => none
  | .init1 => some 0b000110011
  | .init2 => some 0b000110010
  | .clearw => some 0b000000001
  | .homew => some 0b000000010
  | .entryw i s => some (0b0000001#7 ++ BitVec.ofBool i ++ BitVec.ofBool s)
  | .dispw d c b => some (0b000001#6 ++ BitVec.ofBool d ++ BitVec.ofBool c ++ BitVec.ofBool b)
  | .funcw l n f => some (0b0001#4 ++ BitVec.ofBool l ++ BitVec.ofBool n ++ BitVec.ofBool f ++ 0b00#2)
  | .shlw => some 0b000011000
  | .shrw => some 0b000011100
  | .ddramw a => some (0b01#2 ++ a)
  | .char d => some (0b1#1 ++ d)
  | .raw d => some (0b0#1 ++ d)
  | .zero => some 0b000000000
  | .dhome => none
  | .dclear => none
  | .dnewline => none
  | .dsetcursor _ _ => none
  | .dmessage _ => none
  | .dclose => none

/-- A bus word whose nine bits decode to it under the default `IC`: every one but a `RAW` byte that another row of R71
claims (the same word under its own name). -/
def Instr.wordWf (i : Instr) : Bool :=
  match encodeWord i with
  | some w => decodeWord IC.default w == i
  | none => false

/-- A bus word as the two bytes of a port item: `d7..d0`, then `rs` in bit 0 (log 9). -/
def wordBytes (w : WordBits) : List Byte := [wordData w, (w >>> 8).setWidth 8]

/-- One bus word from the front of some bytes, and the bytes after it. -/
def decodeBytes (ic : IC) : List Byte → Except DecodeError (Instr × List Byte)
  | lo :: hi :: rest =>
    if hi &&& 0xFE = 0 then .ok (decodeWord ic ((hi.setWidth 1 : BitVec 1) ++ lo), rest)
    else .error .highBits
  | _ => .error .truncated

/-- The instruction of a port item, under the `IC` in use. -/
def decodeItem (ic : IC) : PortItem → Except DecodeError Instr
  | .command c => decodeCommand c
  | .word bytes =>
    match decodeBytes ic bytes with
    | .ok (i, []) => .ok i
    | .ok (_, _ :: _) => .error .trailingBytes
    | .error e => .error e

/-- The bytes of a word of `nbits` bits, least significant first, and at least the two a bus word
takes; the bits above `nbits` are zero. -/
def tableBytes (nbits w : Nat) : List Byte :=
  (List.range (max 2 ((nbits + 7) / 8))).map fun k => BitVec.ofNat 8 ((w % 2 ^ nbits) / 256 ^ k)

/-- What the decoder reads from a word numbered as `spec/opcode_table.json` numbers it. The table uses
the default `IC` (R84). -/
def decodeTableWord (nbits w : Nat) : Option Instr :=
  match decodeItem IC.default (.word (tableBytes nbits w)) with
  | .ok i => some i
  | .error _ => none

/-! ### The text form (R91) -/

/-- All mnemonics, in the table's order. -/
def allMnemonics : List Mnemonic :=
  [.reset, .init, .apply, .flush, .clear, .clearr, .home, .setcursor, .shiftl, .shiftr,
   .wchar, .winstr, .displayOn, .displayOff, .cursorOn, .cursorOff, .blinkOn, .blinkOff, .blOn, .blOff,
   .close, .ltr, .entryInc, .entryDec, .shiftOn, .shiftOff, .bus8bit, .bus4bit, .lines2, .lines1,
   .font5x10, .font5x8, .init1, .init2, .clearw, .homew, .entryw, .dispw, .funcw, .shlw,
   .shrw, .ddramw, .char, .raw, .zero, .dhome, .dclear, .dnewline, .dsetcursor, .dmessage,
   .dclose]

/-- The setters' names (R90). -/
def Setter.name : Setter → String
  | .entryInc => "ENTRY_INC"
  | .entryDec => "ENTRY_DEC"
  | .shiftOn => "SHIFT_ON"
  | .shiftOff => "SHIFT_OFF"
  | .displayOn => "DISPLAY_ON"
  | .displayOff => "DISPLAY_OFF"
  | .cursorOn => "CURSOR_ON"
  | .cursorOff => "CURSOR_OFF"
  | .blinkOn => "BLINK_ON"
  | .blinkOff => "BLINK_OFF"
  | .bus8bit => "BUS_8BIT"
  | .bus4bit => "BUS_4BIT"
  | .lines2 => "LINES_2"
  | .lines1 => "LINES_1"
  | .font5x10 => "FONT_5X10"
  | .font5x8 => "FONT_5X8"

/-- The sixteen setters of R90. -/
def allSetters : List Setter :=
  [.entryInc, .entryDec, .shiftOn, .shiftOff, .displayOn, .displayOff, .cursorOn, .cursorOff,
   .blinkOn, .blinkOff, .bus8bit, .bus4bit, .lines2, .lines1, .font5x10, .font5x8]

/-- The quotation mark around a character operand. -/
def quoteChar : Char := Char.ofNat 0x27

/-- The sign that "starts a comment". -/
def commentChar : Char := Char.ofNat 0x3B

/-- A finished word, if there is one, before the words that follow. -/
def endWord (cur : List Char) (more : List (List Char)) : List (List Char) :=
  if cur.isEmpty then more else cur.reverse :: more

/-- The words of one line up to its comment; `cur` is the word being read, last character first, and
`quoted` says whether the line stands between two quotation marks, where a character is taken as it
is. -/
def lineWords : List Char → Bool → List Char → List (List Char)
  | [], _, cur => endWord cur []
  | c :: rest, quoted, cur =>
    if c = quoteChar then lineWords rest (!quoted) (c :: cur)
    else if quoted then lineWords rest quoted (c :: cur)
    else if c = commentChar then endWord cur []
    else if c = ' ' then endWord cur (lineWords rest quoted [])
    else lineWords rest quoted (c :: cur)

/-- The value of a hex digit. -/
def hexDigit (c : Char) : Option Nat :=
  if '0' ≤ c ∧ c ≤ '9' then some (c.toNat - 0x30)
  else if 'A' ≤ c ∧ c ≤ 'F' then some (c.toNat - 0x37)
  else if 'a' ≤ c ∧ c ≤ 'f' then some (c.toNat - 0x57)
  else none

/-- An operand as R91 writes it: `0xNN`, a quoted character, or a setter's name. R91 gives quoted
characters by ASCII; that one of code 0x80 to 0xFF is the byte of its code point, and that one above
is refused, is the model's choice (DESIGN CHOICE, log 22). -/
def readOperand (t : List Char) : Option Operand :=
  match allSetters.find? (fun s => s.name.toList == t) with
  | some s => some (.setter s)
  | none =>
    match t with
    | [q, c, q'] =>
      if q = quoteChar ∧ q' = quoteChar ∧ c.toNat < 256 then some (.byte (BitVec.ofNat 8 c.toNat))
      else none
    | ['0', 'x', h, l] =>
      match hexDigit h, hexDigit l with
      | some a, some b => some (.byte (BitVec.ofNat 8 (16 * a + b)))
      | _, _ => none
    | _ => none

/-- All of a line's operands, or none of them. -/
def readOperands : List (List Char) → Option (List Operand)
  | [] => some []
  | t :: ts =>
    match readOperand t, readOperands ts with
    | some o, some os => some (o :: os)
    | _, _ => none

/-- One line of the syntax of R91: "mnemonic, then operands separated by spaces", or an empty line.
`RESET` has no text form for its operand, and the client's operands have none either. -/
def readLine (line : List Char) : Except DecodeError (Option Command) :=
  match lineWords line false [] with
  | [] => .ok none
  | t :: ts =>
    match allMnemonics.find? (fun m => m.name.toList == t), readOperands ts with
    | some m, some os => .ok (some { mnemonic := m, operands := os })
    | some _, none => .error .badOperandText
    | none, _ => .error .unknownMnemonic

/-! ### The groups of instruction words (R72) -/

/-- The instruction groups of the LCD controller, as R72 tells them apart. -/
inductive LcdGroup where
  | ddramAddress | cgramAddress | functionSet | shift | displayControl | entryMode | returnHome
  | clearDisplay | noInstruction
  deriving DecidableEq, Repr

/-- "the position of the highest set bit of `data`" (R72). The block itself never decodes a word. -/
def lcdGroup (d : Byte) : LcdGroup :=
  if d.getLsbD 7 then .ddramAddress
  else if d.getLsbD 6 then .cgramAddress
  else if d.getLsbD 5 then .functionSet
  else if d.getLsbD 4 then .shift
  else if d.getLsbD 3 then .displayControl
  else if d.getLsbD 2 then .entryMode
  else if d.getLsbD 1 then .returnHome
  else if d.getLsbD 0 then .clearDisplay
  else .noInstruction

end Sys2Proof
end

