-- ==== Sys2Proof/Machine/State.lean ====
section
/-! DEFINITION. The state of the block and of its client (`10_state.md`, `44_display_client.md`
R190), the trace's events, the ways a step can stop, and the state at power-on (R40). -/

namespace Sys2Proof.Machine

/-- Why the machine stops for good. -/
inductive Fault where
  /-- Raised by `perform` when the environment's next answer is `TStatus.never`: "a blocked
  transport write blocks the whole call chain indefinitely" (R66, R226). SAFE: the block "has no
  step that gets past it". -/
  | hang
  deriving DecidableEq, Repr

/-- Why an operation has no meaning. R214 names each of the first four. -/
inductive Refusal where
  /-- Raised by `exec` for an instruction without a meaning; no arm does. SAFE. -/
  | notModelled (mnemonic : String)
  /-- R214(a): raised by `whenReady` and `RESET` while `CLOSED = 1`. SAFE (D15). -/
  | closed
  /-- R214(b): raised by `RESET` with an ill-formed configuration. SAFE (D8, D17). -/
  | illFormedConfig
  /-- R214(c): raised by `whenReady` and `RESET` after a `RESET` that ended in `Err(e)`. SAFE (D30). -/
  | constructionFailed
  /-- R214(d): raised by `whenReady` before `RESET`. SAFE (D30). -/
  | notConstructed
  /-- R191, U14: raised by the client's operations when the geometry is not one to four rows of at
  least one column. SAFE (D28). -/
  | badGeometry
  /-- Raised by `step` when the item at the port is no instruction. SAFE. -/
  | notAnInstruction (e : DecodeError)
  deriving DecidableEq, Repr

/-- The level `LV[l]` last driven on a line (R34): `unknown`, 0 or 1. -/
inductive Level where
  | unknown | low | high
  deriving DecidableEq, Repr, Inhabited

/-- The image `XP` of the expander's output byte (R36): 8 bits or `unknown`. -/
inductive Image where
  | unknown
  | known (v : Byte)
  deriving DecidableEq, Repr, Inhabited

/-- `TErr` (R14): a transport error, "an opaque value of a type `TErr` the block never inspects"
(log 5). -/
abbrev TErr := Nat

/-- What the environment answers to one fallible primitive (R14), or that it never answers (R66). -/
inductive TStatus where
  | ok
  | err (e : TErr)
  | never
  deriving DecidableEq, Repr, Inhabited

/-- The events of R12 and R13, and the release of the client's own backlight handle (R201). -/
inductive Event where
  /-- `dir(l)`: configure line `l` as an output. -/
  | dir (l : Line)
  /-- `w(l, v)`: drive line `l` low or high. -/
  | w (l : Line) (v : Bool)
  /-- `close(l)`: release line `l`. -/
  | close (l : Line)
  /-- `x(a, v)`: one single-byte I2C write of `v` to device address `a`. -/
  | x (a v : Byte)
  /-- `xclose`: release the I2C bus. -/
  | xclose
  /-- `d(n)`: at least `n` microseconds pass (R9). -/
  | d (n : Nat)
  /-- `close(BLH)`: release the client's backlight handle (R201). -/
  | closeBlh
  deriving DecidableEq, Repr

/-- An event of the trace, and the error it ended in when it failed (`!e`, R14). -/
structure Entry where
  ev : Event
  err : Option TErr
  deriving DecidableEq, Repr

/-- The result of the host operation just finished (R23(b)); `value` is the bit `LTR?` returns, and
`none` says that no operation has finished yet. An output: no operation reads it. -/
inductive Result where
  | none
  | ok
  | err (e : TErr)
  | value (b : Bool)
  deriving DecidableEq, Repr, Inhabited

/-- How far construction has come: before `RESET`, after a `RESET` with result `Ok`, after one with
result `Err(e)` (R214(c), (d)). -/
inductive Life where
  | unbuilt | ready | failed
  deriving DecidableEq, Repr, Inhabited

/-- `EM`, the entry-mode register (R25). -/
structure EntryMode where
  id : Bool
  s : Bool
  deriving DecidableEq, Repr, Inhabited

/-- `DM`, the display-mode register (R26). -/
structure DisplayMode where
  d : Bool
  c : Bool
  b : Bool
  deriving DecidableEq, Repr, Inhabited

/-- `FM`, the function-mode register (R27). -/
structure FunctionMode where
  dl : Bool
  n : Bool
  f : Bool
  deriving DecidableEq, Repr, Inhabited

/-- The three mode registers, "an explicit mode-flags value" (R160). -/
structure Modes where
  em : EntryMode
  dm : DisplayMode
  fm : FunctionMode
  deriving DecidableEq, Repr, Inhabited

/-- `LD[l]`, `LV[l]`, `LC[l]` of one line (R33 to R35). -/
structure LineState where
  dir : LineDir
  level : Level
  closed : Bool
  deriving DecidableEq, Repr, Inhabited

/-- The seven lines (R33). `bl` takes part when the configuration has it. -/
structure Lines where
  rs : LineState
  en : LineState
  d4 : LineState
  d5 : LineState
  d6 : LineState
  d7 : LineState
  bl : LineState
  deriving DecidableEq, Repr, Inhabited

/-- The whole state: the block's (R20), the client's (R190), the parameters of the step that the
outside gives (R39), and the model's own `draws`. -/
structure State where
  /-- What has become of `RESET` (R214). -/
  life : Life
  /-- `CFG`, fixed by `RESET` (R6, R230). -/
  cfg : Cfg
  /-- `EM`, `DM`, `FM` (R24 to R27). -/
  modes : Modes
  /-- `BLS`, stored backlight state, present when `BUS = I2C` (R29). -/
  bls : Bool
  /-- `CLOSED` (R30). -/
  closed : Bool
  /-- `LD`, `LV`, `LC` (R33 to R35), present when `BUS = PAR`. -/
  lines : Lines
  /-- `XP` (R36). -/
  xp : Image
  /-- `XC` (R36). -/
  xc : Bool
  /-- `T`, oldest event first (R12). -/
  trace : List Entry
  /-- The result output (R23(b)). -/
  result : Result
  /-- What the host has put on the command port or the bus abstraction's `write`, next first
  (R16, R39). -/
  port : List PortItem
  /-- The environment's answers to the next fallible primitives, next first; a primitive past the
  end of the list is answered `ok` (R14, R39; log 3). -/
  env : List TStatus
  /-- The client's logical column (R190, R191). -/
  col : Int
  /-- The client's logical row (R190, R191). -/
  row : Nat
  /-- The model's own: how many free values have been drawn (log 4). -/
  draws : Nat
  deriving DecidableEq, Repr

/-- All eight flags 0: "initialized to all-zero feature bits" (R24). -/
def Modes.zero : Modes :=
  { em := { id := false, s := false }
    dm := { d := false, c := false, b := false }
    fm := { dl := false, n := false, f := false } }

/-- A line before `RESET`: direction `unset`, level `unknown`, not closed (R33 to R35). -/
def LineState.fresh : LineState := { dir := .unset, level := .unknown, closed := false }

/-- All lines before `RESET`. -/
def Lines.fresh : Lines :=
  { rs := .fresh, en := .fresh, d4 := .fresh, d5 := .fresh, d6 := .fresh, d7 := .fresh
    bl := .fresh }

/-- The values of R40's column "when RESET begins (power-on, before any primitive)". `cfg` is
overwritten by `RESET` before anything of the block reads it (log 2); `BLS` is the recommended
`BL_RESET` (log 2); the client's cursor is R190's. -/
def State.reset : State :=
  { life := .unbuilt
    cfg := Cfg.parallel true
    modes := .zero
    bls := false
    closed := false
    lines := .fresh
    xp := .unknown
    xc := false
    trace := []
    result := .none
    port := []
    env := []
    col := 0
    row := 0
    draws := 0 }

end Sys2Proof.Machine
end

