-- ==== Sys2Proof/Machine/Ops.lean ====
section
/-! DEFINITION. The shared operations: performing primitives with the abort of R15, the effect of
one primitive on the output-side state (R33 to R36), the refusals of R214, and taking the next item
from the port (R16). -/

namespace Sys2Proof.Machine

/-! ### Lines -/

/-- The state of line `l`. -/
def Lines.get (ls : Lines) : Line → LineState
  | .rs => ls.rs
  | .en => ls.en
  | .d4 => ls.d4
  | .d5 => ls.d5
  | .d6 => ls.d6
  | .d7 => ls.d7
  | .bl => ls.bl

/-- The lines with line `l` replaced. -/
def Lines.put (ls : Lines) (l : Line) (x : LineState) : Lines :=
  match l with
  | .rs => { ls with rs := x }
  | .en => { ls with en := x }
  | .d4 => { ls with d4 := x }
  | .d5 => { ls with d5 := x }
  | .d6 => { ls with d6 := x }
  | .d7 => { ls with d7 := x }
  | .bl => { ls with bl := x }

/-- `LD[l] <- v`. -/
def State.setDir (s : State) (l : Line) (v : LineDir) : State :=
  { s with lines := s.lines.put l { s.lines.get l with dir := v } }

/-- `LV[l] <- v`. -/
def State.setLevel (s : State) (l : Line) (v : Level) : State :=
  { s with lines := s.lines.put l { s.lines.get l with level := v } }

/-- `LC[l] <- v`. -/
def State.setClosed (s : State) (l : Line) (v : Bool) : State :=
  { s with lines := s.lines.put l { s.lines.get l with closed := v } }

/-- The level a driven bit puts on a line (R10). -/
def Level.ofBit (v : Bool) : Level := if v then .high else .low

/-! ### Primitives (R13 to R15) -/

/-- The output-side effect of a primitive whose outcome is `ok` (R33 to R36). -/
def okEffect (e : Event) (s : State) : State :=
  match e with
  | .dir l => s.setDir l .out
  | .w l v => s.setLevel l (Level.ofBit v)
  | .close l => s.setClosed l true
  | .x _ v => { s with xp := .known v }
  | .xclose => { s with xc := true }
  | .d _ => s
  | .closeBlh => s

/-- The output-side effect of a primitive whose outcome is `err(e)`: an unspecified direction or
closed flag is a free value (R33, R35), a level or the expander image becomes `unknown` (R34,
R36). -/
def errEffect (e : Event) (s : State) : State :=
  match e with
  | .dir l => { s.setDir l (Config.freeDir s.draws) with draws := s.draws + 1 }
  | .w l _ => s.setLevel l .unknown
  | .close l => { s.setClosed l (Config.freeClosed s.draws) with draws := s.draws + 1 }
  | .x _ _ => { s with xp := .unknown }
  | .xclose => s
  | .d _ => s
  | .closeBlh => s

/-- "The event is appended to `T` whether the outcome is `ok` or `err(e)`" (R14). -/
def State.log (s : State) (e : Event) (err : Option TErr) : State :=
  { s with trace := s.trace ++ [{ ev := e, err := err }] }

/-- "`Delay` always succeeds"; every other primitive has an outcome (R14). -/
def Event.fallible : Event → Bool
  | .d _ => false
  | .dir _ => true
  | .w _ _ => true
  | .close _ => true
  | .x _ _ => true
  | .xclose => true
  | .closeBlh => true

/-- The environment's next answer; past the end of the list it is `ok` (log 3). -/
def State.answer (s : State) : TStatus := s.env.headD .ok

/-- The state once that answer is used up. -/
def State.answered (s : State) : State := { s with env := s.env.tail }

/-- Where a sequence of primitives has come to. -/
inductive Run where
  /-- It has run to its end. -/
  | done (s : State)
  /-- A primitive had the outcome `err(e)`: the operation ends with `Err(e)` (R15). -/
  | abort (s : State) (e : TErr)
  /-- The operation has no meaning (R214). -/
  | refused (r : Refusal)
  /-- The machine stops (R226). -/
  | stuck (f : Fault)
  deriving DecidableEq, Repr

/-- `try P; Q` (R15): `Q` follows only when `P` has run to its end. -/
def Run.andThen (r : Run) (k : State → Run) : Run :=
  match r with
  | .done s => k s
  | .abort s e => .abort s e
  | .refused x => .refused x
  | .stuck f => .stuck f

/-- `try` one primitive: it is logged, has its effect, and a failure aborts (R12, R14, R15). -/
def performOne (e : Event) (s : State) : Run :=
  if e.fallible then
    match s.answer with
    | .ok => .done ((okEffect e s.answered).log e none)
    | .err t => .abort ((errEffect e s.answered).log e (some t)) t
    | .never => .stuck .hang
  else .done ((okEffect e s).log e none)

/-- `try` the primitives of a list one after another: "every primitive completes ... before the next
begins" (R62), and the first failure ends it (R15). -/
def perform : List Event → State → Run
  | [], s => .done s
  | e :: es, s => (performOne e s).andThen (perform es)

/-- A host operation's outcome (R15, R23(b), R210): `Ok`, `Err(e)`, refused, or stuck. -/
def Run.outcome : Run → Host.Outcome State Fault Refusal
  | .done s => .next { s with result := .ok }
  | .abort s e => .next { s with result := .err e }
  | .refused r => .refused r
  | .stuck f => .fault f

/-! ### Refusals (R214) -/

/-- The preamble of every host operation but `RESET` (R141, R214(a), (c), (d)). "The refusal check
... comes before anything else in an operation" (R217). -/
def whenReady (s : State) (k : State → Run) : Run :=
  if s.closed then .refused .closed
  else match s.life with
    | .unbuilt => .refused .notConstructed
    | .failed => .refused .constructionFailed
    | .ready => k s

/-- The preamble of the client's operations (R191, U14). -/
def whenGeometry (s : State) (k : State → Run) : Run :=
  if geometryCheck s.cfg then k s else .refused .badGeometry

/-! ### The port (R16) -/

/-- What the block finds at its port. -/
inductive Fetched where
  /-- The host has issued nothing. -/
  | idle
  /-- The item is no instruction. -/
  | bad (e : DecodeError)
  /-- The next instruction, and the state once its item is taken from the port. -/
  | got (i : Instr) (s : State)
  deriving DecidableEq, Repr

/-- Take the next item: "one at a time ... in the order the host gives them" (R16). -/
def fetch (s : State) : Fetched :=
  match s.port with
  | [] => .idle
  | item :: rest =>
    match decodeItem s.cfg.ic item with
    | .error e => .bad e
    | .ok i => .got i { s with port := rest }

/-- The host puts a bus word, numbered as the opcode table numbers it, at the front of the port. -/
def State.offerWord (s : State) (nbits w : Nat) : State :=
  { s with port := .word (tableBytes nbits w) :: s.port }

end Sys2Proof.Machine
end

