-- ==== Sys2Proof/Machine/Operands.lean ====
section
/-! DEFINITION. From bus words to wire events: the nibble order of R54, the bit order of R55, the
parallel bus's sequences (`40_bus_parallel.md`), the bit-position mapper and the expander's
sequences (`41_bus_i2c.md`). -/

namespace Sys2Proof.Machine

/-- `data[7:4]` (R10). -/
def hiNibble (b : Byte) : Nibble := (b >>> 4).setWidth 4

/-- `data[3:0]` (R10). -/
def loNibble (b : Byte) : Nibble := b.setWidth 4

/-- A bus word `(rs, data)` (R70). -/
structure BusWord where
  rs : Bool
  data : Byte
  deriving DecidableEq, Repr

/-! ### The parallel bus -/

/-- The lines present (R100), in the order of R101 and R107. -/
def presentLines (h : Handles) : List Line :=
  [.rs, .en, .d4, .d5, .d6, .d7] ++ if h.bl then [.bl] else []

/-- `PDirs` (R101). -/
def pDirs (h : Handles) : List Event := (presentLines h).map .dir

/-- `PClose` (R107). -/
def pClose (h : Handles) : List Event := (presentLines h).map .close

/-- `PNibble(n)` (R103). -/
def pNibble (n : Nibble) : List Event :=
  [.w .d4 (n.getLsbD 0), .w .d5 (n.getLsbD 1), .w .d6 (n.getLsbD 2), .w .d7 (n.getLsbD 3)]

/-- `PPulse()` (R104): a delay before each of three transitions. -/
def pPulse (tPulse : Nat) : List Event :=
  [.d tPulse, .w .en false, .d tPulse, .w .en true, .d tPulse, .w .en false]

/-- `PWrite(rs, data)` (R102). -/
def pWrite (c : Cfg) (w : BusWord) : List Event :=
  [.w .rs w.rs] ++ pNibble (hiNibble w.data) ++ pPulse c.tPulse ++ pNibble (loNibble w.data) ++
    pPulse c.tPulse ++ [.d c.tWrite]

/-! ### The I2C expander -/

/-- A bit shifted to its position, within 8 bits (R10). -/
def bitAt (v : Bool) (pos : Nat) : Byte := if v then 1#8 <<< pos else 0#8

/-- `XMap(n)` (R121). -/
def xMap (p : PinMap) (n : Nibble) : Byte :=
  bitAt (n.getLsbD 0) p.d4 ||| bitAt (n.getLsbD 1) p.d5 ||| bitAt (n.getLsbD 2) p.d6 |||
    bitAt (n.getLsbD 3) p.d7

/-- `ctl` of R122: the RS bit and the backlight bit. -/
def xCtl (p : PinMap) (rs bls : Bool) : Byte := bitAt rs p.rs ||| bitAt bls p.bl

/-- `XByte(n, rs, BLS, en)` (R79). -/
def xByte (p : PinMap) (n : Nibble) (rs bls en : Bool) : Byte :=
  xMap p n ||| xCtl p rs bls ||| bitAt en p.en

/-- One byte written to the expander, after its delay (R124). -/
def xSend (c : Cfg) (addr v : Byte) : List Event := [.d c.tPulse, .x addr v]

/-- `XPulse(b)` (R124). -/
def xPulse (c : Cfg) (p : PinMap) (addr b : Byte) : List Event :=
  xSend c addr b ++ xSend c addr (b ||| bitAt true p.en) ++ xSend c addr b

/-- `XWrite(rs, data)` (R123), its base bytes those of `XBytes` (R122). -/
def xWrite (c : Cfg) (p : PinMap) (addr : Byte) (bls : Bool) (w : BusWord) : List Event :=
  xPulse c p addr (xMap p (hiNibble w.data) ||| xCtl p w.rs bls) ++
    xPulse c p addr (xMap p (loNibble w.data) ||| xCtl p w.rs bls) ++ [.d c.tWrite]

/-! ### Either bus -/

/-- `BusWrite(rs, data)` (R16), as the primitives it performs. -/
def busWrite (c : Cfg) (bls : Bool) (w : BusWord) : List Event :=
  match c.bus with
  | .par _ => pWrite c w
  | .i2c p addr _ => xWrite c p addr bls w

/-- Words one after another. -/
def busWrites (c : Cfg) (bls : Bool) (ws : List BusWord) : List Event :=
  ws.flatMap (busWrite c bls)

/-- An instruction word: `rs = 0` (R18). -/
def instrWord (data : Byte) : BusWord := { rs := false, data := data }

/-- A character word: `rs = 1` (R18). -/
def charWord (data : Byte) : BusWord := { rs := true, data := data }

/-- The word `DDRAMW` (R76): nothing masked, nothing checked. -/
def ddramWord (ic : IC) (a : Byte) : BusWord := instrWord (ic.iDdram ||| a)

end Sys2Proof.Machine
end

