-- ==== Sys2Proof/Machine/Flags.lean ====
section
/-! DEFINITION. The mode registers: the setters (`43_mode_registers.md` R160 to R165), the three
mode words (`30_encoding.md` R73 to R75) and the status `LTR` (R176). -/

namespace Sys2Proof.Machine

/-- One setter: "sets or clears exactly one flag of exactly one register" (R160 to R163). -/
def applySetter (x : Setter) (m : Modes) : Modes :=
  match x with
  | .entryInc => { m with em := { m.em with id := true } }
  | .entryDec => { m with em := { m.em with id := false } }
  | .shiftOn => { m with em := { m.em with s := true } }
  | .shiftOff => { m with em := { m.em with s := false } }
  | .displayOn => { m with dm := { m.dm with d := true } }
  | .displayOff => { m with dm := { m.dm with d := false } }
  | .cursorOn => { m with dm := { m.dm with c := true } }
  | .cursorOff => { m with dm := { m.dm with c := false } }
  | .blinkOn => { m with dm := { m.dm with b := true } }
  | .blinkOff => { m with dm := { m.dm with b := false } }
  | .bus8bit => { m with fm := { m.fm with dl := true } }
  | .bus4bit => { m with fm := { m.fm with dl := false } }
  | .lines2 => { m with fm := { m.fm with n := true } }
  | .lines1 => { m with fm := { m.fm with n := false } }
  | .font5x10 => { m with fm := { m.fm with f := true } }
  | .font5x8 => { m with fm := { m.fm with f := false } }

/-- `ApplySetters(s1 ... sn)`: the left fold (R165). -/
def applySetters (xs : List Setter) (m : Modes) : Modes := xs.foldl (fun m x => applySetter x m) m

/-- The registers of the state, written by setters (R165). -/
def State.applySetters (s : State) (xs : List Setter) : State :=
  { s with modes := Sys2Proof.Machine.applySetters xs s.modes }

/-- A mask when its flag is set (R24). -/
def maskIf (flag : Bool) (mask : Byte) : Byte := if flag then mask else 0

/-- `EMbyte` (R24). -/
def emByte (ic : IC) (em : EntryMode) : Byte := maskIf em.id ic.eInc ||| maskIf em.s ic.eShift

/-- `DMbyte` (R24). -/
def dmByte (ic : IC) (dm : DisplayMode) : Byte :=
  maskIf dm.d ic.dOn ||| maskIf dm.c ic.dCursor ||| maskIf dm.b ic.dBlink

/-- `FMbyte` (R24). -/
def fmByte (ic : IC) (fm : FunctionMode) : Byte :=
  maskIf fm.dl ic.f8bit ||| maskIf fm.n ic.f2line ||| maskIf fm.f ic.f5x10

/-- `ENTRYW` (R73). -/
def entryWord (ic : IC) (em : EntryMode) : BusWord := instrWord (ic.iEntry ||| emByte ic em)

/-- `DISPW` (R74). -/
def dispWord (ic : IC) (dm : DisplayMode) : BusWord := instrWord (ic.iDisplay ||| dmByte ic dm)

/-- `FUNCW` (R75). -/
def funcWord (ic : IC) (fm : FunctionMode) : BusWord := instrWord (ic.iFunction ||| fmByte ic fm)

/-- The flush: entry, display, function, in this order (R167, R169). -/
def modeWords (ic : IC) (m : Modes) : List BusWord :=
  [entryWord ic m.em, dispWord ic m.dm, funcWord ic m.fm]

/-- `LTR = EM.ID xor EM.S` (R176; `90_conflicts.md` C1). -/
def ltr (m : Modes) : Bool := m.em.id != m.em.s

end Sys2Proof.Machine
end

