-- ==== Sys2Proof/Machine/Controller.lean ====
section
/-! DEFINITION. The controller operations (`42_controller_ops.md`) and the backlight operations of
the two buses (`40_bus_parallel.md` R105, `41_bus_i2c.md` R127). An `op…` is the operation as a
sequence; an `exec…` is the instruction. -/

namespace Sys2Proof.Machine

/-- A host operation that changes no register and performs the given primitives (R141, R154). -/
def emitting (events : State → List Event) (s : State) : Run :=
  whenReady s fun s => perform (events s) s

/-- One bus word, by the bus in use (R16). -/
def sendWord (w : State → BusWord) (s : State) : Run :=
  emitting (fun s => busWrite s.cfg s.bls (w s)) s

/-- The two words of `INIT` (R140). -/
def initWords (ic : IC) : List BusWord := [instrWord ic.iInit1, instrWord ic.iInit2]

/-- The primitives of `CLEAR` (R142). -/
def clearEvents (c : Cfg) (bls : Bool) : List Event :=
  busWrite c bls (instrWord c.ic.iClear) ++ [.d c.tClear]

/-- The primitives of `HOME` (R144). -/
def homeEvents (c : Cfg) (bls : Bool) : List Event :=
  busWrite c bls (instrWord c.ic.iHome) ++ [.d c.tClear]

/-- `HOME` (R144). -/
def opHome (s : State) : Run := emitting (fun s => homeEvents s.cfg s.bls) s

/-- `SETCURSOR a` (R146). -/
def opSetcursor (a : Byte) (s : State) : Run := sendWord (fun s => ddramWord s.cfg.ic a) s

/-- `WCHAR b` (R150). -/
def opWchar (b : Byte) (s : State) : Run := sendWord (fun _ => charWord b) s

/-- `BL_ON` and `BL_OFF`. Parallel: the backlight line is active low, and an absent line is a
no-op (R105). I2C: the flag is stored first, then a zero word is sent (R127). -/
def opBacklight (on : Bool) (s : State) : Run :=
  whenReady s fun s =>
    match s.cfg.bus with
    | .par h => perform (if h.bl then [.w .bl (!on)] else []) s
    | .i2c _ _ _ => perform (busWrite s.cfg on (instrWord 0x00)) { s with bls := on }

/-- The releases of `CLOSE` (R107, R128). -/
def closeEvents (c : Cfg) : List Event :=
  match c.bus with
  | .par h => pClose h
  | .i2c _ _ _ => [.xclose]

/-- `CLOSE` (R152): `CLOSED` is set first, whatever the releases come to. -/
def opClose (s : State) : Run :=
  whenReady s fun s => perform (closeEvents s.cfg) { s with closed := true }

/-- `INIT` (R140). -/
def execInit (s : State) : Host.Outcome State Fault Refusal :=
  (emitting (fun s => busWrites s.cfg s.bls (initWords s.cfg.ic)) s).outcome

/-- `CLEAR` (R142): no replay. -/
def execClear (s : State) : Host.Outcome State Fault Refusal :=
  (emitting (fun s => clearEvents s.cfg s.bls) s).outcome

/-- `HOME` (R144). -/
def execHome (s : State) : Host.Outcome State Fault Refusal := (opHome s).outcome

/-- `SETCURSOR a` (R146). -/
def execSetcursor (a : Byte) (s : State) : Host.Outcome State Fault Refusal :=
  (opSetcursor a s).outcome

/-- `SHIFTL` (R148). -/
def execShiftl (s : State) : Host.Outcome State Fault Refusal :=
  (sendWord (fun s => instrWord s.cfg.ic.iShiftl) s).outcome

/-- `SHIFTR` (R149). -/
def execShiftr (s : State) : Host.Outcome State Fault Refusal :=
  (sendWord (fun s => instrWord s.cfg.ic.iShiftr) s).outcome

/-- `WCHAR b` (R150). -/
def execWchar (b : Byte) (s : State) : Host.Outcome State Fault Refusal := (opWchar b s).outcome

/-- `WINSTR b` (R151): no register is updated. -/
def execWinstr (b : Byte) (s : State) : Host.Outcome State Fault Refusal :=
  (sendWord (fun _ => instrWord b) s).outcome

/-- `BL_ON` (R105, R127). -/
def execBlOn (s : State) : Host.Outcome State Fault Refusal := (opBacklight true s).outcome

/-- `BL_OFF` (R105, R127). -/
def execBlOff (s : State) : Host.Outcome State Fault Refusal := (opBacklight false s).outcome

/-- `CLOSE` (R152). -/
def execClose (s : State) : Host.Outcome State Fault Refusal := (opClose s).outcome

end Sys2Proof.Machine
end

