-- ==== Sys2Proof/Machine/ModeOps.lean ====
section
/-! DEFINITION. The mode operations (`43_mode_registers.md`): `APPLY`, `FLUSH`, the six display
toggles, `CLEARR` and the status read `LTR?`; and the ten setters that are setters only. -/

namespace Sys2Proof.Machine

/-- The primitives of a flush (R169). -/
def flushEvents (c : Cfg) (bls : Bool) (m : Modes) : List Event :=
  busWrites c bls (modeWords c.ic m)

/-- Setters first, then the flush (R167). The setters stay applied when the flush fails (R168). -/
def applyAndFlush (xs : List Setter) (s : State) : Run :=
  perform (flushEvents s.cfg s.bls (applySetters xs s.modes)) (s.applySetters xs)

/-- `CLEARR` (R178): clear, wait, replay. -/
def opClearr (s : State) : Run :=
  emitting (fun s => clearEvents s.cfg s.bls ++ flushEvents s.cfg s.bls s.modes) s

/-- A display toggle (R171): its setter, then the display word alone. -/
def toggle (x : Setter) (s : State) : Run :=
  whenReady s fun s =>
    perform (busWrite s.cfg s.bls (dispWord s.cfg.ic (applySetter x s.modes).dm))
      (s.applySetters [x])

/-- A setter row: the effect its rule gives the operand, which "emits nothing, takes no time and cannot
fail" (R160). No step performs it by itself: `decodeCommand` refuses a setter that is no toggle
(R171, R174; log 7). -/
def setterOnly (x : Setter) (s : State) : Run :=
  whenReady s fun s => .done (s.applySetters [x])

/-- `APPLY s1 ... sn` (R167). -/
def execApply (xs : List Setter) (s : State) : Host.Outcome State Fault Refusal :=
  (whenReady s (applyAndFlush xs)).outcome

/-- `FLUSH` (R169): "`APPLY` with no setters". -/
def execFlush (s : State) : Host.Outcome State Fault Refusal :=
  (whenReady s (applyAndFlush [])).outcome

/-- `CLEARR` (R178). -/
def execClearr (s : State) : Host.Outcome State Fault Refusal := (opClearr s).outcome

/-- `DISPLAY_ON` (R171). -/
def execDisplayOn (s : State) : Host.Outcome State Fault Refusal := (toggle .displayOn s).outcome

/-- `DISPLAY_OFF` (R171). -/
def execDisplayOff (s : State) : Host.Outcome State Fault Refusal := (toggle .displayOff s).outcome

/-- `CURSOR_ON` (R171). -/
def execCursorOn (s : State) : Host.Outcome State Fault Refusal := (toggle .cursorOn s).outcome

/-- `CURSOR_OFF` (R171). -/
def execCursorOff (s : State) : Host.Outcome State Fault Refusal := (toggle .cursorOff s).outcome

/-- `BLINK_ON` (R171). -/
def execBlinkOn (s : State) : Host.Outcome State Fault Refusal := (toggle .blinkOn s).outcome

/-- `BLINK_OFF` (R171). -/
def execBlinkOff (s : State) : Host.Outcome State Fault Refusal := (toggle .blinkOff s).outcome

/-- `LTR?` (R176): returns the status; "emits nothing and cannot fail" (R89). It "is allowed at any time
before `CLOSE`" (R176), and R214 names it in (a) only. DEDUCED (log 24): so it is answered before
`RESET` and after a failed `RESET` too, where R214(c) and (d) refuse the host operations. -/
def execLtr (s : State) : Host.Outcome State Fault Refusal :=
  if s.closed then .refused .closed else .next { s with result := .value (ltr s.modes) }

/-- `ENTRY_INC` (R161). -/
def execEntryInc (s : State) : Host.Outcome State Fault Refusal := (setterOnly .entryInc s).outcome

/-- `ENTRY_DEC` (R161). -/
def execEntryDec (s : State) : Host.Outcome State Fault Refusal := (setterOnly .entryDec s).outcome

/-- `SHIFT_ON` (R161). -/
def execShiftOn (s : State) : Host.Outcome State Fault Refusal := (setterOnly .shiftOn s).outcome

/-- `SHIFT_OFF` (R161). -/
def execShiftOff (s : State) : Host.Outcome State Fault Refusal := (setterOnly .shiftOff s).outcome

/-- `BUS_8BIT` (R163): "accepted although the bus is 4-bit". -/
def execBus8bit (s : State) : Host.Outcome State Fault Refusal := (setterOnly .bus8bit s).outcome

/-- `BUS_4BIT` (R163). -/
def execBus4bit (s : State) : Host.Outcome State Fault Refusal := (setterOnly .bus4bit s).outcome

/-- `LINES_2` (R163). -/
def execLines2 (s : State) : Host.Outcome State Fault Refusal := (setterOnly .lines2 s).outcome

/-- `LINES_1` (R163). -/
def execLines1 (s : State) : Host.Outcome State Fault Refusal := (setterOnly .lines1 s).outcome

/-- `FONT_5X10` (R163). -/
def execFont5x10 (s : State) : Host.Outcome State Fault Refusal := (setterOnly .font5x10 s).outcome

/-- `FONT_5X8` (R163). -/
def execFont5x8 (s : State) : Host.Outcome State Fault Refusal := (setterOnly .font5x8 s).outcome

end Sys2Proof.Machine
end

