-- ==== Sys2Proof/Machine/Client.lean ====
section
/-! DEFINITION. The character-display layer, the block's client (`44_display_client.md`). Each
operation issues block operations; a refusal or an error of one of them is the client operation's
own. -/

namespace Sys2Proof.Machine

/-- `(col, row) <- (c, r)` (R190). -/
def State.moveTo (s : State) (c : Int) (r : Nat) : State := { s with col := c, row := r }

/-- `rowOffset(r)` (R198). -/
def rowOffset (cols r : Nat) : Nat :=
  match r with
  | 0 => 0x00
  | 1 => 0x40
  | 2 => if cols = 16 then 0x10 else 0x14
  | _ => if cols = 16 then 0x50 else 0x54

/-- The address of a position, modulo 256 (R196, R197). -/
def ddramAddress (cols c r : Nat) : Byte := BitVec.ofNat 8 (c + rowOffset cols r)

/-- "clamps `row` to the last valid row if out of range" (R196). -/
def clampRow (rows r : Nat) : Nat := if r ≥ rows then rows - 1 else r

/-- `DSETCURSOR(c, r)` (R196): the position is updated before the emission. -/
def opDsetcursor (c r : Nat) (s : State) : Run :=
  opSetcursor (ddramAddress s.cfg.cols c (clampRow s.cfg.rows r))
    (s.moveTo c (clampRow s.cfg.rows r))

/-- The column a line of text starts at (R195, R202). -/
def startColumn (s : State) : Nat := if ltr s.modes then 0 else s.cfg.cols - 1

/-- `DNEWLINE` (R195). -/
def opDnewline (s : State) : Run := opDsetcursor (startColumn s) (s.row + 1) s

/-- `DHOME` (R193). -/
def opDhome (s : State) : Run := opHome (s.moveTo 0 0)

/-- `DCLEAR` (R194). -/
def opDclear (s : State) : Run :=
  (opClearr (s.moveTo 0 0)).andThen fun s =>
    if ltr s.modes then .done s else opDsetcursor (s.cfg.cols - 1) 0 s

/-- The column after a character (R200). -/
def stepColumn (s : State) : State :=
  { s with col := if ltr s.modes then s.col + 1 else s.col - 1 }

/-- "whenever the column runs off either edge (≥ column-count or < 0) a `newline()` is triggered"
(R200). -/
def wrapColumn (s : State) : Run :=
  if s.col ≥ s.cfg.cols ∨ s.col < 0 then opDnewline s else .done s

/-- One byte of a message (R200). -/
def messageByte (b : Byte) (s : State) : Run :=
  if b = 0x0A then opDnewline s
  else (opWchar b s).andThen fun s => wrapColumn (stepColumn s)

/-- `DMESSAGE(text)` (R200): the bytes in order. -/
def opDmessage : List Byte → State → Run
  | [], s => .done s
  | b :: bs, s => (messageByte b s).andThen (opDmessage bs)

/-- `DCLOSE` (R201): the block's `CLOSE`, then the client's own handle. -/
def opDclose (s : State) : Run :=
  (opClose s).andThen fun s => perform (if s.cfg.ownsBlh then [.closeBlh] else []) s

/-- `DHOME` (R193). -/
def execDhome (s : State) : Host.Outcome State Fault Refusal := (whenGeometry s opDhome).outcome

/-- `DCLEAR` (R194). -/
def execDclear (s : State) : Host.Outcome State Fault Refusal := (whenGeometry s opDclear).outcome

/-- `DNEWLINE` (R195). -/
def execDnewline (s : State) : Host.Outcome State Fault Refusal :=
  (whenGeometry s opDnewline).outcome

/-- `DSETCURSOR c r` (R196). -/
def execDsetcursor (c r : Nat) (s : State) : Host.Outcome State Fault Refusal :=
  (whenGeometry s (opDsetcursor c r)).outcome

/-- `DMESSAGE text` (R200). -/
def execDmessage (text : List Byte) (s : State) : Host.Outcome State Fault Refusal :=
  (whenGeometry s (opDmessage text)).outcome

/-- `DCLOSE` (R201). -/
def execDclose (s : State) : Host.Outcome State Fault Refusal := (whenGeometry s opDclose).outcome

end Sys2Proof.Machine
end

