-- ==== Sys2Proof/Machine/Construct.lean ====
section
/-! DEFINITION. `RESET`, the block's construction (`70_reset_and_hazards.md` R230). -/

namespace Sys2Proof.Machine

/-- The register writes at the start of `RESET` (R230). `BLS` is written when `BUS = I2C` only. -/
def State.construct (s : State) (c : Cfg) : State :=
  { s with
    cfg := c
    modes := .zero
    closed := false
    bls := match c.bus with
      | .par _ => s.bls
      | .i2c _ _ blReset => blReset }

/-- `PDirs` on the parallel bus, nothing on I2C (R101, R120). -/
def directionEvents (c : Cfg) : List Event :=
  match c.bus with
  | .par h => pDirs h
  | .i2c _ _ _ => []

/-- The primitives of `RESET` up to the end of `INIT` (R230). -/
def bringUpEvents (c : Cfg) (bls : Bool) : List Event :=
  directionEvents c ++ busWrites c bls (initWords c.ic)

/-- `RESET` of an accepted configuration: registers, directions, `INIT`, `APPLY CTOR_SETTERS`
(R175, R230). -/
def construct (c : Cfg) (s : State) : Run :=
  (perform (bringUpEvents c (s.construct c).bls) (s.construct c)).andThen
    (applyAndFlush c.ctorSetters)

/-- "A `RESET` that ends in `Err(e)` yields no usable block" (R234). -/
def Run.concludeReset : Run → Run
  | .done s => .done { s with life := .ready }
  | .abort s e => .abort { s with life := .failed } e
  | .refused r => .refused r
  | .stuck f => .stuck f

/-- `RESET` (R230, R214). It is refused while `CLOSED = 1`, after a failed `RESET`, and with an
ill-formed configuration; on a block in use it has the effect R230 writes out (log 6). -/
def opReset (c : Cfg) (s : State) : Run :=
  if s.closed then .refused .closed
  else if s.life = .failed then .refused .constructionFailed
  else if c.wf then (construct c s).concludeReset
  else .refused .illFormedConfig

/-- `RESET` (R230). -/
def execReset (c : Cfg) (s : State) : Host.Outcome State Fault Refusal := (opReset c s).outcome

/-- A block on which operations can be issued: one that has none yet is constructed with the
configuration `Cfg.parallel true`, every write answered `ok` (log 11). `withFetchWord` uses it. -/
def State.inUse (s : State) : State :=
  match s.life with
  | .unbuilt =>
    match opReset (Cfg.parallel true) { s with env := [] } with
    | .done t => { t with env := s.env }
    | _ => s
  | .ready => s
  | .failed => s

end Sys2Proof.Machine
end

