-- ==== Sys2Proof/Machine/Words.lean ====
section
/-! DEFINITION. The bus words of R71 as instructions: each is one `BusWrite(rs, data)` (R16, R70,
R102, R123) of the word its row names, under the `IC` of the configuration, as `decodeWord` reads it
(log 9). -/

namespace Sys2Proof.Machine

/-- `INIT1` (R71). -/
def execInit1 (s : State) : Host.Outcome State Fault Refusal :=
  (sendWord (fun s => instrWord s.cfg.ic.iInit1) s).outcome

/-- `INIT2` (R71). -/
def execInit2 (s : State) : Host.Outcome State Fault Refusal :=
  (sendWord (fun s => instrWord s.cfg.ic.iInit2) s).outcome

/-- `CLEARW` (R71): the word without the wait of `CLEAR`. -/
def execClearw (s : State) : Host.Outcome State Fault Refusal :=
  (sendWord (fun s => instrWord s.cfg.ic.iClear) s).outcome

/-- `HOMEW` (R71): the word without the wait of `HOME`. -/
def execHomew (s : State) : Host.Outcome State Fault Refusal :=
  (sendWord (fun s => instrWord s.cfg.ic.iHome) s).outcome

/-- `ENTRYW` with its fields `i`, `s` (R73). The registers are not written (R245). -/
def execEntryw (i sh : Bool) (s : State) : Host.Outcome State Fault Refusal :=
  (sendWord (fun s => entryWord s.cfg.ic { id := i, s := sh }) s).outcome

/-- `DISPW` with its fields `D`, `C`, `B` (R74). -/
def execDispw (d c b : Bool) (s : State) : Host.Outcome State Fault Refusal :=
  (sendWord (fun s => dispWord s.cfg.ic { d := d, c := c, b := b }) s).outcome

/-- `FUNCW` with its fields `L`, `N`, `F` (R75). -/
def execFuncw (l n f : Bool) (s : State) : Host.Outcome State Fault Refusal :=
  (sendWord (fun s => funcWord s.cfg.ic { dl := l, n := n, f := f }) s).outcome

/-- `SHLW` (R71). -/
def execShlw (s : State) : Host.Outcome State Fault Refusal :=
  (sendWord (fun s => instrWord s.cfg.ic.iShiftl) s).outcome

/-- `SHRW` (R71). -/
def execShrw (s : State) : Host.Outcome State Fault Refusal :=
  (sendWord (fun s => instrWord s.cfg.ic.iShiftr) s).outcome

/-- `DDRAMW` with its seven address bits (R71, R76). -/
def execDdramw (a : BitVec 7) (s : State) : Host.Outcome State Fault Refusal :=
  (sendWord (fun s => ddramWord s.cfg.ic (a.setWidth 8)) s).outcome

/-- `CHAR` (R71): `rs = 1`. -/
def execChar (d : Byte) (s : State) : Host.Outcome State Fault Refusal :=
  (sendWord (fun _ => charWord d) s).outcome

/-- `RAW` (R71): `rs = 0`. -/
def execRaw (d : Byte) (s : State) : Host.Outcome State Fault Refusal :=
  (sendWord (fun _ => instrWord d) s).outcome

/-- `ZERO` (R71): the word of the I2C backlight operations, on either bus. -/
def execZero (s : State) : Host.Outcome State Fault Refusal :=
  (sendWord (fun _ => instrWord 0x00) s).outcome

end Sys2Proof.Machine
end

