-- ==== Sys2Proof/Machine/Dispatch.lean ====
section
/-! DEFINITION. The meaning of every instruction: one arm per row of `spec/opcode_table.json`. -/

namespace Sys2Proof.Machine

def exec (i : Instr) (s : State) : Host.Outcome State Fault Refusal :=
  match i with
  | .reset cfg => Sys2Proof.Machine.execReset cfg s
  | .init => Sys2Proof.Machine.execInit s
  | .apply setters => Sys2Proof.Machine.execApply setters s
  | .flush => Sys2Proof.Machine.execFlush s
  | .clear => Sys2Proof.Machine.execClear s
  | .clearr => Sys2Proof.Machine.execClearr s
  | .home => Sys2Proof.Machine.execHome s
  | .setcursor a => Sys2Proof.Machine.execSetcursor a s
  | .shiftl => Sys2Proof.Machine.execShiftl s
  | .shiftr => Sys2Proof.Machine.execShiftr s
  | .wchar b => Sys2Proof.Machine.execWchar b s
  | .winstr b => Sys2Proof.Machine.execWinstr b s
  | .displayOn => Sys2Proof.Machine.execDisplayOn s
  | .displayOff => Sys2Proof.Machine.execDisplayOff s
  | .cursorOn => Sys2Proof.Machine.execCursorOn s
  | .cursorOff => Sys2Proof.Machine.execCursorOff s
  | .blinkOn => Sys2Proof.Machine.execBlinkOn s
  | .blinkOff => Sys2Proof.Machine.execBlinkOff s
  | .blOn => Sys2Proof.Machine.execBlOn s
  | .blOff => Sys2Proof.Machine.execBlOff s
  | .close => Sys2Proof.Machine.execClose s
  | .ltr => Sys2Proof.Machine.execLtr s
  | .entryInc => Sys2Proof.Machine.execEntryInc s
  | .entryDec => Sys2Proof.Machine.execEntryDec s
  | .shiftOn => Sys2Proof.Machine.execShiftOn s
  | .shiftOff => Sys2Proof.Machine.execShiftOff s
  | .bus8bit => Sys2Proof.Machine.execBus8bit s
  | .bus4bit => Sys2Proof.Machine.execBus4bit s
  | .lines2 => Sys2Proof.Machine.execLines2 s
  | .lines1 => Sys2Proof.Machine.execLines1 s
  | .font5x10 => Sys2Proof.Machine.execFont5x10 s
  | .font5x8 => Sys2Proof.Machine.execFont5x8 s
  | .init1 => Sys2Proof.Machine.execInit1 s
  | .init2 => Sys2Proof.Machine.execInit2 s
  | .clearw => Sys2Proof.Machine.execClearw s
  | .homew => Sys2Proof.Machine.execHomew s
  | .entryw fi fs => Sys2Proof.Machine.execEntryw fi fs s
  | .dispw d c b => Sys2Proof.Machine.execDispw d c b s
  | .funcw l n f => Sys2Proof.Machine.execFuncw l n f s
  | .shlw => Sys2Proof.Machine.execShlw s
  | .shrw => Sys2Proof.Machine.execShrw s
  | .ddramw a => Sys2Proof.Machine.execDdramw a s
  | .char d => Sys2Proof.Machine.execChar d s
  | .raw d => Sys2Proof.Machine.execRaw d s
  | .zero => Sys2Proof.Machine.execZero s
  | .dhome => Sys2Proof.Machine.execDhome s
  | .dclear => Sys2Proof.Machine.execDclear s
  | .dnewline => Sys2Proof.Machine.execDnewline s
  | .dsetcursor c r => Sys2Proof.Machine.execDsetcursor c r s
  | .dmessage text => Sys2Proof.Machine.execDmessage text s
  | .dclose => Sys2Proof.Machine.execDclose s

end Sys2Proof.Machine
end

