-- ==== Sys2Proof/Machine/Step.lean ====
section
/-! DEFINITION. One step: take the next item from the port and perform it (`10_state.md` R22: a host
operation is one big step). -/

namespace Sys2Proof.Machine

/-- One step. With nothing at the port the block is idle and stays as it is (R22, R233); an item that
is no instruction is refused by name. -/
def step (s : State) : Host.Outcome State Fault Refusal :=
  match fetch s with
  | .idle => .next s
  | .bad e => .refused (.notAnInstruction e)
  | .got i t => exec i t

/-- A block in use (constructed first if there is none, log 11) with a bus word at the front of its
port. -/
def State.withFetchWord (s : State) (nbits w : Nat) : State := s.inUse.offerWord nbits w

end Sys2Proof.Machine
end

