-- ==== Sys2Proof/Machine/Receiver.lean ====
section
/-! DEFINITION. The reference receiver (`70_reset_and_hazards.md` R246), the source's "logical
enable-pulse decoder": an observer of the trace, outside the block, used to state what the far side
receives. It is a function of the trace and no part of `State`. -/

namespace Sys2Proof.Machine

/-- What the receiver sees on its pins: `(en, rs, d[4..7])` of R246. -/
structure Pins where
  en : Level
  rs : Level
  d4 : Level
  d5 : Level
  d6 : Level
  d7 : Level
  deriving DecidableEq, Repr

/-- Pins of which nothing is known (R34, R36). -/
def Pins.unknown : Pins :=
  { en := .unknown, rs := .unknown, d4 := .unknown, d5 := .unknown, d6 := .unknown, d7 := .unknown }

/-- The pins with the level of one line replaced; the backlight is no pin of the receiver. -/
def Pins.put (p : Pins) (l : Line) (v : Level) : Pins :=
  match l with
  | .rs => { p with rs := v }
  | .en => { p with en := v }
  | .d4 => { p with d4 := v }
  | .d5 => { p with d5 := v }
  | .d6 => { p with d6 := v }
  | .d7 => { p with d7 := v }
  | .bl => p

/-- The pins behind an expander that shows the byte `v`: "the bits of `XP` at the pin-map
positions" (R246). -/
def Pins.ofByte (m : PinMap) (v : Byte) : Pins :=
  { en := .ofBit (v.getLsbD m.en), rs := .ofBit (v.getLsbD m.rs)
    d4 := .ofBit (v.getLsbD m.d4), d5 := .ofBit (v.getLsbD m.d5)
    d6 := .ofBit (v.getLsbD m.d6), d7 := .ofBit (v.getLsbD m.d7) }

/-- The pins after an event that was performed: a write to a line of the parallel bus, or a byte to
the expander. -/
def Pins.after (bus : BusCfg) (p : Pins) (ev : Event) : Pins :=
  match bus, ev with
  | .par _, .w l v => p.put l (.ofBit v)
  | .i2c m _ _, .x _ v => .ofByte m v
  | _, _ => p

/-- "EN was 1, becomes 0" (R246). A change from `unknown` is no edge (R106(c)). -/
def fallingEdge (old new : Pins) : Bool := old.en == .high && new.en == .low

/-- A known level as a bit. -/
def Level.bit? : Level → Option Bool
  | .unknown => none
  | .low => some false
  | .high => some true

/-- Four bits as a nibble, `d4` the least significant (R55). -/
def nibbleOf (d4 d5 d6 d7 : Bool) : Nibble :=
  BitVec.ofBool d7 ++ BitVec.ofBool d6 ++ BitVec.ofBool d5 ++ BitVec.ofBool d4

/-- The capture `(rs, nibble)` at an edge: the levels held while EN was high (log 12). `none` when
one of them is unknown. -/
def Pins.capture (p : Pins) : Option (Bool × Nibble) :=
  match p.rs.bit?, p.d4.bit?, p.d5.bit?, p.d6.bit?, p.d7.bit? with
  | some rs, some a, some b, some c, some d => some (rs, nibbleOf a b c d)
  | _, _, _, _, _ => none

/-- "each pair with equal `rs` yields one received word `(rs, high*16 + low)`" (R246). -/
def pairWord (hi lo : Option (Bool × Nibble)) : List BusWord :=
  match hi, lo with
  | some (r, h), some (q, l) => if r = q then [{ rs := r, data := h ++ l }] else []
  | _, _ => []

/-- The receiver: its pins, the capture waiting for its partner (`half`), what it has received, oldest
first, and what is taken to have become of the failed events still to come (`landed`, next first). -/
structure Receiver where
  landed : List Bool
  pins : Pins
  half : Option (Option (Bool × Nibble))
  captures : List (Option (Bool × Nibble))
  words : List BusWord
  deriving DecidableEq, Repr

/-- Before any event: nothing is known of the pins (R34, R36). -/
def Receiver.start (landed : List Bool) : Receiver :=
  { landed := landed, pins := .unknown, half := none, captures := [], words := [] }

/-- Take a capture: the first of a pair waits, the second completes it. -/
def Receiver.take (r : Receiver) (c : Option (Bool × Nibble)) : Receiver :=
  match r.half with
  | none => { r with half := some c, captures := r.captures ++ [c] }
  | some hi =>
    { r with half := none, captures := r.captures ++ [c], words := r.words ++ pairWord hi c }

/-- One event that was performed on the pins. -/
def Receiver.see (bus : BusCfg) (r : Receiver) (ev : Event) : Receiver :=
  if fallingEdge r.pins (r.pins.after bus ev) then
    { r.take r.pins.capture with pins := r.pins.after bus ev }
  else { r with pins := r.pins.after bus ev }

/-- One event of the trace. A failed one is taken as performed or as not performed, as `landed` says:
"Both readings are possible because the source does not say what a failed line write did to the pin"
(R108; R126). Past the end of `landed` it is taken as not performed. -/
def Receiver.step (bus : BusCfg) (r : Receiver) (e : Entry) : Receiver :=
  match e.err with
  | none => r.see bus e.ev
  | some _ =>
    let rest := { r with landed := r.landed.tail }
    if r.landed.headD false then rest.see bus e.ev else rest

/-- What the receiver has made of a trace, for one reading of the failed events. A statement about a
trace with failures is one for every `landed`. -/
def receive (bus : BusCfg) (landed : List Bool) (t : List Entry) : Receiver :=
  t.foldl (Receiver.step bus) (.start landed)

end Sys2Proof.Machine
end

