-- ==== Sys2Proof/Safety.lean ====
section
/-! DEFINITION. The terms claims are stated in: when an operation can run, what the wire shows as a
function of the trace (`00_scope.md` R12), what a word looks like on the wire, and the invariants. -/

namespace Sys2Proof.Machine

/-! ### When an operation runs -/

/-- A block that accepts host operations: constructed and not closed (R214). -/
abbrev State.Ready (s : State) : Prop := s.life = .ready ∧ s.closed = false

/-- Every answer the environment has listed is `ok`; past the list it is `ok` anyhow (log 3). -/
abbrev State.AllOk (s : State) : Prop := ∀ a ∈ s.env, a = TStatus.ok

/-- The environment answers every primitive, with `ok` or an error (no hang, R66). -/
abbrev State.Answers (s : State) : Prop := TStatus.never ∉ s.env

/-- The client's geometry is one it accepts (R191). -/
abbrev State.GeometryOk (s : State) : Prop := geometryCheck s.cfg = true

/-- The three delay constants the source gives (R6, R9). -/
abbrev StandardDelays (c : Cfg) : Prop :=
  c.tPulse = 1 ∧ c.tWrite = 37 ∧ c.tClear = 1520

/-! ### The wire -/

/-- Events none of which failed. -/
def okEntries (es : List Event) : List Entry := es.map fun e => { ev := e, err := none }

/-- A word on the wire, event by event: R102 and R104 on the parallel bus, R79 and R123 on I2C. -/
def wireWord (c : Cfg) (bls rs : Bool) (data : Byte) : List Event :=
  match c.bus with
  | .par _ =>
    [.w .rs rs,
     .w .d4 (data.getLsbD 4), .w .d5 (data.getLsbD 5), .w .d6 (data.getLsbD 6),
     .w .d7 (data.getLsbD 7),
     .d c.tPulse, .w .en false, .d c.tPulse, .w .en true, .d c.tPulse, .w .en false,
     .w .d4 (data.getLsbD 0), .w .d5 (data.getLsbD 1), .w .d6 (data.getLsbD 2),
     .w .d7 (data.getLsbD 3),
     .d c.tPulse, .w .en false, .d c.tPulse, .w .en true, .d c.tPulse, .w .en false,
     .d c.tWrite]
  | .i2c p a _ =>
    [.d c.tPulse, .x a (xByte p (hiNibble data) rs bls false),
     .d c.tPulse, .x a (xByte p (hiNibble data) rs bls true),
     .d c.tPulse, .x a (xByte p (hiNibble data) rs bls false),
     .d c.tPulse, .x a (xByte p (loNibble data) rs bls false),
     .d c.tPulse, .x a (xByte p (loNibble data) rs bls true),
     .d c.tPulse, .x a (xByte p (loNibble data) rs bls false),
     .d c.tWrite]

/-- The three mode words on the wire: entry, display, function (R73 to R75, R167). -/
def wireModes (c : Cfg) (bls : Bool) (m : Modes) : List Event :=
  wireWord c bls false (c.ic.iEntry ||| emByte c.ic m.em) ++
    wireWord c bls false (c.ic.iDisplay ||| dmByte c.ic m.dm) ++
    wireWord c bls false (c.ic.iFunction ||| fmByte c.ic m.fm)

/-- The direction set-up on the wire (R101, R231): nothing on I2C (R232). -/
def wireDirections (c : Cfg) : List Event :=
  match c.bus with
  | .par h =>
    [.dir .rs, .dir .en, .dir .d4, .dir .d5, .dir .d6, .dir .d7] ++ if h.bl then [.dir .bl] else []
  | .i2c _ _ _ => []

/-- The releases of `CLOSE` on the wire (R107, R128). -/
def wireClose (c : Cfg) : List Event :=
  match c.bus with
  | .par h =>
    [.close .rs, .close .en, .close .d4, .close .d5, .close .d6, .close .d7] ++
      if h.bl then [.close .bl] else []
  | .i2c _ _ _ => [.xclose]

/-- How many outcomes the environment gives for one word: 15 line writes or 6 byte writes (R57,
R212). -/
def wordWrites : BusCfg → Nat
  | .par _ => 15
  | .i2c _ _ _ => 6

/-- The wire shows the word just sent: R81 on the parallel bus, the sixth byte on I2C (R36). -/
def State.ShowsWord (t : State) (bls rs : Bool) (data : Byte) : Prop :=
  match t.cfg.bus with
  | .par _ =>
    t.lines.rs.level = Level.ofBit rs ∧ t.lines.en.level = .low ∧
    t.lines.d4.level = Level.ofBit (data.getLsbD 0) ∧ t.lines.d5.level = Level.ofBit (data.getLsbD 1) ∧
    t.lines.d6.level = Level.ofBit (data.getLsbD 2) ∧ t.lines.d7.level = Level.ofBit (data.getLsbD 3)
  | .i2c p _ _ => t.xp = .known (xByte p (loNibble data) rs bls false)

/-- The one word each of these instructions sends, under a given `IC` (R71, R154). -/
def oneWord (ic : IC) : Instr → Option (Bool × Byte)
  | .setcursor a => some (false, ic.iDdram ||| a)
  | .shiftl => some (false, ic.iShiftl)
  | .shiftr => some (false, ic.iShiftr)
  | .wchar b => some (true, b)
  | .winstr b => some (false, b)
  | .init1 => some (false, ic.iInit1)
  | .init2 => some (false, ic.iInit2)
  | .clearw => some (false, ic.iClear)
  | .homew => some (false, ic.iHome)
  | .entryw i s => some (false, ic.iEntry ||| emByte ic ⟨i, s⟩)
  | .dispw d c b => some (false, ic.iDisplay ||| dmByte ic ⟨d, c, b⟩)
  | .funcw l n f => some (false, ic.iFunction ||| fmByte ic ⟨l, n, f⟩)
  | .shlw => some (false, ic.iShiftl)
  | .shrw => some (false, ic.iShiftr)
  | .ddramw a => some (false, ic.iDdram ||| a.setWidth 8)
  | .char d => some (true, d)
  | .raw d => some (false, d)
  | .zero => some (false, 0x00)
  | _ => none

/-- What an operation that completes leaves alone: everything but the wire, the trace, the
environment's answers and the result, less the registers a statement names itself. -/
structure State.KeepsConfig (s t : State) : Prop where
  life : t.life = s.life
  cfg : t.cfg = s.cfg
  port : t.port = s.port
  draws : t.draws = s.draws

/-- The registers of the block and its client, unchanged. -/
structure State.KeepsRegisters (s t : State) : Prop where
  modes : t.modes = s.modes
  bls : t.bls = s.bls
  closed : t.closed = s.closed
  col : t.col = s.col
  row : t.row = s.row

/-- The lines a word drives keep their direction and their closed flag, and the backlight line is
unchanged (R52). -/
def State.KeepsLines (s t : State) : Prop :=
  (∀ l, (t.lines.get l).dir = (s.lines.get l).dir ∧ (t.lines.get l).closed = (s.lines.get l).closed) ∧
  t.lines.bl = s.lines.bl

/-- The wire after some words, but for what the last of them shows: the space of the other bus is
untouched (R50, R52). -/
def State.OtherSpaceKept (s t : State) : Prop :=
  t.xc = s.xc ∧
  match s.cfg.bus with
  | .par _ => t.xp = s.xp ∧ s.KeepsLines t
  | .i2c _ _ _ => t.lines = s.lines

/-- Two states an operation cannot tell apart: they agree on construction, configuration, registers,
cursor and the environment's answers (R20, R28, R39, R190). -/
structure State.SameInputs (s u : State) : Prop where
  life : s.life = u.life
  cfg : s.cfg = u.cfg
  modes : s.modes = u.modes
  bls : s.bls = u.bls
  closed : s.closed = u.closed
  env : s.env = u.env
  col : s.col = u.col
  row : s.row = u.row

/-- The setter a display toggle applies (R171). -/
def toggleSetter : Instr → Option Setter
  | .displayOn => some .displayOn
  | .displayOff => some .displayOff
  | .cursorOn => some .cursorOn
  | .cursorOff => some .cursorOff
  | .blinkOn => some .blinkOn
  | .blinkOff => some .blinkOff
  | _ => none

/-- The setter of the ten rows that are setters only, no commands (R90, R171). -/
def setterRow : Instr → Option Setter
  | .entryInc => some .entryInc
  | .entryDec => some .entryDec
  | .shiftOn => some .shiftOn
  | .shiftOff => some .shiftOff
  | .bus8bit => some .bus8bit
  | .bus4bit => some .bus4bit
  | .lines2 => some .lines2
  | .lines1 => some .lines1
  | .font5x10 => some .font5x10
  | .font5x8 => some .font5x8
  | _ => none

/-- The flag a setter writes, numbered as R174 lists them: `(ID, S, D, C, B, DL, N, F)`. -/
def setterFlag : Setter → Nat
  | .entryInc => 0
  | .entryDec => 0
  | .shiftOn => 1
  | .shiftOff => 1
  | .displayOn => 2
  | .displayOff => 2
  | .cursorOn => 3
  | .cursorOff => 3
  | .blinkOn => 4
  | .blinkOff => 4
  | .bus8bit => 5
  | .bus4bit => 5
  | .lines2 => 6
  | .lines1 => 6
  | .font5x10 => 7
  | .font5x8 => 7

/-- The flags in the order R174 lists them. -/
def Modes.flag (m : Modes) : Nat → Bool
  | 0 => m.em.id
  | 1 => m.em.s
  | 2 => m.dm.d
  | 3 => m.dm.c
  | 4 => m.dm.b
  | 5 => m.fm.dl
  | 6 => m.fm.n
  | _ => m.fm.f

/-- The "off" setter of every flag (R90, R164(d)). -/
def offSetters : List Setter :=
  [.entryDec, .shiftOff, .displayOff, .cursorOff, .blinkOff, .bus4bit, .lines1, .font5x8]

/-- The client's rows of the table. -/
def isClient : Instr → Bool
  | .dhome => true
  | .dclear => true
  | .dnewline => true
  | .dsetcursor _ _ => true
  | .dmessage _ => true
  | .dclose => true
  | _ => false

/-- The rows that write a flag of a mode register (R28): `RESET`, `APPLY`, toggles and setters. -/
def writesModes : Instr → Bool
  | .reset _ => true
  | .apply _ => true
  | i => (toggleSetter i).isSome || (setterRow i).isSome

/-! ### The client's walk over a text (R200) -/

/-- Where a new line starts: row, column and the DDRAM address (R195, R196). -/
def newlineTo (c : Cfg) (m : Modes) (row : Nat) : Nat × Nat :=
  (if ltr m then 0 else c.cols - 1, if row + 1 ≥ c.rows then c.rows - 1 else row + 1)

/-- The words of a text from a position, each with its register select, and the position after it
(R200): the newline byte is not sent, and a column past either edge brings a new line. -/
def messageWalk (c : Cfg) (m : Modes) :
    List Byte → Int → Nat → List (Bool × Byte) × Int × Nat
  | [], col, row => ([], col, row)
  | b :: bs, col, row =>
    let line := newlineTo c m row
    let jump := (false, c.ic.iDdram ||| BitVec.ofNat 8 (line.1 + rowOffset c.cols line.2))
    let col' := if ltr m then col + 1 else col - 1
    if b = 0x0A then
      let r := messageWalk c m bs line.1 line.2
      (jump :: r.1, r.2)
    else if col' ≥ c.cols ∨ col' < 0 then
      let r := messageWalk c m bs line.1 line.2
      ((true, b) :: jump :: r.1, r.2)
    else
      let r := messageWalk c m bs col' row
      ((true, b) :: r.1, r.2)

/-- The characters of received words: those with register select on (R18). -/
def characters (ws : List BusWord) : List Byte := (ws.filter fun w => w.rs).map fun w => w.data

/-! ### The wire as a function of the trace (R12) -/

/-- `LV[l]` after an event (R34). -/
def levelStep (l : Line) (v : Level) (e : Entry) : Level :=
  match e.ev with
  | .w k b => if k = l then (if e.err.isNone then Level.ofBit b else .unknown) else v
  | _ => v

/-- `LV[l]` of a trace. -/
def levelOf (l : Line) (t : List Entry) : Level := t.foldl (levelStep l) .unknown

/-- `LD[l]` after an event; `none` where it is unspecified (R33). -/
def dirStep (l : Line) (v : Option LineDir) (e : Entry) : Option LineDir :=
  match e.ev with
  | .dir k => if k = l then (if e.err.isNone then some .out else none) else v
  | _ => v

/-- `LD[l]` of a trace. -/
def dirOf (l : Line) (t : List Entry) : Option LineDir := t.foldl (dirStep l) (some .unset)

/-- `LC[l]` after an event; `none` where it is unspecified (R35). -/
def closedStep (l : Line) (v : Option Bool) (e : Entry) : Option Bool :=
  match e.ev with
  | .close k => if k = l then (if e.err.isNone then some true else none) else v
  | _ => v

/-- `LC[l]` of a trace. -/
def closedOf (l : Line) (t : List Entry) : Option Bool := t.foldl (closedStep l) (some false)

/-- `XP` after an event (R36). -/
def imageStep (v : Image) (e : Entry) : Image :=
  match e.ev with
  | .x _ b => if e.err.isNone then .known b else .unknown
  | _ => v

/-- `XP` of a trace. -/
def imageOf (t : List Entry) : Image := t.foldl imageStep .unknown

/-- `XC` after an event (R36). -/
def releasedStep (v : Bool) (e : Entry) : Bool :=
  match e.ev with
  | .xclose => e.err.isNone || v
  | _ => v

/-- `XC` of a trace. -/
def releasedOf (t : List Entry) : Bool := t.foldl releasedStep false

/-- "the states of rules R33 to R36 ... are functions of it" (R12): the output-side state is what
the trace says, wherever the rules say anything. -/
def WireFollowsTrace (s : State) : Prop :=
  (∀ l, (s.lines.get l).level = levelOf l s.trace ∧
    (∀ v, dirOf l s.trace = some v → (s.lines.get l).dir = v) ∧
    (∀ v, closedOf l s.trace = some v → (s.lines.get l).closed = v)) ∧
  s.xp = imageOf s.trace ∧ s.xc = releasedOf s.trace

/-! ### Invariants -/

/-- Only a constructed block is closed (R214), and a constructed block's configuration is one that
`RESET` accepts (R230). -/
def LifeCoherent (s : State) : Prop :=
  (s.closed = true → s.life = .ready) ∧ (s.life = .ready → s.cfg.wf = true)

/-- No event of the trace failed. -/
def FailureFree (t : List Entry) : Prop := ∀ e ∈ t, e.err = none

/-- As long as nothing has failed, EN is low between the operations of a constructed block, on the
line or in the expander's byte (R106(a), R125), and no EN line is high before construction. -/
def EnableRests (s : State) : Prop :=
  FailureFree s.trace →
    s.lines.en.level ≠ .high ∧
    (s.life = .ready →
      match s.cfg.bus with
      | .par _ => s.lines.en.level = .low
      | .i2c p _ _ => ∃ v, s.xp = .known v ∧ v.getLsbD p.en = false)

/-- What the receiver has made of the trace so far, for one reading of the failed events (R108). The
whole trace is read under the bus and pin map of the configuration in force (R246). That this holds
also of events before a second `RESET` that changed them, so that they are read anew, is the model's
choice (DESIGN CHOICE, log 26): R246 is silent there. -/
def State.received (s : State) (landed : List Bool) : Receiver := receive s.cfg.bus landed s.trace

/-- The receiver expects a high nibble and EN is not high: it is low, or no EN has been driven yet
(R37, R106, R246). -/
def ReceiverAtRest (landed : List Bool) (s : State) : Prop :=
  (s.received landed).half = none ∧ (s.received landed).pins.en ≠ .high

/-- How many of a word's two nibbles have been latched after `n` of its writes were performed, and
whether EN is high then: on the parallel bus EN falls with writes 8 and 15 and rises with 7 and 14
(R102, R108), on I2C with bytes 3 and 6, and 2 and 5 (R123, R126). -/
def latched : BusCfg → Nat → Nat × Bool
  | .par _, n => (if n < 8 then 0 else if n < 15 then 1 else 2, n == 7 || n == 14)
  | .i2c _ _ _, n => (if n < 3 then 0 else if n < 6 then 1 else 2, n == 2 || n == 5)

/-! ### Time (R9, R248) -/

/-- The delay an event stands for, in microseconds. -/
def Event.micros : Event → Nat
  | .d n => n
  | _ => 0

/-- A lower bound on the time a trace takes: the sum of its delays. -/
def minMicros (t : List Entry) : Nat := (t.map fun e => e.ev.micros).sum

end Sys2Proof.Machine
end

