-- ==== Sys2Proof/Certificates/Slice0/Obligations.lean ====
section
/-! DEFINITION. The statements for the provers. Each docstring names the rules it formalises. -/

open Sys2Proof Sys2Proof.Machine

/-! ### Decoding, encoding and fetching -/

/-- A command decodes to an instruction exactly when it is that instruction's encoding and the
instruction is no setter-only row: no operand is dropped and no other command is accepted (R82, R89,
R90). A setter that is no toggle, by itself, is refused by name (R171). That the client operations and
the bus words are commands by their names too is the model's choice (log 25). -/
def Obligations.CommandDecodesIffEncoded : Prop :=
  (∀ (c : Command) (i : Instr),
    decodeCommand c = .ok i ↔ c = encodeCommand i ∧ setterRow i = none) ∧
  ∀ (i : Instr) (x : Setter), setterRow i = some x →
    decodeCommand (encodeCommand i) = .error (.setterAlone i.mnemonic)

/-- Under the default `IC`, which the table uses (R84; log 10), all 512 bus words decode, from their
two bytes, to an instruction whose pattern in R71 is that very word: no bit is dropped; and no two
rows of R71 other than `RAW` accept one word (R70, R71). The two bytes and their order, and that a
word has its own row before `RAW`, are the model's choice (log 9): R70 gives nine bits and no
bytes. -/
def Obligations.BusWordBitsKept : Prop :=
  (∀ w : WordBits,
    decodeItem IC.default (.word (wordBytes w)) = .ok (decodeWord IC.default w) ∧
      encodeWord (decodeWord IC.default w) = some w) ∧
  (wordRows IC.default).Pairwise fun a b => a.mask &&& b.mask &&& (a.pat ^^^ b.pat) ≠ 0

/-- Every row of R71 but `RAW` decodes to itself, with every field at every value, under the default
`IC`, which the table uses (R84). A `RAW` byte decodes to the row that has its bits, or to itself:
that a word has its own row before `RAW` is the model's choice (log 9), since by R84 the table is no
decoder. -/
def Obligations.EncodedWordDecodesToItself : Prop :=
  ∀ (i : Instr) (w : WordBits), encodeWord i = some w →
    (∃ d, i = .raw d ∧ encodeWord (decodeWord IC.default w) = some w) ∨ decodeWord IC.default w = i

/-- Running the instruction decoded from a bus word sends that word, whatever the `IC` in use: it does
what `BusWrite(rs, data)` of the nine bits does (R16, R70). The premise is the check of R8, which
every constructed block's `IC` has passed (R214(b); `StepKeepsLifeCoherent`). -/
def Obligations.DecodedWordSendsItsBits : Prop :=
  ∀ (w : WordBits) (s : State), icCheck s.cfg.ic = true →
    exec (decodeWord s.cfg.ic w) s =
      if w.getLsbD 8 then exec (.char (wordData w)) s else exec (.raw (wordData w)) s

/-- Words written out from the patterns of R71 decode to the rows they stand for. The digits are those
of the default `IC` (log 10); that a word such as `0 00110011`, which fits `RAW` too, decodes to its
own row is the model's choice (log 9). -/
def Obligations.SpecWordsDecode : Prop :=
  decodeWord IC.default 0b000110011 = .init1 ∧ decodeWord IC.default 0b000110010 = .init2 ∧
  decodeWord IC.default 0b000000110 = .entryw true false ∧
  decodeWord IC.default 0b000001011 = .dispw false true true ∧
  decodeWord IC.default 0b000111000 = .funcw true true false ∧
  decodeWord IC.default 0b011000000 = .ddramw 0x40 ∧
  decodeWord IC.default 0b110101011 = .char 0xAB ∧ decodeWord IC.default 0b001010101 = .raw 0x55

/-- When the item at the port decodes to `i`, a step takes the item and is `exec i` (R16, R22). -/
def Obligations.StepRunsTheDecodedInstruction : Prop :=
  ∀ (s : State) (item : PortItem) (rest : List PortItem) (i : Instr),
    s.port = item :: rest → decodeItem s.cfg.ic item = .ok i →
    step s = exec i { s with port := rest }

/-- With nothing at the port a step leaves the block as it is; an item that is no instruction is
refused by name. Both are the model's choice: the idle step is log 1, where R22 and R233 say only that
the block is idle between operations, and the refusal has no rule of the spec (log 9). -/
def Obligations.StepIdleOrRejects : Prop :=
  (∀ s : State, s.port = [] → step s = .next s) ∧
  ∀ (s : State) (item : PortItem) (rest : List PortItem) (e : DecodeError),
    s.port = item :: rest → decodeItem s.cfg.ic item = .error e →
      step s = .refused (.notAnInstruction e)

/-- A step after `withFetchWord` runs the instruction of that very bus word on a block in use. How
the word comes to the port is the model's choice (log 9, log 11). -/
def Obligations.FetchedWordIsRun : Prop :=
  ∀ (s : State) (w : WordBits),
    step (s.withFetchWord 16 w.toNat) = exec (decodeWord s.inUse.cfg.ic w) s.inUse

/-! ### Reset -/

/-- The values of R40's column "when RESET begins": flags 0, `CLOSED` 0, directions unset, levels
unknown, nothing closed, `XP` unknown, `XC` 0, an empty trace. The values of `life`, `cfg`, `BLS`,
`port`, `env` and the client's cursor are not stated here (log 2). -/
def Obligations.PowerOnValues : Prop :=
  State.reset.modes = ⟨⟨false, false⟩, ⟨false, false, false⟩, ⟨false, false, false⟩⟩ ∧
  ltr State.reset.modes = false ∧ State.reset.closed = false ∧
  (∀ l, State.reset.lines.get l = ⟨.unset, .unknown, false⟩) ∧
  State.reset.xp = .unknown ∧ State.reset.xc = false ∧ State.reset.trace = []

/-- `RESET` of an accepted configuration, when no write fails: the registers, the trace
(directions, `INIT`, the three mode words) and the result (R175, R230). On a block already in use it
is the model's reading (log 6). -/
def Obligations.ResetConstructsTheBlock : Prop :=
  ∀ (c : Cfg) (s : State),
    s.closed = false → s.life ≠ .failed → c.wf = true → s.AllOk →
    ∃ t, exec (.reset c) s = .next t ∧ t.result = .ok ∧ t.life = .ready ∧ t.cfg = c ∧
      t.closed = false ∧ t.modes = applySetters c.ctorSetters Modes.zero ∧
      t.bls = (match c.bus with | .par _ => s.bls | .i2c _ _ b => b) ∧
      t.trace = s.trace ++ okEntries (wireDirections c ++
        wireWord c t.bls false c.ic.iInit1 ++ wireWord c t.bls false c.ic.iInit2 ++
        wireModes c t.bls t.modes) ∧
      t.col = s.col ∧ t.row = s.row ∧ t.port = s.port ∧ t.draws = s.draws

/-- The wire after a `RESET` with result `Ok` (R33, R34, R36, R40, R235): every present line an
output, RS and EN low, the low nibble of the last word on D4 to D7, the backlight level untouched;
on I2C the last byte written, and the lines untouched. On a block already constructed a `RESET` is the
model's choice (log 6). -/
def Obligations.ResetLeavesTheWire : Prop :=
  ∀ (c : Cfg) (s t : State),
    s.AllOk → exec (.reset c) s = .next t →
    match c.bus with
    | .par h =>
      (∀ l, l ≠ .bl → (t.lines.get l).dir = .out) ∧
      t.lines.bl.dir = (if h.bl then .out else s.lines.bl.dir) ∧
      t.lines.bl.level = s.lines.bl.level ∧
      (∀ l, (t.lines.get l).closed = (s.lines.get l).closed) ∧
      t.ShowsWord t.bls false (c.ic.iFunction ||| fmByte c.ic t.modes.fm) ∧
      t.xp = s.xp ∧ t.xc = s.xc
    | .i2c _ _ _ =>
      t.ShowsWord t.bls false (c.ic.iFunction ||| fmByte c.ic t.modes.fm) ∧
      t.lines = s.lines ∧ t.xc = s.xc

/-- When `RESET` is refused, and with which reason (R214(a) to (c), D8, D17, D30). -/
def Obligations.ResetRefusals : Prop :=
  ∀ (c : Cfg) (s : State),
    (s.closed = true → exec (.reset c) s = .refused .closed) ∧
    (s.closed = false → s.life = .failed → exec (.reset c) s = .refused .constructionFailed) ∧
    (s.closed = false → s.life ≠ .failed → c.wf = false →
      exec (.reset c) s = .refused .illFormedConfig)

/-- "A `RESET` that ends in `Err(e)` yields no usable block: every later operation is refused"
(R234, R214(c)). `LTR?`, which is "a status read, not an operation" (R89), is not among them: that it
is answered there is the model's reading of R176 (log 24). The refused instructions include the
thirteen bus words and the ten setter-only rows, which R16 and R89 do not count as host operations;
that they are gated as R214 gates those is the model's choice (logs 9, 7). So are the reason given to
a `RESET` that has an ill-formed configuration too (log 23), and, where the failed `RESET` is a second
one, that it ran at all (log 6). -/
def Obligations.FailedResetIsFinal : Prop :=
  ∀ (c : Cfg) (s t : State) (e : TErr),
    exec (.reset c) s = .next t → t.result = .err e →
    t.life = .failed ∧
      ∀ i, isClient i = false → i ≠ .ltr → exec i t = .refused .constructionFailed

/-! ### Words -/

/-- Every instruction that sends one word sends exactly that word, and the wire shows it: the
eighteen of `oneWord`, on either bus (R16, R102, R123, R146, R148 to R151, R71). -/
def Obligations.OneWordInstructionsComplete : Prop :=
  ∀ (i : Instr) (rs : Bool) (data : Byte) (s : State),
    oneWord s.cfg.ic i = some (rs, data) → s.Ready → s.AllOk →
    ∃ t, exec i s = .next t ∧ t.result = .ok ∧
      t.trace = s.trace ++ okEntries (wireWord s.cfg s.bls rs data) ∧
      t.ShowsWord s.bls rs data ∧ s.KeepsConfig t ∧ s.KeepsRegisters t ∧ s.OtherSpaceKept t

/-- `INIT` sends `INIT1`, then `INIT2` (R140). -/
def Obligations.InitCompletes : Prop :=
  ∀ s : State, s.Ready → s.AllOk →
    ∃ t, exec .init s = .next t ∧ t.result = .ok ∧
      t.trace = s.trace ++ okEntries (wireWord s.cfg s.bls false s.cfg.ic.iInit1 ++
        wireWord s.cfg s.bls false s.cfg.ic.iInit2) ∧
      t.ShowsWord s.bls false s.cfg.ic.iInit2 ∧
      s.KeepsConfig t ∧ s.KeepsRegisters t ∧ s.OtherSpaceKept t

/-- `CLEAR` and `HOME`: one word, then the long delay, and no register changes (R142, R144). -/
def Obligations.ClearAndHomeComplete : Prop :=
  ∀ s : State, s.Ready → s.AllOk →
    (∃ t, exec .clear s = .next t ∧ t.result = .ok ∧
      t.trace = s.trace ++
        okEntries (wireWord s.cfg s.bls false s.cfg.ic.iClear ++ [.d s.cfg.tClear]) ∧
      t.ShowsWord s.bls false s.cfg.ic.iClear ∧
      s.KeepsConfig t ∧ s.KeepsRegisters t ∧ s.OtherSpaceKept t) ∧
    ∃ t, exec .home s = .next t ∧ t.result = .ok ∧
      t.trace = s.trace ++
        okEntries (wireWord s.cfg s.bls false s.cfg.ic.iHome ++ [.d s.cfg.tClear]) ∧
      t.ShowsWord s.bls false s.cfg.ic.iHome ∧
      s.KeepsConfig t ∧ s.KeepsRegisters t ∧ s.OtherSpaceKept t

/-! ### Mode operations -/

/-- `APPLY` writes the flags its setters name and sends the three mode words of the new registers;
`FLUSH` writes no flag (R165, R167, R169). -/
def Obligations.ApplyAndFlushComplete : Prop :=
  ∀ (xs : List Setter) (s : State), s.Ready → s.AllOk →
    (∃ t, exec (.apply xs) s = .next t ∧ t.result = .ok ∧
      t.modes = xs.foldl (fun m x => applySetter x m) s.modes ∧
      t.trace = s.trace ++ okEntries (wireModes s.cfg s.bls t.modes) ∧
      t.ShowsWord s.bls false (s.cfg.ic.iFunction ||| fmByte s.cfg.ic t.modes.fm) ∧
      s.KeepsConfig t ∧ t.bls = s.bls ∧ t.closed = s.closed ∧ t.col = s.col ∧ t.row = s.row ∧
      s.OtherSpaceKept t) ∧
    ∃ t, exec .flush s = .next t ∧ t.result = .ok ∧
      t.trace = s.trace ++ okEntries (wireModes s.cfg s.bls s.modes) ∧
      t.ShowsWord s.bls false (s.cfg.ic.iFunction ||| fmByte s.cfg.ic s.modes.fm) ∧
      s.KeepsConfig t ∧ s.KeepsRegisters t ∧ s.OtherSpaceKept t

/-- The six display toggles: one flag of `DM`, then the display word alone (R171). -/
def Obligations.TogglesComplete : Prop :=
  ∀ (i : Instr) (x : Setter) (s : State), toggleSetter i = some x → s.Ready → s.AllOk →
    ∃ t, exec i s = .next t ∧ t.result = .ok ∧ t.modes = applySetter x s.modes ∧
      t.modes.em = s.modes.em ∧ t.modes.fm = s.modes.fm ∧
      t.trace = s.trace ++
        okEntries (wireWord s.cfg s.bls false (s.cfg.ic.iDisplay ||| dmByte s.cfg.ic t.modes.dm)) ∧
      t.ShowsWord s.bls false (s.cfg.ic.iDisplay ||| dmByte s.cfg.ic t.modes.dm) ∧
      s.KeepsConfig t ∧ t.bls = s.bls ∧ t.closed = s.closed ∧ t.col = s.col ∧ t.row = s.row ∧
      s.OtherSpaceKept t

/-- The ten setter rows: one flag, and nothing is emitted (R160, R161, R163). This is the effect of the
operand; no step performs it by itself, because a setter that is no toggle is no command (R171;
log 7, `CommandDecodesIffEncoded`, `OnlyModeOperationsWriteModes`). -/
def Obligations.SettersComplete : Prop :=
  ∀ (i : Instr) (x : Setter) (s : State), setterRow i = some x → s.Ready →
    exec i s = .next { s with modes := applySetter x s.modes, result := .ok }

/-- What each of the sixteen setters does to the eight flags (R161 to R163). -/
def Obligations.SetterFlags : Prop :=
  ∀ m : Modes,
    applySetter .entryInc m = { m with em := { m.em with id := true } } ∧
    applySetter .entryDec m = { m with em := { m.em with id := false } } ∧
    applySetter .shiftOn m = { m with em := { m.em with s := true } } ∧
    applySetter .shiftOff m = { m with em := { m.em with s := false } } ∧
    applySetter .displayOn m = { m with dm := { m.dm with d := true } } ∧
    applySetter .displayOff m = { m with dm := { m.dm with d := false } } ∧
    applySetter .cursorOn m = { m with dm := { m.dm with c := true } } ∧
    applySetter .cursorOff m = { m with dm := { m.dm with c := false } } ∧
    applySetter .blinkOn m = { m with dm := { m.dm with b := true } } ∧
    applySetter .blinkOff m = { m with dm := { m.dm with b := false } } ∧
    applySetter .bus8bit m = { m with fm := { m.fm with dl := true } } ∧
    applySetter .bus4bit m = { m with fm := { m.fm with dl := false } } ∧
    applySetter .lines2 m = { m with fm := { m.fm with n := true } } ∧
    applySetter .lines1 m = { m with fm := { m.fm with n := false } } ∧
    applySetter .font5x10 m = { m with fm := { m.fm with f := true } } ∧
    applySetter .font5x8 m = { m with fm := { m.fm with f := false } }

/-- The algebra of setters (R164): (a) idempotent; (b) of two on one flag the later decides; (c) on
different flags they commute; (d) each "off" setter restores its flag's reset value, and the eight of
them the reset state; (e) all values are reached from reset. -/
def Obligations.SetterAlgebra : Prop :=
  (∀ (x : Setter) (m : Modes), applySetter x (applySetter x m) = applySetter x m) ∧
  (∀ (x y : Setter) (m : Modes), setterFlag x = setterFlag y →
    applySetter y (applySetter x m) = applySetter y m) ∧
  (∀ (x y : Setter) (m : Modes), setterFlag x ≠ setterFlag y →
    applySetter y (applySetter x m) = applySetter x (applySetter y m)) ∧
  (∀ (x : Setter) (m : Modes), x ∈ offSetters →
    (applySetter x m).flag (setterFlag x) = Modes.zero.flag (setterFlag x)) ∧
  (∀ m : Modes, applySetters offSetters m = Modes.zero) ∧
  ∀ m : Modes, ∃ xs, applySetters xs Modes.zero = m

/-- `CLEARR` "is exactly `CLEAR` followed, when that is `Ok`, by `FLUSH`", whatever fails (R178). -/
def Obligations.ClearrIsClearThenFlush : Prop :=
  ∀ s : State,
    exec .clearr s =
      match exec .clear s with
      | .next t => if t.result = .ok then exec .flush t else .next t
      | o => o

/-- `CLEARR` when nothing fails: the clear word, the long delay, the replay of the stored registers,
which do not change (R177, R178). -/
def Obligations.ClearrCompletes : Prop :=
  ∀ s : State, s.Ready → s.AllOk →
    ∃ t, exec .clearr s = .next t ∧ t.result = .ok ∧
      t.trace = s.trace ++ okEntries (wireWord s.cfg s.bls false s.cfg.ic.iClear ++
        [.d s.cfg.tClear] ++ wireModes s.cfg s.bls s.modes) ∧
      t.ShowsWord s.bls false (s.cfg.ic.iFunction ||| fmByte s.cfg.ic s.modes.fm) ∧
      s.KeepsConfig t ∧ s.KeepsRegisters t ∧ s.OtherSpaceKept t

/-- `LTR?` returns `EM.ID xor EM.S`, changes nothing else and emits nothing, at any time before `CLOSE`
(R176): also before `RESET` and after a failed one (log 24). -/
def Obligations.LtrStatusCompletes : Prop :=
  ∀ s : State, s.closed = false →
    exec .ltr s = .next { s with result := .value (xor s.modes.em.id s.modes.em.s) }

/-! ### Backlight and close -/

/-- `BL_ON` and `BL_OFF` on the parallel bus: active low, one write, no delay; with no backlight line
no event at all (R105). -/
def Obligations.BacklightParallel : Prop :=
  ∀ (s : State) (h : Handles) (on : Bool), s.Ready → s.AllOk → s.cfg.bus = .par h →
    ∃ t, exec (if on then .blOn else .blOff) s = .next t ∧ t.result = .ok ∧
      t.trace = s.trace ++ okEntries (if h.bl then [.w .bl (!on)] else []) ∧
      t.lines.bl.level = (if h.bl then Level.ofBit (!on) else s.lines.bl.level) ∧
      (∀ l, l ≠ .bl → t.lines.get l = s.lines.get l) ∧
      t.lines.bl.dir = s.lines.bl.dir ∧ t.lines.bl.closed = s.lines.bl.closed ∧
      s.KeepsConfig t ∧ s.KeepsRegisters t ∧ t.xp = s.xp ∧ t.xc = s.xc

/-- `BL_ON` and `BL_OFF` on I2C: the flag is stored, then a zero word carries it (R29, R127). -/
def Obligations.BacklightExpander : Prop :=
  ∀ (s : State) (p : PinMap) (a : Byte) (r on : Bool),
    s.Ready → s.AllOk → s.cfg.bus = .i2c p a r →
    ∃ t, exec (if on then .blOn else .blOff) s = .next t ∧ t.result = .ok ∧ t.bls = on ∧
      t.trace = s.trace ++ okEntries (wireWord s.cfg on false 0x00) ∧
      t.xp = .known (xByte p 0x0 false on false) ∧
      s.KeepsConfig t ∧ t.modes = s.modes ∧ t.closed = s.closed ∧ t.col = s.col ∧ t.row = s.row ∧
      t.lines = s.lines ∧ t.xc = s.xc

/-- `CLOSE` when nothing fails: `CLOSED` is set, every present line is closed (or the I2C bus is
released), and no level changes (R107, R128, R152). -/
def Obligations.CloseCompletes : Prop :=
  ∀ s : State, s.Ready → s.AllOk →
    ∃ t, exec .close s = .next t ∧ t.result = .ok ∧ t.closed = true ∧
      t.trace = s.trace ++ okEntries (wireClose s.cfg) ∧
      (match s.cfg.bus with
        | .par h =>
          (∀ l, l ≠ .bl → (t.lines.get l).closed = true) ∧
          t.lines.bl.closed = (h.bl || s.lines.bl.closed) ∧
          (∀ l, (t.lines.get l).level = (s.lines.get l).level ∧
            (t.lines.get l).dir = (s.lines.get l).dir) ∧ t.xc = s.xc
        | .i2c _ _ _ => t.xc = true ∧ t.lines = s.lines) ∧
      s.KeepsConfig t ∧ t.modes = s.modes ∧ t.bls = s.bls ∧ t.col = s.col ∧ t.row = s.row ∧
      t.xp = s.xp

/-! ### The client -/

/-- `DSETCURSOR` (R196, R197, R198): the row is clamped, the column is not, the position is stored
and the address word sent. -/
def Obligations.ClientSetCursorCompletes : Prop :=
  ∀ (c r : Nat) (s : State), s.Ready → s.AllOk → s.GeometryOk →
    ∃ t, exec (.dsetcursor c r) s = .next t ∧ t.result = .ok ∧
      t.col = c ∧ t.row = (if r ≥ s.cfg.rows then s.cfg.rows - 1 else r) ∧
      t.trace = s.trace ++ okEntries (wireWord s.cfg s.bls false
        (s.cfg.ic.iDdram ||| BitVec.ofNat 8 (c + rowOffset s.cfg.cols t.row))) ∧
      s.KeepsConfig t ∧ t.modes = s.modes ∧ t.bls = s.bls ∧ t.closed = s.closed ∧
      s.OtherSpaceKept t

/-- `DNEWLINE` (R195): to the start of the next row, clamped, on the side `LTR` names. -/
def Obligations.ClientNewlineCompletes : Prop :=
  ∀ s : State, s.Ready → s.AllOk → s.GeometryOk →
    ∃ t, exec .dnewline s = .next t ∧ t.result = .ok ∧
      t.col = (newlineTo s.cfg s.modes s.row).1 ∧ t.row = (newlineTo s.cfg s.modes s.row).2 ∧
      t.trace = s.trace ++ okEntries (wireWord s.cfg s.bls false (s.cfg.ic.iDdram |||
        BitVec.ofNat 8 ((newlineTo s.cfg s.modes s.row).1 + rowOffset s.cfg.cols t.row))) ∧
      s.KeepsConfig t ∧ t.modes = s.modes ∧ t.bls = s.bls ∧ t.closed = s.closed ∧
      s.OtherSpaceKept t

/-- `DHOME` (R193): position `(0,0)` and the block's `HOME`, in either direction of writing. -/
def Obligations.ClientHomeCompletes : Prop :=
  ∀ s : State, s.Ready → s.AllOk → s.GeometryOk →
    ∃ t, exec .dhome s = .next t ∧ t.result = .ok ∧ t.col = 0 ∧ t.row = 0 ∧
      t.trace = s.trace ++
        okEntries (wireWord s.cfg s.bls false s.cfg.ic.iHome ++ [.d s.cfg.tClear]) ∧
      s.KeepsConfig t ∧ t.modes = s.modes ∧ t.bls = s.bls ∧ t.closed = s.closed ∧
      s.OtherSpaceKept t

/-- `DCLEAR` (R194): the full clear, and in right-to-left mode the last column of row 0. -/
def Obligations.ClientClearCompletes : Prop :=
  ∀ s : State, s.Ready → s.AllOk → s.GeometryOk →
    ∃ t, exec .dclear s = .next t ∧ t.result = .ok ∧
      t.col = (if ltr s.modes then 0 else (s.cfg.cols : Int) - 1) ∧ t.row = 0 ∧
      t.trace = s.trace ++ okEntries (wireWord s.cfg s.bls false s.cfg.ic.iClear ++
        [.d s.cfg.tClear] ++ wireModes s.cfg s.bls s.modes ++
        if ltr s.modes then [] else
          wireWord s.cfg s.bls false (s.cfg.ic.iDdram ||| BitVec.ofNat 8 (s.cfg.cols - 1))) ∧
      s.KeepsConfig t ∧ t.modes = s.modes ∧ t.bls = s.bls ∧ t.closed = s.closed ∧
      s.OtherSpaceKept t

/-- `DMESSAGE` (R200): the words and the final position are those of the walk over the text. -/
def Obligations.ClientMessageCompletes : Prop :=
  ∀ (text : List Byte) (s : State), s.Ready → s.AllOk → s.GeometryOk →
    ∃ t, exec (.dmessage text) s = .next t ∧ t.result = .ok ∧
      t.trace = s.trace ++ okEntries ((messageWalk s.cfg s.modes text s.col s.row).1.flatMap
        fun w => wireWord s.cfg s.bls w.1 w.2) ∧
      t.col = (messageWalk s.cfg s.modes text s.col s.row).2.1 ∧
      t.row = (messageWalk s.cfg s.modes text s.col s.row).2.2 ∧
      s.KeepsConfig t ∧ t.modes = s.modes ∧ t.bls = s.bls ∧ t.closed = s.closed ∧
      s.OtherSpaceKept t

/-- `DCLOSE` (R201): the block's `CLOSE`, then the client's own handle when it has one. What the `CLOSE`
does to the closed flags and `XC` is there (R107, R128), and no level, direction or expander bit
changes (R152). -/
def Obligations.ClientCloseCompletes : Prop :=
  ∀ s : State, s.Ready → s.AllOk → s.GeometryOk →
    ∃ t, exec .dclose s = .next t ∧ t.result = .ok ∧ t.closed = true ∧
      t.trace = s.trace ++
        okEntries (wireClose s.cfg ++ if s.cfg.ownsBlh then [.closeBlh] else []) ∧
      (match s.cfg.bus with
        | .par h =>
          (∀ l, l ≠ .bl → (t.lines.get l).closed = true) ∧
          t.lines.bl.closed = (h.bl || s.lines.bl.closed) ∧
          (∀ l, (t.lines.get l).level = (s.lines.get l).level ∧
            (t.lines.get l).dir = (s.lines.get l).dir) ∧ t.xc = s.xc
        | .i2c _ _ _ => t.xc = true ∧ t.lines = s.lines) ∧
      s.KeepsConfig t ∧ t.modes = s.modes ∧ t.bls = s.bls ∧ t.col = s.col ∧ t.row = s.row ∧
      t.xp = s.xp

/-- The row-offset table (R198): 16 columns, and any other number; every row above 3 is row 3. -/
def Obligations.RowOffsetTable : Prop :=
  (rowOffset 16 0, rowOffset 16 1, rowOffset 16 2, rowOffset 16 3) = (0, 64, 16, 80) ∧
  (∀ c, c ≠ 16 →
    (rowOffset c 0, rowOffset c 1, rowOffset c 2, rowOffset c 3) = (0, 64, 20, 84)) ∧
  ∀ c r, 3 < r → rowOffset c r = rowOffset c 3

/-! ### Failures and refusals -/

/-- Of every instruction: the trace gains events that did not fail; or it gains such events and then
exactly one that did, and the result is that event's error, passed on unchanged (R14, R15, R211,
R217, R218). -/
def Obligations.FailureEndsTheOperation : Prop :=
  ∀ (i : Instr) (s t : State), exec i s = .next t →
    (∃ es, t.trace = s.trace ++ okEntries es ∧ ∀ e, t.result ≠ .err e) ∨
    ∃ es ev e, ev.fallible = true ∧ t.result = .err e ∧
      t.trace = s.trace ++ okEntries es ++ [{ ev := ev, err := some e }]

/-- A word whose `k`-th write fails, counting from 0: the trace is the word's up to that write, the
answers after it are unused, and the result is its error (R108, R126, R211, R212). -/
def Obligations.WordFailsAtItsWrite : Prop :=
  ∀ (i : Instr) (rs : Bool) (data : Byte) (s : State) (k : Nat) (e : TErr) (rest : List TStatus),
    oneWord s.cfg.ic i = some (rs, data) → s.Ready →
    s.env = List.replicate k .ok ++ .err e :: rest → k < wordWrites s.cfg.bus →
    ∃ t pre ev, exec i s = .next t ∧ t.result = .err e ∧ t.env = rest ∧
      t.trace = s.trace ++ okEntries pre ++ [{ ev := ev, err := some e }] ∧
      pre ++ [ev] <+: wireWord s.cfg s.bls rs data ∧
      (pre.filter Event.fallible).length = k ∧ ev.fallible = true ∧ s.KeepsRegisters t

/-- A primitive that is never answered hangs the machine (R66, R226), whatever the instruction: if,
with every outcome `ok`, the instruction performs more than `k` fallible primitives, then it hangs
when the outcomes are `k` times `ok` and then never. The first clause says it of a word's writes, 15
or 6 of them (R57). -/
def Obligations.UnansweredWriteHangs : Prop :=
  (∀ (i : Instr) (rs : Bool) (data : Byte) (s : State) (k : Nat) (rest : List TStatus),
    oneWord s.cfg.ic i = some (rs, data) → s.Ready →
    s.env = List.replicate k .ok ++ .never :: rest → k < wordWrites s.cfg.bus →
    exec i s = .fault .hang) ∧
  ∀ (i : Instr) (s t : State) (new : List Entry) (k : Nat) (rest : List TStatus),
    exec i { s with env := [] } = .next t → t.trace = s.trace ++ new →
    k < (new.filter fun e => e.ev.fallible).length →
    exec i { s with env := List.replicate k .ok ++ .never :: rest } = .fault .hang

/-- An environment that answers everything never hangs the machine (R66). -/
def Obligations.AnsweredOperationsDoNotHang : Prop :=
  ∀ (i : Instr) (s : State), s.Answers → ∀ f, exec i s ≠ .fault f

/-- "flags already mutated remain mutated": whatever fails, the flags (R168, R171) and the stored
backlight state (R127) hold their new values. -/
def Obligations.NoRollback : Prop :=
  ∀ s t : State,
    (∀ xs, exec (.apply xs) s = .next t → t.modes = applySetters xs s.modes) ∧
    (∀ i x, toggleSetter i = some x → exec i s = .next t → t.modes = applySetter x s.modes) ∧
    (∀ p a r, s.cfg.bus = .i2c p a r →
      (exec .blOn s = .next t → t.bls = true) ∧ (exec .blOff s = .next t → t.bls = false))

/-- A parallel `CLOSE` whose `k`-th release fails: the lines before it are closed, the lines after it
are as they were, `CLOSED` is 1 (R107, R152, R215). What became of the failing line is left open
(R35). -/
def Obligations.PartialClose : Prop :=
  ∀ (s : State) (h : Handles) (pre post : List Line) (l : Line) (e : TErr) (rest : List TStatus),
    s.Ready → s.cfg.bus = .par h → presentLines h = pre ++ l :: post →
    s.env = List.replicate pre.length .ok ++ .err e :: rest →
    ∃ t, exec .close s = .next t ∧ t.result = .err e ∧ t.closed = true ∧
      t.trace = s.trace ++ okEntries (pre.map .close) ++ [{ ev := .close l, err := some e }] ∧
      (∀ k ∈ pre, (t.lines.get k).closed = true) ∧
      ∀ k ∈ post, t.lines.get k = s.lines.get k

/-- The refusals of the block's operations other than `RESET`, in the order they are checked
(R141, R214(a), (c), (d); the order is log 23). `LTR?` is no operation (R89): R214 refuses it by (a)
alone (log 24). The thirteen bus words and the ten setter-only rows are no host operations by R16 and
R89 either; that they are refused in the same cases is the model's choice (logs 9, 7). -/
def Obligations.BlockRefusals : Prop :=
  ∀ (i : Instr) (s : State), isClient i = false → (∀ c, i ≠ .reset c) →
    (s.closed = true → exec i s = .refused .closed) ∧
    (i ≠ .ltr → s.closed = false → s.life = .unbuilt → exec i s = .refused .notConstructed) ∧
    (i ≠ .ltr → s.closed = false → s.life = .failed → exec i s = .refused .constructionFailed)

/-- The client refuses a geometry that is not one to four rows of at least one column (R191, U14). On a
block that cannot be used the block's refusal is the client's own (R192, R214), but an empty text
"does nothing" (R200(e)). That a refused operation leaves the cursor too is the
model's reading of "changes no state" (log 14). -/
def Obligations.ClientRefusals : Prop :=
  ∀ (i : Instr) (s : State), isClient i = true →
    (s.cfg.cols = 0 ∨ s.cfg.rows = 0 ∨ 4 < s.cfg.rows → exec i s = .refused .badGeometry) ∧
    (s.GeometryOk → i = .dmessage [] → exec i s = .next { s with result := .ok }) ∧
    (s.GeometryOk → i ≠ .dmessage [] →
      (s.closed = true → exec i s = .refused .closed) ∧
      (s.closed = false → s.life = .unbuilt → exec i s = .refused .notConstructed) ∧
      (s.closed = false → s.life = .failed → exec i s = .refused .constructionFailed))

/-- `CLOSED` (R30, R152): 0 at reset; 1 after a `CLOSE`, issued by the host or by `DCLOSE` (R201),
whatever its releases came to; no operation clears it; and while it is 1 every operation of the block
and `LTR?` are refused, a second `CLOSE` among them (R214(a)). That the thirteen bus words and the ten
setter-only rows are refused too is the model's choice (logs 9, 7), and so is the reason given to a
`RESET` that has an ill-formed configuration as well (log 23). -/
def Obligations.NothingAfterClose : Prop :=
  State.reset.closed = false ∧
  (∀ s t : State, exec .close s = .next t ∨ exec .dclose s = .next t → t.closed = true) ∧
  (∀ (i : Instr) (s t : State), exec i s = .next t → s.closed = true → t.closed = true) ∧
  ∀ (i : Instr) (s : State), s.closed = true → isClient i = false → exec i s = .refused .closed

/-! ### What no other instruction changes -/

/-- Only `RESET`, `APPLY`, the toggles and the setters write a mode register: no raw word does, and
no clear does (R28, R245, `90_conflicts.md` C3). Of the machine's steps only those that run a `RESET`,
an `APPLY` or a toggle do, because a setter by itself is no command (R174); and the entry and function
flags "change only through `APPLY`" (R171) and `RESET` (R174). -/
def Obligations.OnlyModeOperationsWriteModes : Prop :=
  (∀ (i : Instr) (s t : State), exec i s = .next t → writesModes i = false → t.modes = s.modes) ∧
  ∀ s t : State, step s = .next t → t.modes ≠ s.modes →
    ∃ item rest i, s.port = item :: rest ∧ decodeItem s.cfg.ic item = .ok i ∧
      ((∃ c, i = .reset c) ∨ (∃ xs, i = .apply xs) ∨
        (toggleSetter i).isSome ∧ t.modes.em = s.modes.em ∧ t.modes.fm = s.modes.fm)

/-- The stored backlight state changes by `RESET`, `BL_ON` and `BL_OFF` alone, and by the last two on
I2C only (R29). -/
def Obligations.OnlyBacklightOperationsWriteBls : Prop :=
  ∀ (i : Instr) (s t : State), exec i s = .next t → (∀ c, i ≠ .reset c) →
    (i ≠ .blOn ∧ i ≠ .blOff ∨ ∃ h, s.cfg.bus = .par h) → t.bls = s.bls

/-- The logical cursor is "owned exclusively by the display layer" (R190): no operation of the block
moves it; and `DCLOSE` does not. -/
def Obligations.OnlyClientMovesCursor : Prop :=
  ∀ (i : Instr) (s t : State), exec i s = .next t → isClient i = false ∨ i = .dclose →
    t.col = s.col ∧ t.row = s.row

/-- The configuration is "never reassigned" and construction is `RESET`'s alone (R6, R230); no
operation clears `CLOSED` and only `CLOSE` (and through it `DCLOSE`) sets it (R30); nothing is put
on the port or taken from it by an operation. -/
def Obligations.ConfigurationAndClosedKept : Prop :=
  ∀ (i : Instr) (s t : State), exec i s = .next t →
    t.port = s.port ∧
    ((∀ c, i ≠ .reset c) → t.cfg = s.cfg ∧ t.life = s.life) ∧
    (i ≠ .close → i ≠ .dclose → t.closed = s.closed)

/-- "No operation after `RESET` changes a direction" (R33); only the backlight operations write the
backlight line's level (R52); only closing changes a closed flag (R35). -/
def Obligations.LinesKept : Prop :=
  ∀ (i : Instr) (s t : State), exec i s = .next t →
    ((∀ c, i ≠ .reset c) → ∀ l, (t.lines.get l).dir = (s.lines.get l).dir) ∧
    (i ≠ .blOn → i ≠ .blOff → t.lines.bl.level = s.lines.bl.level) ∧
    (i ≠ .close → i ≠ .dclose → ∀ l, (t.lines.get l).closed = (s.lines.get l).closed)

/-- The block writes one space only: on the parallel bus the expander's image and the I2C bus are
untouched, on I2C the lines are (R50, R52). `RESET` is left out because it may choose the bus. -/
def Obligations.OneOutputSpace : Prop :=
  ∀ (i : Instr) (s t : State), exec i s = .next t → (∀ c, i ≠ .reset c) →
    match s.cfg.bus with
    | .par _ => t.xp = s.xp ∧ t.xc = s.xc
    | .i2c _ _ _ => t.lines = s.lines

/-- What an operation does depends on nothing it has sent before: not on the trace, the levels, the
expander's image or the last result. From two states that differ in those alone it ends the same
way, adds the same events and leaves the same registers (R23(b), R32, R34, R36). -/
def Obligations.WireIsNeverRead : Prop :=
  ∀ (i : Instr) (s u : State), s.SameInputs u →
    (∀ t, exec i s = .next t → ∃ v new, exec i u = .next v ∧ t.SameInputs v ∧ v.result = t.result ∧
      t.trace = s.trace ++ new ∧ v.trace = u.trace ++ new) ∧
    (∀ r, exec i s = .refused r → exec i u = .refused r) ∧
    ∀ f, exec i s = .fault f → exec i u = .fault f

/-- Every byte an operation writes to the expander, `RESET` among them and whatever fails, goes to the
configured address and has the backlight bit equal to `BLS` (R125), and the RW bit 0 (R80). R88 lets
the unused RW position coincide with another signal's; on a map that does so only the RW clause is
not stated. -/
def Obligations.ExpanderBytesCarryBacklight : Prop :=
  ∀ (i : Instr) (s t : State) (p : PinMap) (a : Byte) (r : Bool),
    exec i s = .next t → t.cfg.bus = .i2c p a r → t.cfg.wf = true →
    ∀ new, t.trace = s.trace ++ new →
      ∀ a' v err, { ev := .x a' v, err := err } ∈ new →
        a' = a ∧ v.getLsbD p.bl = t.bls ∧
        (p.rw ∉ [p.rs, p.en, p.d4, p.d5, p.d6, p.d7, p.bl] → v.getLsbD p.rw = false)

/-! ### Invariants -/

/-- Every step keeps the output-side state equal to what the trace says of it: levels, directions,
closed flags, the expander image, the release of the bus (R12, R33 to R36). That a failed release
leaves `XC` as it was is the model's reading of R36, which speaks of a successful one (log 17). -/
def Obligations.StepKeepsWireFollowingTrace : Prop :=
  ∀ s t : State, WireFollowsTrace s → step s = .next t → WireFollowsTrace t

/-- Every step keeps: only a constructed block is closed, and a constructed block has a configuration
`RESET` accepts (R214, R230). -/
def Obligations.StepKeepsLifeCoherent : Prop :=
  ∀ s t : State, LifeCoherent s → step s = .next t → LifeCoherent t

/-- Every step keeps: as long as nothing has failed, EN is low between the operations of a constructed
block, on the line (R106(a)) or in the expander's byte (R125), and no EN line is high before that. -/
def Obligations.StepKeepsEnableAtRest : Prop :=
  ∀ s t : State, LifeCoherent s → EnableRests s → step s = .next t → EnableRests t

/-- The state after reset meets the three invariants. -/
def Obligations.ResetMeetsInvariants : Prop :=
  WireFollowsTrace State.reset ∧ LifeCoherent State.reset ∧ EnableRests State.reset

/-! ### What the far side receives -/

/-- The reference receiver, at rest before, captures exactly the two nibbles of the word an
instruction sends, high then low, and is at rest again: on the parallel bus and under every
well-formed pin map (R54, R55, R77, R246), whichever way earlier failed writes are read (R108). What
it received before is read under the configuration in force, also where a second `RESET` changed the
bus: the model's choice (log 26). -/
def Obligations.ReceiverGetsTheWord : Prop :=
  ∀ (i : Instr) (rs : Bool) (data : Byte) (s : State) (landed : List Bool),
    oneWord s.cfg.ic i = some (rs, data) → s.Ready → s.AllOk → s.cfg.wf = true →
    ReceiverAtRest landed s →
    ∃ t, exec i s = .next t ∧ ReceiverAtRest landed t ∧
      (t.received landed).captures = (s.received landed).captures ++
        [some (rs, hiNibble data), some (rs, loNibble data)] ∧
      (t.received landed).words = (s.received landed).words ++ [⟨rs, data⟩]

/-- What the receiver has latched when the write after the `k`-th of a word fails (R108, R126): with
`n` writes performed, `k` or `k + 1` as the failed one is read, the nibbles `latched` counts; EN is
left high after the writes that raise it; and a latched high nibble waits for its partner. The next
word is then split across the wrong boundary, and with EN left high its first write of EN low is a
latching edge (R244, R106). On the parallel bus that edge latches the new word's high nibble; which
levels it latches on I2C is not stated here (log 12). A trace in which a second `RESET` changed the
bus is read under the newest configuration: the model's choice (log 26). -/
def Obligations.ReceiverOfAFailedWord : Prop :=
  (∀ (i : Instr) (rs : Bool) (data : Byte) (s : State) (k : Nat) (e : TErr) (rest : List TStatus)
      (landed : List Bool),
    oneWord s.cfg.ic i = some (rs, data) → s.Ready → s.cfg.wf = true → ReceiverAtRest landed s →
    s.env = List.replicate k .ok ++ .err e :: rest → k < wordWrites s.cfg.bus →
    ∃ t n, exec i s = .next t ∧ t.result = .err e ∧
      n = (if (s.received landed).landed.headD false then k + 1 else k) ∧
      (t.received landed).captures = (s.received landed).captures ++
        [some (rs, hiNibble data), some (rs, loNibble data)].take (latched s.cfg.bus n).1 ∧
      ((t.received landed).pins.en = .high ↔ (latched s.cfg.bus n).2 = true) ∧
      (t.received landed).half =
        if (latched s.cfg.bus n).1 = 1 then some (some (rs, hiNibble data)) else none) ∧
  ∀ (i : Instr) (rs : Bool) (data : Byte) (s : State) (landed : List Bool),
    oneWord s.cfg.ic i = some (rs, data) → s.Ready → s.AllOk → s.cfg.wf = true →
    ∃ t, exec i s = .next t ∧ (t.received landed).pins.en = .low ∧
      (∀ half, (s.received landed).half = some half → (s.received landed).pins.en ≠ .high →
        (t.received landed).half = some (some (rs, loNibble data)) ∧
        (t.received landed).words =
          (s.received landed).words ++ pairWord half (some (rs, hiNibble data))) ∧
      ((s.received landed).pins.en = .high →
        ∃ c, (t.received landed).captures = (s.received landed).captures ++
            [c, some (rs, hiNibble data), some (rs, loNibble data)] ∧
          ∀ h, s.cfg.bus = .par h → c = some (rs, hiNibble data))

/-- What the receiver gets from a `RESET` of a block that has never been constructed: the two
initialisation words first, then the three mode words (R230, R246; the last three rest on the
spec's own decision D6). The premises admit a constructed block with an empty trace, whose `RESET` is
the model's choice (log 6). -/
def Obligations.ReceiverGetsTheBringUp : Prop :=
  ∀ (c : Cfg) (s : State) (landed : List Bool), s.closed = false → s.life ≠ .failed →
    s.trace = [] → s.AllOk → c.wf = true →
    ∃ t, exec (.reset c) s = .next t ∧ ReceiverAtRest landed t ∧
      (t.received landed).words =
        [⟨false, c.ic.iInit1⟩, ⟨false, c.ic.iInit2⟩, ⟨false, c.ic.iEntry ||| emByte c.ic t.modes.em⟩,
         ⟨false, c.ic.iDisplay ||| dmByte c.ic t.modes.dm⟩,
         ⟨false, c.ic.iFunction ||| fmByte c.ic t.modes.fm⟩]

/-- The characters the receiver gets from a message are its bytes in order, without the newline
bytes, whatever wraps on the way (R200). A trace in which a second `RESET` changed the bus is read
under the newest configuration: the model's choice (log 26). -/
def Obligations.ReceiverGetsTheMessage : Prop :=
  ∀ (text : List Byte) (s : State) (landed : List Bool), s.Ready → s.AllOk → s.GeometryOk →
    s.cfg.wf = true → ReceiverAtRest landed s →
    ∃ t, exec (.dmessage text) s = .next t ∧ ReceiverAtRest landed t ∧
      characters (t.received landed).words =
        characters (s.received landed).words ++ text.filter (fun b => b ≠ 0x0A)

/-! ### Time -/

/-- The least time each operation takes when nothing fails, in microseconds (R9, R248). That a `RESET`
of a block already constructed completes at all, which the last clause includes, is the model's choice
(log 6): by R230 `RESET` happens once. -/
def Obligations.LeastDurations : Prop :=
  (∀ (i : Instr) (s : State), s.Ready → s.AllOk → StandardDelays s.cfg →
    (((oneWord s.cfg.ic i).isSome ∨ (toggleSetter i).isSome) →
      ∃ t, exec i s = .next t ∧ minMicros t.trace = minMicros s.trace + 43) ∧
    (i = .init → ∃ t, exec i s = .next t ∧ minMicros t.trace = minMicros s.trace + 86) ∧
    ((∃ xs, i = .apply xs) ∨ i = .flush →
      ∃ t, exec i s = .next t ∧ minMicros t.trace = minMicros s.trace + 129) ∧
    (i = .clear ∨ i = .home →
      ∃ t, exec i s = .next t ∧ minMicros t.trace = minMicros s.trace + 1563) ∧
    (i = .clearr → ∃ t, exec i s = .next t ∧ minMicros t.trace = minMicros s.trace + 1692) ∧
    ((i = .blOn ∨ i = .blOff) → (∃ p a r, s.cfg.bus = .i2c p a r) →
      ∃ t, exec i s = .next t ∧ minMicros t.trace = minMicros s.trace + 43) ∧
    ((i = .blOn ∨ i = .blOff) → (∃ h, s.cfg.bus = .par h) →
      ∃ t, exec i s = .next t ∧ minMicros t.trace = minMicros s.trace) ∧
    (i = .close ∨ i = .ltr → ∃ t, exec i s = .next t ∧ minMicros t.trace = minMicros s.trace)) ∧
  ∀ (c : Cfg) (s : State), s.closed = false → s.life ≠ .failed → c.wf = true → s.AllOk →
    StandardDelays c →
    ∃ t, exec (.reset c) s = .next t ∧ minMicros t.trace = minMicros s.trace + 215
end

