-- ==== Sys2Proof/Laws/State.lean ====
section
/-! SUPPORT. One lemma per field per update of the state, so that no later proof unfolds a record
update; and the line file's laws: a read after a write. -/

namespace Sys2Proof.Machine

/-! ### The line file -/

@[simp] theorem Lines.get_put (ls : Lines) (l k : Line) (x : LineState) :
    (ls.put l x).get k = if k = l then x else ls.get k := by
  cases l <;> cases k <;> rfl

@[simp] theorem Lines.put_rs (ls : Lines) (l : Line) (x : LineState) :
    (ls.put l x).rs = if l = .rs then x else ls.rs := by cases l <;> rfl
@[simp] theorem Lines.put_en (ls : Lines) (l : Line) (x : LineState) :
    (ls.put l x).en = if l = .en then x else ls.en := by cases l <;> rfl
@[simp] theorem Lines.put_d4 (ls : Lines) (l : Line) (x : LineState) :
    (ls.put l x).d4 = if l = .d4 then x else ls.d4 := by cases l <;> rfl
@[simp] theorem Lines.put_d5 (ls : Lines) (l : Line) (x : LineState) :
    (ls.put l x).d5 = if l = .d5 then x else ls.d5 := by cases l <;> rfl
@[simp] theorem Lines.put_d6 (ls : Lines) (l : Line) (x : LineState) :
    (ls.put l x).d6 = if l = .d6 then x else ls.d6 := by cases l <;> rfl
@[simp] theorem Lines.put_d7 (ls : Lines) (l : Line) (x : LineState) :
    (ls.put l x).d7 = if l = .d7 then x else ls.d7 := by cases l <;> rfl
@[simp] theorem Lines.put_bl (ls : Lines) (l : Line) (x : LineState) :
    (ls.put l x).bl = if l = .bl then x else ls.bl := by cases l <;> rfl

@[simp] theorem Lines.get_rs (ls : Lines) : ls.get .rs = ls.rs := rfl
@[simp] theorem Lines.get_en (ls : Lines) : ls.get .en = ls.en := rfl
@[simp] theorem Lines.get_d4 (ls : Lines) : ls.get .d4 = ls.d4 := rfl
@[simp] theorem Lines.get_d5 (ls : Lines) : ls.get .d5 = ls.d5 := rfl
@[simp] theorem Lines.get_d6 (ls : Lines) : ls.get .d6 = ls.d6 := rfl
@[simp] theorem Lines.get_d7 (ls : Lines) : ls.get .d7 = ls.d7 := rfl
@[simp] theorem Lines.get_bl (ls : Lines) : ls.get .bl = ls.bl := rfl

/-! ### Updates of the state -/

@[simp] theorem State.setDir_life (s : State) (l : Line) (v : LineDir) :
    (s.setDir l v).life = s.life := rfl
@[simp] theorem State.setDir_cfg (s : State) (l : Line) (v : LineDir) :
    (s.setDir l v).cfg = s.cfg := rfl
@[simp] theorem State.setDir_modes (s : State) (l : Line) (v : LineDir) :
    (s.setDir l v).modes = s.modes := rfl
@[simp] theorem State.setDir_bls (s : State) (l : Line) (v : LineDir) :
    (s.setDir l v).bls = s.bls := rfl
@[simp] theorem State.setDir_closed (s : State) (l : Line) (v : LineDir) :
    (s.setDir l v).closed = s.closed := rfl
@[simp] theorem State.setDir_lines (s : State) (l : Line) (v : LineDir) :
    (s.setDir l v).lines = s.lines.put l { s.lines.get l with dir := v } := rfl
@[simp] theorem State.setDir_xp (s : State) (l : Line) (v : LineDir) :
    (s.setDir l v).xp = s.xp := rfl
@[simp] theorem State.setDir_xc (s : State) (l : Line) (v : LineDir) :
    (s.setDir l v).xc = s.xc := rfl
@[simp] theorem State.setDir_trace (s : State) (l : Line) (v : LineDir) :
    (s.setDir l v).trace = s.trace := rfl
@[simp] theorem State.setDir_result (s : State) (l : Line) (v : LineDir) :
    (s.setDir l v).result = s.result := rfl
@[simp] theorem State.setDir_port (s : State) (l : Line) (v : LineDir) :
    (s.setDir l v).port = s.port := rfl
@[simp] theorem State.setDir_env (s : State) (l : Line) (v : LineDir) :
    (s.setDir l v).env = s.env := rfl
@[simp] theorem State.setDir_col (s : State) (l : Line) (v : LineDir) :
    (s.setDir l v).col = s.col := rfl
@[simp] theorem State.setDir_row (s : State) (l : Line) (v : LineDir) :
    (s.setDir l v).row = s.row := rfl
@[simp] theorem State.setDir_draws (s : State) (l : Line) (v : LineDir) :
    (s.setDir l v).draws = s.draws := rfl

@[simp] theorem State.setLevel_life (s : State) (l : Line) (v : Level) :
    (s.setLevel l v).life = s.life := rfl
@[simp] theorem State.setLevel_cfg (s : State) (l : Line) (v : Level) :
    (s.setLevel l v).cfg = s.cfg := rfl
@[simp] theorem State.setLevel_modes (s : State) (l : Line) (v : Level) :
    (s.setLevel l v).modes = s.modes := rfl
@[simp] theorem State.setLevel_bls (s : State) (l : Line) (v : Level) :
    (s.setLevel l v).bls = s.bls := rfl
@[simp] theorem State.setLevel_closed (s : State) (l : Line) (v : Level) :
    (s.setLevel l v).closed = s.closed := rfl
@[simp] theorem State.setLevel_lines (s : State) (l : Line) (v : Level) :
    (s.setLevel l v).lines = s.lines.put l { s.lines.get l with level := v } := rfl
@[simp] theorem State.setLevel_xp (s : State) (l : Line) (v : Level) :
    (s.setLevel l v).xp = s.xp := rfl
@[simp] theorem State.setLevel_xc (s : State) (l : Line) (v : Level) :
    (s.setLevel l v).xc = s.xc := rfl
@[simp] theorem State.setLevel_trace (s : State) (l : Line) (v : Level) :
    (s.setLevel l v).trace = s.trace := rfl
@[simp] theorem State.setLevel_result (s : State) (l : Line) (v : Level) :
    (s.setLevel l v).result = s.result := rfl
@[simp] theorem State.setLevel_port (s : State) (l : Line) (v : Level) :
    (s.setLevel l v).port = s.port := rfl
@[simp] theorem State.setLevel_env (s : State) (l : Line) (v : Level) :
    (s.setLevel l v).env = s.env := rfl
@[simp] theorem State.setLevel_col (s : State) (l : Line) (v : Level) :
    (s.setLevel l v).col = s.col := rfl
@[simp] theorem State.setLevel_row (s : State) (l : Line) (v : Level) :
    (s.setLevel l v).row = s.row := rfl
@[simp] theorem State.setLevel_draws (s : State) (l : Line) (v : Level) :
    (s.setLevel l v).draws = s.draws := rfl

@[simp] theorem State.setClosed_life (s : State) (l : Line) (v : Bool) :
    (s.setClosed l v).life = s.life := rfl
@[simp] theorem State.setClosed_cfg (s : State) (l : Line) (v : Bool) :
    (s.setClosed l v).cfg = s.cfg := rfl
@[simp] theorem State.setClosed_modes (s : State) (l : Line) (v : Bool) :
    (s.setClosed l v).modes = s.modes := rfl
@[simp] theorem State.setClosed_bls (s : State) (l : Line) (v : Bool) :
    (s.setClosed l v).bls = s.bls := rfl
@[simp] theorem State.setClosed_closed (s : State) (l : Line) (v : Bool) :
    (s.setClosed l v).closed = s.closed := rfl
@[simp] theorem State.setClosed_lines (s : State) (l : Line) (v : Bool) :
    (s.setClosed l v).lines = s.lines.put l { s.lines.get l with closed := v } := rfl
@[simp] theorem State.setClosed_xp (s : State) (l : Line) (v : Bool) :
    (s.setClosed l v).xp = s.xp := rfl
@[simp] theorem State.setClosed_xc (s : State) (l : Line) (v : Bool) :
    (s.setClosed l v).xc = s.xc := rfl
@[simp] theorem State.setClosed_trace (s : State) (l : Line) (v : Bool) :
    (s.setClosed l v).trace = s.trace := rfl
@[simp] theorem State.setClosed_result (s : State) (l : Line) (v : Bool) :
    (s.setClosed l v).result = s.result := rfl
@[simp] theorem State.setClosed_port (s : State) (l : Line) (v : Bool) :
    (s.setClosed l v).port = s.port := rfl
@[simp] theorem State.setClosed_env (s : State) (l : Line) (v : Bool) :
    (s.setClosed l v).env = s.env := rfl
@[simp] theorem State.setClosed_col (s : State) (l : Line) (v : Bool) :
    (s.setClosed l v).col = s.col := rfl
@[simp] theorem State.setClosed_row (s : State) (l : Line) (v : Bool) :
    (s.setClosed l v).row = s.row := rfl
@[simp] theorem State.setClosed_draws (s : State) (l : Line) (v : Bool) :
    (s.setClosed l v).draws = s.draws := rfl

@[simp] theorem State.log_life (s : State) (e : Event) (x : Option TErr) :
    (s.log e x).life = s.life := rfl
@[simp] theorem State.log_cfg (s : State) (e : Event) (x : Option TErr) :
    (s.log e x).cfg = s.cfg := rfl
@[simp] theorem State.log_modes (s : State) (e : Event) (x : Option TErr) :
    (s.log e x).modes = s.modes := rfl
@[simp] theorem State.log_bls (s : State) (e : Event) (x : Option TErr) :
    (s.log e x).bls = s.bls := rfl
@[simp] theorem State.log_closed (s : State) (e : Event) (x : Option TErr) :
    (s.log e x).closed = s.closed := rfl
@[simp] theorem State.log_lines (s : State) (e : Event) (x : Option TErr) :
    (s.log e x).lines = s.lines := rfl
@[simp] theorem State.log_xp (s : State) (e : Event) (x : Option TErr) :
    (s.log e x).xp = s.xp := rfl
@[simp] theorem State.log_xc (s : State) (e : Event) (x : Option TErr) :
    (s.log e x).xc = s.xc := rfl
@[simp] theorem State.log_trace (s : State) (e : Event) (x : Option TErr) :
    (s.log e x).trace = s.trace ++ [{ ev := e, err := x }] := rfl
@[simp] theorem State.log_result (s : State) (e : Event) (x : Option TErr) :
    (s.log e x).result = s.result := rfl
@[simp] theorem State.log_port (s : State) (e : Event) (x : Option TErr) :
    (s.log e x).port = s.port := rfl
@[simp] theorem State.log_env (s : State) (e : Event) (x : Option TErr) :
    (s.log e x).env = s.env := rfl
@[simp] theorem State.log_col (s : State) (e : Event) (x : Option TErr) :
    (s.log e x).col = s.col := rfl
@[simp] theorem State.log_row (s : State) (e : Event) (x : Option TErr) :
    (s.log e x).row = s.row := rfl
@[simp] theorem State.log_draws (s : State) (e : Event) (x : Option TErr) :
    (s.log e x).draws = s.draws := rfl

@[simp] theorem State.answered_life (s : State) :
    (s.answered).life = s.life := rfl
@[simp] theorem State.answered_cfg (s : State) :
    (s.answered).cfg = s.cfg := rfl
@[simp] theorem State.answered_modes (s : State) :
    (s.answered).modes = s.modes := rfl
@[simp] theorem State.answered_bls (s : State) :
    (s.answered).bls = s.bls := rfl
@[simp] theorem State.answered_closed (s : State) :
    (s.answered).closed = s.closed := rfl
@[simp] theorem State.answered_lines (s : State) :
    (s.answered).lines = s.lines := rfl
@[simp] theorem State.answered_xp (s : State) :
    (s.answered).xp = s.xp := rfl
@[simp] theorem State.answered_xc (s : State) :
    (s.answered).xc = s.xc := rfl
@[simp] theorem State.answered_trace (s : State) :
    (s.answered).trace = s.trace := rfl
@[simp] theorem State.answered_result (s : State) :
    (s.answered).result = s.result := rfl
@[simp] theorem State.answered_port (s : State) :
    (s.answered).port = s.port := rfl
@[simp] theorem State.answered_env (s : State) :
    (s.answered).env = s.env.tail := rfl
@[simp] theorem State.answered_col (s : State) :
    (s.answered).col = s.col := rfl
@[simp] theorem State.answered_row (s : State) :
    (s.answered).row = s.row := rfl
@[simp] theorem State.answered_draws (s : State) :
    (s.answered).draws = s.draws := rfl

@[simp] theorem State.applySetters_life (s : State) (xs : List Setter) :
    (s.applySetters xs).life = s.life := rfl
@[simp] theorem State.applySetters_cfg (s : State) (xs : List Setter) :
    (s.applySetters xs).cfg = s.cfg := rfl
@[simp] theorem State.applySetters_modes (s : State) (xs : List Setter) :
    (s.applySetters xs).modes = Sys2Proof.Machine.applySetters xs s.modes := rfl
@[simp] theorem State.applySetters_bls (s : State) (xs : List Setter) :
    (s.applySetters xs).bls = s.bls := rfl
@[simp] theorem State.applySetters_closed (s : State) (xs : List Setter) :
    (s.applySetters xs).closed = s.closed := rfl
@[simp] theorem State.applySetters_lines (s : State) (xs : List Setter) :
    (s.applySetters xs).lines = s.lines := rfl
@[simp] theorem State.applySetters_xp (s : State) (xs : List Setter) :
    (s.applySetters xs).xp = s.xp := rfl
@[simp] theorem State.applySetters_xc (s : State) (xs : List Setter) :
    (s.applySetters xs).xc = s.xc := rfl
@[simp] theorem State.applySetters_trace (s : State) (xs : List Setter) :
    (s.applySetters xs).trace = s.trace := rfl
@[simp] theorem State.applySetters_result (s : State) (xs : List Setter) :
    (s.applySetters xs).result = s.result := rfl
@[simp] theorem State.applySetters_port (s : State) (xs : List Setter) :
    (s.applySetters xs).port = s.port := rfl
@[simp] theorem State.applySetters_env (s : State) (xs : List Setter) :
    (s.applySetters xs).env = s.env := rfl
@[simp] theorem State.applySetters_col (s : State) (xs : List Setter) :
    (s.applySetters xs).col = s.col := rfl
@[simp] theorem State.applySetters_row (s : State) (xs : List Setter) :
    (s.applySetters xs).row = s.row := rfl
@[simp] theorem State.applySetters_draws (s : State) (xs : List Setter) :
    (s.applySetters xs).draws = s.draws := rfl

@[simp] theorem State.moveTo_life (s : State) (c : Int) (r : Nat) :
    (s.moveTo c r).life = s.life := rfl
@[simp] theorem State.moveTo_cfg (s : State) (c : Int) (r : Nat) :
    (s.moveTo c r).cfg = s.cfg := rfl
@[simp] theorem State.moveTo_modes (s : State) (c : Int) (r : Nat) :
    (s.moveTo c r).modes = s.modes := rfl
@[simp] theorem State.moveTo_bls (s : State) (c : Int) (r : Nat) :
    (s.moveTo c r).bls = s.bls := rfl
@[simp] theorem State.moveTo_closed (s : State) (c : Int) (r : Nat) :
    (s.moveTo c r).closed = s.closed := rfl
@[simp] theorem State.moveTo_lines (s : State) (c : Int) (r : Nat) :
    (s.moveTo c r).lines = s.lines := rfl
@[simp] theorem State.moveTo_xp (s : State) (c : Int) (r : Nat) :
    (s.moveTo c r).xp = s.xp := rfl
@[simp] theorem State.moveTo_xc (s : State) (c : Int) (r : Nat) :
    (s.moveTo c r).xc = s.xc := rfl
@[simp] theorem State.moveTo_trace (s : State) (c : Int) (r : Nat) :
    (s.moveTo c r).trace = s.trace := rfl
@[simp] theorem State.moveTo_result (s : State) (c : Int) (r : Nat) :
    (s.moveTo c r).result = s.result := rfl
@[simp] theorem State.moveTo_port (s : State) (c : Int) (r : Nat) :
    (s.moveTo c r).port = s.port := rfl
@[simp] theorem State.moveTo_env (s : State) (c : Int) (r : Nat) :
    (s.moveTo c r).env = s.env := rfl
@[simp] theorem State.moveTo_col (s : State) (c : Int) (r : Nat) :
    (s.moveTo c r).col = c := rfl
@[simp] theorem State.moveTo_row (s : State) (c : Int) (r : Nat) :
    (s.moveTo c r).row = r := rfl
@[simp] theorem State.moveTo_draws (s : State) (c : Int) (r : Nat) :
    (s.moveTo c r).draws = s.draws := rfl

@[simp] theorem State.construct_life (s : State) (c : Cfg) :
    (s.construct c).life = s.life := rfl
@[simp] theorem State.construct_cfg (s : State) (c : Cfg) :
    (s.construct c).cfg = c := rfl
@[simp] theorem State.construct_modes (s : State) (c : Cfg) :
    (s.construct c).modes = .zero := rfl
@[simp] theorem State.construct_bls (s : State) (c : Cfg) :
    (s.construct c).bls = (match c.bus with | .par _ => s.bls | .i2c _ _ b => b) := rfl
@[simp] theorem State.construct_closed (s : State) (c : Cfg) :
    (s.construct c).closed = false := rfl
@[simp] theorem State.construct_lines (s : State) (c : Cfg) :
    (s.construct c).lines = s.lines := rfl
@[simp] theorem State.construct_xp (s : State) (c : Cfg) :
    (s.construct c).xp = s.xp := rfl
@[simp] theorem State.construct_xc (s : State) (c : Cfg) :
    (s.construct c).xc = s.xc := rfl
@[simp] theorem State.construct_trace (s : State) (c : Cfg) :
    (s.construct c).trace = s.trace := rfl
@[simp] theorem State.construct_result (s : State) (c : Cfg) :
    (s.construct c).result = s.result := rfl
@[simp] theorem State.construct_port (s : State) (c : Cfg) :
    (s.construct c).port = s.port := rfl
@[simp] theorem State.construct_env (s : State) (c : Cfg) :
    (s.construct c).env = s.env := rfl
@[simp] theorem State.construct_col (s : State) (c : Cfg) :
    (s.construct c).col = s.col := rfl
@[simp] theorem State.construct_row (s : State) (c : Cfg) :
    (s.construct c).row = s.row := rfl
@[simp] theorem State.construct_draws (s : State) (c : Cfg) :
    (s.construct c).draws = s.draws := rfl

@[simp] theorem State.offerWord_life (s : State) (n w : Nat) :
    (s.offerWord n w).life = s.life := rfl
@[simp] theorem State.offerWord_cfg (s : State) (n w : Nat) :
    (s.offerWord n w).cfg = s.cfg := rfl
@[simp] theorem State.offerWord_modes (s : State) (n w : Nat) :
    (s.offerWord n w).modes = s.modes := rfl
@[simp] theorem State.offerWord_bls (s : State) (n w : Nat) :
    (s.offerWord n w).bls = s.bls := rfl
@[simp] theorem State.offerWord_closed (s : State) (n w : Nat) :
    (s.offerWord n w).closed = s.closed := rfl
@[simp] theorem State.offerWord_lines (s : State) (n w : Nat) :
    (s.offerWord n w).lines = s.lines := rfl
@[simp] theorem State.offerWord_xp (s : State) (n w : Nat) :
    (s.offerWord n w).xp = s.xp := rfl
@[simp] theorem State.offerWord_xc (s : State) (n w : Nat) :
    (s.offerWord n w).xc = s.xc := rfl
@[simp] theorem State.offerWord_trace (s : State) (n w : Nat) :
    (s.offerWord n w).trace = s.trace := rfl
@[simp] theorem State.offerWord_result (s : State) (n w : Nat) :
    (s.offerWord n w).result = s.result := rfl
@[simp] theorem State.offerWord_port (s : State) (n w : Nat) :
    (s.offerWord n w).port = .word (tableBytes n w) :: s.port := rfl
@[simp] theorem State.offerWord_env (s : State) (n w : Nat) :
    (s.offerWord n w).env = s.env := rfl
@[simp] theorem State.offerWord_col (s : State) (n w : Nat) :
    (s.offerWord n w).col = s.col := rfl
@[simp] theorem State.offerWord_row (s : State) (n w : Nat) :
    (s.offerWord n w).row = s.row := rfl
@[simp] theorem State.offerWord_draws (s : State) (n w : Nat) :
    (s.offerWord n w).draws = s.draws := rfl

/-! ### The effect of one primitive: what it leaves alone -/

@[simp] theorem okEffect_life (e : Event) (s : State) : (okEffect e s).life = s.life := by
  cases e <;> rfl
@[simp] theorem okEffect_cfg (e : Event) (s : State) : (okEffect e s).cfg = s.cfg := by
  cases e <;> rfl
@[simp] theorem okEffect_modes (e : Event) (s : State) : (okEffect e s).modes = s.modes := by
  cases e <;> rfl
@[simp] theorem okEffect_bls (e : Event) (s : State) : (okEffect e s).bls = s.bls := by
  cases e <;> rfl
@[simp] theorem okEffect_closed (e : Event) (s : State) : (okEffect e s).closed = s.closed := by
  cases e <;> rfl
@[simp] theorem okEffect_trace (e : Event) (s : State) : (okEffect e s).trace = s.trace := by
  cases e <;> rfl
@[simp] theorem okEffect_result (e : Event) (s : State) : (okEffect e s).result = s.result := by
  cases e <;> rfl
@[simp] theorem okEffect_port (e : Event) (s : State) : (okEffect e s).port = s.port := by
  cases e <;> rfl
@[simp] theorem okEffect_env (e : Event) (s : State) : (okEffect e s).env = s.env := by
  cases e <;> rfl
@[simp] theorem okEffect_col (e : Event) (s : State) : (okEffect e s).col = s.col := by
  cases e <;> rfl
@[simp] theorem okEffect_row (e : Event) (s : State) : (okEffect e s).row = s.row := by
  cases e <;> rfl
@[simp] theorem okEffect_draws (e : Event) (s : State) : (okEffect e s).draws = s.draws := by
  cases e <;> rfl
@[simp] theorem errEffect_life (e : Event) (s : State) : (errEffect e s).life = s.life := by
  cases e <;> rfl
@[simp] theorem errEffect_cfg (e : Event) (s : State) : (errEffect e s).cfg = s.cfg := by
  cases e <;> rfl
@[simp] theorem errEffect_modes (e : Event) (s : State) : (errEffect e s).modes = s.modes := by
  cases e <;> rfl
@[simp] theorem errEffect_bls (e : Event) (s : State) : (errEffect e s).bls = s.bls := by
  cases e <;> rfl
@[simp] theorem errEffect_closed (e : Event) (s : State) : (errEffect e s).closed = s.closed := by
  cases e <;> rfl
@[simp] theorem errEffect_trace (e : Event) (s : State) : (errEffect e s).trace = s.trace := by
  cases e <;> rfl
@[simp] theorem errEffect_result (e : Event) (s : State) : (errEffect e s).result = s.result := by
  cases e <;> rfl
@[simp] theorem errEffect_port (e : Event) (s : State) : (errEffect e s).port = s.port := by
  cases e <;> rfl
@[simp] theorem errEffect_env (e : Event) (s : State) : (errEffect e s).env = s.env := by
  cases e <;> rfl
@[simp] theorem errEffect_col (e : Event) (s : State) : (errEffect e s).col = s.col := by
  cases e <;> rfl
@[simp] theorem errEffect_row (e : Event) (s : State) : (errEffect e s).row = s.row := by
  cases e <;> rfl

end Sys2Proof.Machine
end

