-- ==== Sys2Proof/Laws/Perform.lean ====
section
/-! SUPPORT. What performing primitives can do, said once: how a run ends (`Run.Ends`), what it adds
to the trace, what it leaves alone, and that it completes when the environment answers `ok`. -/

namespace Sys2Proof.Machine

/-! ### How a run ends -/

/-- Every state the run ends in, completed or aborted, meets `P`. -/
def Run.Ends (P : State → Prop) : Run → Prop
  | .done s => P s
  | .abort s _ => P s
  | .refused _ => True
  | .stuck _ => True

@[simp] theorem Run.ends_done (P : State → Prop) (s : State) : (Run.done s).Ends P ↔ P s := Iff.rfl
@[simp] theorem Run.ends_abort (P : State → Prop) (s : State) (e : TErr) :
    (Run.abort s e).Ends P ↔ P s := Iff.rfl
@[simp] theorem Run.ends_refused (P : State → Prop) (r : Refusal) : (Run.refused r).Ends P :=
  trivial
@[simp] theorem Run.ends_stuck (P : State → Prop) (f : Fault) : (Run.stuck f).Ends P := trivial

theorem Run.ends_mono {P Q : State → Prop} {r : Run} (h : r.Ends P) (hpq : ∀ s, P s → Q s) :
    r.Ends Q := by
  cases r <;> simp_all [Run.Ends]

theorem Run.ends_andThen {P Q : State → Prop} {r : Run} {k : State → Run} (h : r.Ends P)
    (habort : ∀ s, P s → Q s) (hk : ∀ s, P s → (k s).Ends Q) : (r.andThen k).Ends Q := by
  cases r with
  | done s => exact hk s h
  | abort s e => exact habort s h
  | refused x => trivial
  | stuck f => trivial

/-- From a run's end to a step's next state: only the result output differs. -/
theorem Run.next_of_outcome {r : Run} {t : State} (h : r.outcome = .next t) :
    (∃ s, r = .done s ∧ t = { s with result := .ok }) ∨
      ∃ s e, r = .abort s e ∧ t = { s with result := .err e } := by
  cases r with
  | done s => exact .inl ⟨s, rfl, by simpa [Run.outcome] using h.symm⟩
  | abort s e => exact .inr ⟨s, e, rfl, by simpa [Run.outcome] using h.symm⟩
  | refused x => simp [Run.outcome] at h
  | stuck f => simp [Run.outcome] at h

theorem Run.ends_of_outcome {P : State → Prop} {r : Run} {t : State} (hr : r.Ends P)
    (hres : ∀ s x, P s → P { s with result := x }) (h : r.outcome = .next t) : P t := by
  obtain ⟨s, rfl, rfl⟩ | ⟨s, e, rfl, rfl⟩ := Run.next_of_outcome h
  · exact hres s _ hr
  · exact hres s _ hr

theorem whenReady_ends {P : State → Prop} {s : State} {k : State → Run}
    (h : s.Ready → (k s).Ends P) : (whenReady s k).Ends P := by
  unfold whenReady
  split
  · trivial
  · next hc =>
    split
    · trivial
    · trivial
    · next hl => exact h ⟨hl, by simpa using hc⟩

theorem whenReady_ready {s : State} (h : s.Ready) (k : State → Run) : whenReady s k = k s := by
  simp [whenReady, h.1, h.2]

theorem whenGeometry_ends {P : State → Prop} {s : State} {k : State → Run}
    (h : (k s).Ends P) : (whenGeometry s k).Ends P := by
  unfold whenGeometry
  split
  · exact h
  · trivial

/-! ### One primitive -/

/-- Everything one primitive can do (R14, R15, R66). -/
theorem performOne_cases (e : Event) (s : State) :
    (e.fallible = false ∧ performOne e s = .done ((okEffect e s).log e none)) ∨
    (e.fallible = true ∧ s.answer = .ok ∧
      performOne e s = .done ((okEffect e s.answered).log e none)) ∨
    (∃ t, e.fallible = true ∧ s.answer = .err t ∧
      performOne e s = .abort ((errEffect e s.answered).log e (some t)) t) ∨
    (e.fallible = true ∧ s.answer = .never ∧ performOne e s = .stuck .hang) := by
  unfold performOne
  cases hf : e.fallible
  · simp
  · cases ha : s.answer <;> simp

/-- A property kept by both effects of a primitive holds wherever it ends. -/
theorem performOne_ends {P : State → Prop} {e : Event} {s : State}
    (hok : P ((okEffect e s).log e none)) (hok' : P ((okEffect e s.answered).log e none))
    (herr : ∀ t, P ((errEffect e s.answered).log e (some t))) : (performOne e s).Ends P := by
  obtain ⟨-, h⟩ | ⟨-, -, h⟩ | ⟨t, -, -, h⟩ | ⟨-, -, h⟩ := performOne_cases e s <;> rw [h]
  · exact hok
  · exact hok'
  · exact herr t
  · trivial

/-! ### Sequences -/

@[simp] theorem perform_nil (s : State) : perform [] s = .done s := rfl

theorem perform_cons (e : Event) (es : List Event) (s : State) :
    perform (e :: es) s = (performOne e s).andThen (perform es) := rfl

theorem Run.andThen_assoc (r : Run) (f g : State → Run) :
    (r.andThen f).andThen g = r.andThen fun s => (f s).andThen g := by
  cases r <;> rfl

@[simp] theorem Run.done_andThen (s : State) (k : State → Run) : (Run.done s).andThen k = k s := rfl
@[simp] theorem Run.abort_andThen (s : State) (e : TErr) (k : State → Run) :
    (Run.abort s e).andThen k = .abort s e := rfl
@[simp] theorem Run.stuck_andThen (f : Fault) (k : State → Run) :
    (Run.stuck f).andThen k = .stuck f := rfl
@[simp] theorem Run.refused_andThen (r : Refusal) (k : State → Run) :
    (Run.refused r).andThen k = .refused r := rfl

/-- A sequence in two parts: the second follows only when the first has run to its end (R15). -/
theorem perform_append (as bs : List Event) (s : State) :
    perform (as ++ bs) s = (perform as s).andThen (perform bs) := by
  induction as generalizing s with
  | nil => rfl
  | cons e es ih =>
    simp only [List.cons_append, perform_cons, Run.andThen_assoc]
    congr 1
    funext t
    exact ih t

/-- A property every primitive of a sequence keeps holds wherever the sequence ends. -/
theorem perform_ends {P : State → Prop} {es : List Event}
    (hkeep : ∀ e ∈ es, ∀ s, P s → P ((okEffect e s).log e none) ∧
      P ((okEffect e s.answered).log e none) ∧
      ∀ t, P ((errEffect e s.answered).log e (some t)))
    {s : State} (hs : P s) : (perform es s).Ends P := by
  induction es generalizing s with
  | nil => exact hs
  | cons e es ih =>
    have hone := hkeep e (by simp) s hs
    exact Run.ends_andThen (performOne_ends hone.1 hone.2.1 hone.2.2) (fun _ h => h)
      fun t ht => ih (fun e' he' => hkeep e' (List.mem_cons_of_mem _ he')) ht

/-- What performing primitives leaves alone: all but the output side, the trace, the environment's
answers and the count of free values. -/
structure State.SameHeld (s t : State) : Prop where
  life : t.life = s.life
  cfg : t.cfg = s.cfg
  modes : t.modes = s.modes
  bls : t.bls = s.bls
  closed : t.closed = s.closed
  result : t.result = s.result
  port : t.port = s.port
  col : t.col = s.col
  row : t.row = s.row

theorem State.SameHeld.refl (s : State) : s.SameHeld s := by constructor <;> rfl

theorem State.SameHeld.trans {a b c : State} (h : a.SameHeld b) (k : b.SameHeld c) :
    a.SameHeld c := by
  constructor
  · exact k.life.trans h.life
  · exact k.cfg.trans h.cfg
  · exact k.modes.trans h.modes
  · exact k.bls.trans h.bls
  · exact k.closed.trans h.closed
  · exact k.result.trans h.result
  · exact k.port.trans h.port
  · exact k.col.trans h.col
  · exact k.row.trans h.row

/-- The frame of every sequence of primitives. -/
theorem perform_sameHeld (es : List Event) (s : State) : (perform es s).Ends s.SameHeld := by
  refine perform_ends (fun e _ t ht => ⟨?_, ?_, fun _ => ?_⟩) (State.SameHeld.refl s) <;>
    exact ht.trans (by constructor <;> simp)

/-- Lines a sequence never names keep their state (R52). -/
theorem perform_line (es : List Event) (l : Line)
    (hdir : .dir l ∉ es) (hclose : .close l ∉ es) (hw : ∀ v, .w l v ∉ es) (s : State) :
    (perform es s).Ends fun t => t.lines.get l = s.lines.get l := by
  refine perform_ends (fun e he t ht => ?_) rfl
  have h1 : ∀ k, e = .dir k → l ≠ k := fun k hk hl => hdir (by rw [hl, ← hk]; exact he)
  have h2 : ∀ k, e = .close k → l ≠ k := fun k hk hl => hclose (by rw [hl, ← hk]; exact he)
  have h3 : ∀ k v, e = .w k v → l ≠ k := fun k v hk hl => hw v (by rw [hl, ← hk]; exact he)
  cases e <;> simp_all [okEffect, errEffect]

/-- The trace only grows (R12). -/
theorem perform_trace_prefix (es : List Event) (s : State) :
    (perform es s).Ends fun t => s.trace <+: t.trace := by
  refine perform_ends (fun e _ t ht => ⟨?_, ?_, fun _ => ?_⟩) (List.prefix_refl _) <;>
    simpa using ht.trans (List.prefix_append _ _)

/-- Everything a sequence of primitives can do to the trace: all of it without a failure, or a part
of it and then one failed event (R15, R218); or it hangs. It is never refused. -/
theorem perform_cases (es : List Event) (s : State) :
    (∃ t, perform es s = .done t ∧ t.trace = s.trace ++ okEntries es) ∨
    (∃ t x pre e post, perform es s = .abort t x ∧ es = pre ++ e :: post ∧ e.fallible = true ∧
      t.trace = s.trace ++ okEntries pre ++ [{ ev := e, err := some x }]) ∨
    perform es s = .stuck .hang := by
  induction es generalizing s with
  | nil => exact .inl ⟨s, rfl, by simp [okEntries]⟩
  | cons e es ih =>
    have step : ∀ t, performOne e s = .done t → t.trace = s.trace ++ [{ ev := e, err := none }] →
        (∃ u, perform (e :: es) s = .done u ∧ u.trace = s.trace ++ okEntries (e :: es)) ∨
        (∃ u x pre e' post, perform (e :: es) s = .abort u x ∧ e :: es = pre ++ e' :: post ∧
          e'.fallible = true ∧
          u.trace = s.trace ++ okEntries pre ++ [{ ev := e', err := some x }]) ∨
        perform (e :: es) s = .stuck .hang := by
      intro t ht htr
      rw [perform_cons, ht, Run.done_andThen]
      obtain ⟨u, hu, hut⟩ | ⟨u, x, pre, e', post, hu, hes, hf, hut⟩ | hu := ih t
      · exact .inl ⟨u, hu, by simp [hut, htr, okEntries]⟩
      · exact .inr (.inl ⟨u, x, e :: pre, e', post, hu, by simp [hes], hf,
          by simp [hut, htr, okEntries]⟩)
      · exact .inr (.inr hu)
    obtain ⟨-, h⟩ | ⟨-, -, h⟩ | ⟨x, hf, -, h⟩ | ⟨-, -, h⟩ := performOne_cases e s
    · exact step _ h (by simp)
    · exact step _ h (by simp)
    · exact .inr (.inl ⟨_, x, [], e, es, by rw [perform_cons, h]; rfl, rfl, hf,
        by simp [okEntries]⟩)
    · exact .inr (.inr (by rw [perform_cons, h]; rfl))

/-- The state after a sequence of which no primitive failed. -/
def State.after : List Event → State → State
  | [], s => s
  | e :: es, s =>
    State.after es ((okEffect e (if e.fallible then s.answered else s)).log e none)

theorem State.AllOk.answer {s : State} (h : s.AllOk) : s.answer = .ok := by
  unfold State.answer
  cases henv : s.env with
  | nil => rfl
  | cons a as => exact h a (by simp [henv])

theorem State.AllOk.tail {s t : State} (h : s.AllOk) (ht : t.env = s.env ∨ t.env = s.env.tail) :
    t.AllOk := by
  intro a ha
  rcases ht with ht | ht <;> rw [ht] at ha
  · exact h a ha
  · exact h a (List.mem_of_mem_tail ha)

/-- With `ok` for every answer a sequence runs to its end (R15). -/
theorem perform_allOk (es : List Event) {s : State} (h : s.AllOk) :
    perform es s = .done (s.after es) := by
  induction es generalizing s with
  | nil => rfl
  | cons e es ih =>
    obtain ⟨hf, hp⟩ | ⟨hf, -, hp⟩ | ⟨x, -, ha, -⟩ | ⟨-, ha, -⟩ := performOne_cases e s
    · rw [perform_cons, hp, Run.done_andThen, ih (h.tail (by simp))]
      simp [State.after, hf]
    · rw [perform_cons, hp, Run.done_andThen, ih (h.tail (by simp))]
      simp [State.after, hf]
    · simp [h.answer] at ha
    · simp [h.answer] at ha

theorem State.after_append (as bs : List Event) (s : State) :
    s.after (as ++ bs) = (s.after as).after bs := by
  induction as generalizing s with
  | nil => rfl
  | cons e es ih => exact ih _

theorem State.after_sameHeld (es : List Event) (s : State) : s.SameHeld (s.after es) := by
  induction es generalizing s with
  | nil => exact State.SameHeld.refl s
  | cons e es ih =>
    refine State.SameHeld.trans ?_ (ih _)
    constructor <;> simp <;> split <;> rfl

@[simp] theorem State.after_life (es : List Event) (s : State) : (s.after es).life = s.life :=
  (State.after_sameHeld es s).life
@[simp] theorem State.after_cfg (es : List Event) (s : State) : (s.after es).cfg = s.cfg :=
  (State.after_sameHeld es s).cfg
@[simp] theorem State.after_modes (es : List Event) (s : State) : (s.after es).modes = s.modes :=
  (State.after_sameHeld es s).modes
@[simp] theorem State.after_bls (es : List Event) (s : State) : (s.after es).bls = s.bls :=
  (State.after_sameHeld es s).bls
@[simp] theorem State.after_closed (es : List Event) (s : State) : (s.after es).closed = s.closed :=
  (State.after_sameHeld es s).closed
@[simp] theorem State.after_result (es : List Event) (s : State) : (s.after es).result = s.result :=
  (State.after_sameHeld es s).result
@[simp] theorem State.after_port (es : List Event) (s : State) : (s.after es).port = s.port :=
  (State.after_sameHeld es s).port
@[simp] theorem State.after_col (es : List Event) (s : State) : (s.after es).col = s.col :=
  (State.after_sameHeld es s).col
@[simp] theorem State.after_row (es : List Event) (s : State) : (s.after es).row = s.row :=
  (State.after_sameHeld es s).row

@[simp] theorem State.after_trace (es : List Event) (s : State) :
    (s.after es).trace = s.trace ++ okEntries es := by
  induction es generalizing s with
  | nil => simp [State.after, okEntries]
  | cons e es ih =>
    rw [State.after, ih]
    simp [okEntries]
    split <;> rfl

theorem State.after_allOk (es : List Event) {s : State} (h : s.AllOk) : (s.after es).AllOk := by
  induction es generalizing s with
  | nil => exact h
  | cons e es ih =>
    refine ih (h.tail ?_)
    cases e.fallible <;> simp

end Sys2Proof.Machine
end

