-- ==== Sys2Proof/Laws/Ops.lean ====
section
/-! SUPPORT. The shared operations: what a word looks like on the wire, the shape of every
instruction as a run of primitives, and how each shape can end. -/

namespace Sys2Proof.Machine

/-! ### Words on the wire -/

/-- The base byte of R122 is the expander byte of R79 with EN clear. -/
theorem xByte_base (p : PinMap) (n : Nibble) (rs bls : Bool) :
    xMap p n ||| xCtl p rs bls = xByte p n rs bls false := by simp [xByte, bitAt]

/-- "`byte | (1<<EN_position)`" (R79, R124). -/
theorem xByte_enable (p : PinMap) (n : Nibble) (rs bls : Bool) :
    xByte p n rs bls false ||| bitAt true p.en = xByte p n rs bls true := by simp [xByte, bitAt]

theorem hiNibble_getLsbD (b : Byte) (k : Nat) (h : k < 4) :
    (hiNibble b).getLsbD k = b.getLsbD (4 + k) := by
  simp [hiNibble, h]

theorem loNibble_getLsbD (b : Byte) (k : Nat) (h : k < 4) :
    (loNibble b).getLsbD k = b.getLsbD k := by
  simp [loNibble, h]

/-- The sequences of R102 and R123 are the word as `wireWord` writes it out. -/
theorem busWrite_eq (c : Cfg) (bls : Bool) (w : BusWord) :
    busWrite c bls w = wireWord c bls w.rs w.data := by
  unfold busWrite wireWord
  cases c.bus <;> dsimp only
  · simp only [pWrite, pNibble, pPulse, hiNibble_getLsbD _ _ (by decide : 0 < 4),
      hiNibble_getLsbD _ _ (by decide : 1 < 4), hiNibble_getLsbD _ _ (by decide : 2 < 4),
      hiNibble_getLsbD _ _ (by decide : 3 < 4), loNibble_getLsbD _ _ (by decide : 0 < 4),
      loNibble_getLsbD _ _ (by decide : 1 < 4), loNibble_getLsbD _ _ (by decide : 2 < 4),
      loNibble_getLsbD _ _ (by decide : 3 < 4), List.cons_append, List.nil_append]
  · simp [xWrite, xPulse, xSend, xByte_base, xByte_enable]

theorem busWrites_nil (c : Cfg) (bls : Bool) : busWrites c bls [] = [] := rfl

theorem busWrites_cons (c : Cfg) (bls : Bool) (w : BusWord) (ws : List BusWord) :
    busWrites c bls (w :: ws) = wireWord c bls w.rs w.data ++ busWrites c bls ws := by
  simp [busWrites, busWrite_eq]

theorem flushEvents_eq (c : Cfg) (bls : Bool) (m : Modes) :
    flushEvents c bls m = wireModes c bls m := by
  simp [flushEvents, modeWords, busWrites_cons, busWrites_nil, wireModes, entryWord, dispWord,
    funcWord, instrWord]

theorem initWords_eq (c : Cfg) (bls : Bool) :
    busWrites c bls (initWords c.ic) =
      wireWord c bls false c.ic.iInit1 ++ wireWord c bls false c.ic.iInit2 := by
  simp [initWords, busWrites_cons, busWrites_nil, instrWord]

theorem clearEvents_eq (c : Cfg) (bls : Bool) :
    clearEvents c bls = wireWord c bls false c.ic.iClear ++ [.d c.tClear] := by
  simp [clearEvents, busWrite_eq, instrWord]

theorem homeEvents_eq (c : Cfg) (bls : Bool) :
    homeEvents c bls = wireWord c bls false c.ic.iHome ++ [.d c.tClear] := by
  simp [homeEvents, busWrite_eq, instrWord]

theorem directionEvents_eq (c : Cfg) : directionEvents c = wireDirections c := by
  unfold directionEvents wireDirections
  cases c.bus <;> dsimp only
  simp only [pDirs, presentLines]
  split <;> rfl

theorem closeEvents_eq (c : Cfg) : closeEvents c = wireClose c := by
  unfold closeEvents wireClose
  cases c.bus <;> dsimp only
  simp only [pClose, presentLines]
  split <;> rfl

/-- What the events of a word can be (R52, R57): a delay, a write to a line other than the
backlight's, or a byte to the configured address. -/
def WordEvent (c : Cfg) : Event → Prop
  | .d _ => True
  | .w l _ => l ≠ .bl ∧ ∃ h, c.bus = .par h
  | .x a _ => ∃ p r, c.bus = .i2c p a r
  | _ => False

theorem wireWord_events (c : Cfg) (bls rs : Bool) (data : Byte) :
    ∀ e ∈ wireWord c bls rs data, WordEvent c e := by
  unfold wireWord
  split <;> rename_i h <;> simp [WordEvent, h]

theorem wireModes_events (c : Cfg) (bls : Bool) (m : Modes) :
    ∀ e ∈ wireModes c bls m, WordEvent c e := by
  intro e he
  simp only [wireModes, List.mem_append] at he
  rcases he with (he | he) | he <;> exact wireWord_events _ _ _ _ e he

/-! ### The shape of every instruction -/

/-- The events of an instruction that only sends words and waits. -/
def plainEvents (i : Instr) (s : State) : Option (List Event) :=
  match i with
  | .init => some (wireWord s.cfg s.bls false s.cfg.ic.iInit1 ++
      wireWord s.cfg s.bls false s.cfg.ic.iInit2)
  | .clear => some (wireWord s.cfg s.bls false s.cfg.ic.iClear ++ [.d s.cfg.tClear])
  | .home => some (wireWord s.cfg s.bls false s.cfg.ic.iHome ++ [.d s.cfg.tClear])
  | .flush => some (wireModes s.cfg s.bls s.modes)
  | .clearr => some (wireWord s.cfg s.bls false s.cfg.ic.iClear ++ [.d s.cfg.tClear] ++
      wireModes s.cfg s.bls s.modes)
  | i => (oneWord s.cfg.ic i).map fun w => wireWord s.cfg s.bls w.1 w.2

/-- Such an instruction is its events, performed on a block that is ready. -/
theorem exec_plain {i : Instr} {s : State} {es : List Event} (h : plainEvents i s = some es) :
    exec i s = (whenReady s (perform es)).outcome := by
  have key : ∀ (f : State → List Event), f s = es →
      emitting f s = whenReady s (perform es) := by
    intro f hf
    subst hf
    rfl
  have word : ∀ (w : State → BusWord), wireWord s.cfg s.bls (w s).rs (w s).data = es →
      sendWord w s = whenReady s (perform es) :=
    fun w hw => key _ ((busWrite_eq _ _ _).trans hw)
  cases i <;> simp only [plainEvents, oneWord, Option.map_some, Option.map_none,
    Option.some.injEq, reduceCtorEq] at h
  case init => exact congrArg Run.outcome (key _ ((initWords_eq _ _).trans h))
  case clear => exact congrArg Run.outcome (key _ ((clearEvents_eq _ _).trans h))
  case home => exact congrArg Run.outcome (key _ ((homeEvents_eq _ _).trans h))
  case clearr =>
    exact congrArg Run.outcome (key _ ((congrArg₂ _ (clearEvents_eq _ _) (flushEvents_eq _ _ _)).trans h))
  case flush =>
    subst h
    rw [← flushEvents_eq]
    rfl
  all_goals
    exact (show _ = (sendWord _ s).outcome from rfl).trans (congrArg Run.outcome (word _ h))

theorem wordEvent_append {c : Cfg} {as bs : List Event} (ha : ∀ e ∈ as, WordEvent c e)
    (hb : ∀ e ∈ bs, WordEvent c e) : ∀ e ∈ as ++ bs, WordEvent c e := by
  intro e he
  exact (List.mem_append.mp he).elim (ha e) (hb e)

theorem wordEvent_delay {c : Cfg} {n : Nat} : ∀ e ∈ [Event.d n], WordEvent c e := by
  simp [WordEvent]

theorem plainEvents_events {i : Instr} {s : State} {es : List Event} (h : plainEvents i s = some es) :
    ∀ e ∈ es, WordEvent s.cfg e := by
  have one : ∀ rs d, ∀ e ∈ wireWord s.cfg s.bls rs d, WordEvent s.cfg e := wireWord_events _ _
  have modes := wireModes_events s.cfg s.bls s.modes
  cases i <;> simp only [plainEvents, oneWord, Option.map_some, Option.map_none,
    Option.some.injEq, reduceCtorEq] at h <;> subst h
  case init => exact wordEvent_append (one _ _) (one _ _)
  case clear => exact wordEvent_append (one _ _) wordEvent_delay
  case home => exact wordEvent_append (one _ _) wordEvent_delay
  case flush => exact modes
  case clearr => exact wordEvent_append (wordEvent_append (one _ _) wordEvent_delay) modes
  all_goals exact one _ _

/-- A display toggle is its setter and its word. -/
theorem exec_toggle {i : Instr} {x : Setter} (h : toggleSetter i = some x) (s : State) :
    exec i s = (toggle x s).outcome := by
  cases i <;> simp only [toggleSetter, Option.some.injEq, reduceCtorEq] at h <;> subst h <;> rfl

/-- A setter row is its setter. -/
theorem exec_setter {i : Instr} {x : Setter} (h : setterRow i = some x) (s : State) :
    exec i s = (setterOnly x s).outcome := by
  cases i <;> simp only [setterRow, Option.some.injEq, reduceCtorEq] at h <;> subst h <;> rfl

/-- Every instruction has one of these shapes. -/
theorem instr_shapes (i : Instr) (s : State) :
    (∃ c, i = .reset c) ∨ (∃ es, plainEvents i s = some es) ∨ (∃ xs, i = .apply xs) ∨
    (∃ x, toggleSetter i = some x) ∨ (∃ x, setterRow i = some x) ∨ i = .blOn ∨ i = .blOff ∨
    i = .close ∨ i = .ltr ∨ isClient i = true := by
  cases i <;> simp [plainEvents, oneWord, toggleSetter, setterRow, isClient]

/-- `LTR?` is refused on a closed block only (R176, R214(a)). -/
theorem exec_ltr (s : State) :
    exec .ltr s =
      if s.closed then .refused .closed else .next { s with result := .value (ltr s.modes) } := rfl

end Sys2Proof.Machine
end

