-- ==== Sys2Proof/Laws/Answers.lean ====
section
/-! SUPPORT. How a run depends on the environment's answers (R14, R66), said once: a sequence under
answers of which the first that is not `ok` is given (`perform_fails`), and what `k` times `ok` and
then silence make of a run that would come to its end (`Steady`). -/

namespace Sys2Proof.Machine

/-- A sequence whose first answer that is not `ok` comes after `k` times `ok`, while it still has
primitives to ask about: it aborts at that primitive, or hangs there (R15, R66, R218). -/
theorem perform_fails (es : List Event) : ∀ (s : State) (k : Nat) (a : TStatus) (rest : List TStatus),
    s.env = List.replicate k .ok ++ a :: rest → a ≠ .ok → k < (es.filter Event.fallible).length →
    (∀ e, a = .err e → ∃ t pre ev post, perform es s = .abort t e ∧ t.env = rest ∧
      es = pre ++ ev :: post ∧ ev.fallible = true ∧ (pre.filter Event.fallible).length = k ∧
      t.trace = s.trace ++ okEntries pre ++ [{ ev := ev, err := some e }]) ∧
    (a = .never → perform es s = .stuck .hang) := by
  induction es with
  | nil => intro s k a rest _ _ hk; simp at hk
  | cons e es ih =>
    intro s k a rest h ha hk
    have later : ∀ u n, performOne e s = .done u → u.env = List.replicate n .ok ++ a :: rest →
        u.trace = s.trace ++ [{ ev := e, err := none }] →
        n < (es.filter Event.fallible).length → ([e].filter Event.fallible).length + n = k →
        (∀ x, a = .err x → ∃ t pre ev post, perform (e :: es) s = .abort t x ∧ t.env = rest ∧
          e :: es = pre ++ ev :: post ∧ ev.fallible = true ∧
          (pre.filter Event.fallible).length = k ∧
          t.trace = s.trace ++ okEntries pre ++ [{ ev := ev, err := some x }]) ∧
        (a = .never → perform (e :: es) s = .stuck .hang) := by
      intro u n hu henv htr hn hk
      have := ih u n a rest henv ha hn
      refine ⟨fun x hx => ?_, fun hx => by rw [perform_cons, hu, Run.done_andThen, this.2 hx]⟩
      obtain ⟨t, pre, ev, post, h1, h2, h3, h4, h5, h6⟩ := this.1 x hx
      refine ⟨t, e :: pre, ev, post, by rw [perform_cons, hu, Run.done_andThen, h1], h2,
        by simp [h3], h4, ?_, by simp [h6, htr, okEntries]⟩
      rw [← hk, ← h5, show e :: pre = [e] ++ pre from rfl, List.filter_append, List.length_append]
    cases hf : e.fallible
    · exact later _ k (by simp [performOne, hf]; rfl) (by simp [h]) (by simp)
        (by simpa [hf] using hk) (by simp [hf])
    · cases k with
      | zero =>
        have han : s.answer = a := by simp [State.answer, h]
        refine ⟨fun x hx => ⟨(errEffect e s.answered).log e (some x), [], e, es, ?_, by simp [h], rfl,
          hf, rfl, by simp [okEntries]⟩, fun hx => ?_⟩
        · simp [perform_cons, performOne, hf, han, hx]
        · simp [perform_cons, performOne, hf, han, hx]
      | succ k =>
        have han : s.answer = .ok := by simp [State.answer, h, List.replicate_succ]
        refine later _ k (by simp [performOne, hf, han]; rfl) (by simp [h, List.replicate_succ])
          (by simp) ?_ (by simp [hf]; omega)
        simp [hf] at hk
        omega

/-- The events of some entries that have an outcome. -/
def fallibles (es : List Entry) : Nat := (es.filter fun e => e.ev.fallible).length

theorem fallibles_append (as bs : List Entry) : fallibles (as ++ bs) = fallibles as + fallibles bs := by
  simp [fallibles]

theorem fallibles_okEntries (es : List Event) :
    fallibles (okEntries es) = (es.filter Event.fallible).length := by
  induction es with
  | nil => rfl
  | cons e es ih =>
    rw [show okEntries (e :: es) = [{ ev := e, err := none }] ++ okEntries es from rfl,
      fallibles_append, ih]
    cases hf : e.fallible <;> simp [fallibles, hf, Nat.add_comm]

/-- The state with other answers to come. -/
def State.withEnv (s : State) (env : List TStatus) : State := { s with env := env }

@[simp] theorem State.withEnv_env (s : State) (env : List TStatus) : (s.withEnv env).env = env := rfl
@[simp] theorem State.withEnv_trace (s : State) (env : List TStatus) :
    (s.withEnv env).trace = s.trace := rfl
@[simp] theorem State.withEnv_withEnv (s : State) (a b : List TStatus) :
    (s.withEnv a).withEnv b = s.withEnv b := rfl
@[simp] theorem State.withEnv_self (s : State) : s.withEnv s.env = s := rfl
@[simp] theorem State.answered_withEnv (s : State) (env : List TStatus) :
    (s.withEnv env).answered = s.withEnv env.tail := rfl
@[simp] theorem okEffect_withEnv (e : Event) (s : State) (env : List TStatus) :
    okEffect e (s.withEnv env) = (okEffect e s).withEnv env := by cases e <;> rfl
@[simp] theorem State.log_withEnv (s : State) (env : List TStatus) (e : Event) (x : Option TErr) :
    (s.withEnv env).log e x = (s.log e x).withEnv env := rfl

/-- What a sequence that does not fail makes of the state depends on the answers in the answers
alone. -/
theorem State.after_withEnv (es : List Event) : ∀ (s : State) (env : List TStatus),
    (s.withEnv env).after es =
      (s.after es).withEnv (env.drop (es.filter Event.fallible).length) := by
  induction es with
  | nil => intro s env; rfl
  | cons e es ih =>
    intro s env
    cases hf : e.fallible
    · simp [State.after, hf, ih]
    · have hs : s.answered = s.withEnv s.env.tail := rfl
      simp [State.after, hf, hs, ih]

/-- Answers that are `ok` for as long as a sequence asks bring it to its end. -/
theorem perform_oks (es : List Event) : ∀ (s : State) (k : Nat) (more : List TStatus),
    s.env = List.replicate k .ok ++ more → (es.filter Event.fallible).length ≤ k →
    perform es s = .done (s.after es) := by
  induction es with
  | nil => intro s k more _ _; rfl
  | cons e es ih =>
    intro s k more henv hk
    cases hf : e.fallible
    · have hp : performOne e s = .done ((okEffect e s).log e none) := by simp [performOne, hf]
      rw [perform_cons, hp, Run.done_andThen, State.after, hf]
      exact ih _ k more (by simp [henv]) (by simpa [hf] using hk)
    · simp only [hf, List.filter_cons_of_pos, List.length_cons] at hk
      obtain ⟨n, rfl⟩ : ∃ n, k = n + 1 := ⟨k - 1, by omega⟩
      have han : s.answer = .ok := by simp [State.answer, henv, List.replicate_succ]
      have hp : performOne e s = .done ((okEffect e s.answered).log e none) := by
        simp [performOne, hf, han]
      rw [perform_cons, hp, Run.done_andThen, State.after, hf]
      exact ih _ n more (by simp [henv, List.replicate_succ]) (by omega)

/-- The environment answers `ok` `k` times, and then never again. -/
def State.silentAfter (s : State) (k : Nat) (rest : List TStatus) : State :=
  s.withEnv (List.replicate k .ok ++ .never :: rest)

/-- A part of an operation that asks for its outcomes one at a time and depends on nothing else of
the environment: where it would come to its end, `k` times `ok` and then silence hang it when it has
more than `k` fallible events, and let it end with what is left of them otherwise (R14, R66). -/
def Steady (f : State → Run) (s : State) : Prop :=
  (∀ u e, f (s.withEnv []) ≠ .abort u e) ∧ ∀ u, f (s.withEnv []) = .done u →
    u.env = [] ∧ ∃ new, u.trace = s.trace ++ new ∧ ∀ k rest,
      if k < fallibles new then f (s.silentAfter k rest) = .stuck .hang
      else f (s.silentAfter k rest) = .done (u.silentAfter (k - fallibles new) rest)

/-- A register write is steady. -/
theorem steady_done (g : State → State) (s : State)
    (henv : ∀ e, g (s.withEnv e) = (g s).withEnv e) (htr : (g s).trace = s.trace) :
    Steady (fun s => .done (g s)) s := by
  refine ⟨by simp, fun u hu => ?_⟩
  obtain rfl : (g s).withEnv [] = u := by rw [← henv]; exact Run.done.inj hu
  refine ⟨rfl, [], by simp [htr], fun k rest => ?_⟩
  simp [fallibles, State.silentAfter, henv]

/-- Two parts one after the other (R15). -/
theorem Steady.andThen {f g : State → Run} {s : State} (hf : Steady f s)
    (hg : ∀ u, f (s.withEnv []) = .done u → Steady g u) :
    Steady (fun s => (f s).andThen g) s := by
  have hempty : ∀ u, f (s.withEnv []) = .done u → u.withEnv [] = u := fun u hu => by
    rw [← (hf.2 u hu).1]
    rfl
  refine ⟨fun v e hv => ?_, fun v hv => ?_⟩
  · cases hu : f (s.withEnv []) with
    | done u =>
      simp only [hu, Run.done_andThen] at hv
      exact (hg u hu).1 v e (by rw [hempty u hu]; exact hv)
    | abort u e => exact hf.1 u e hu
    | refused r => simp [hu] at hv
    | stuck x => simp [hu] at hv
  cases hu : f (s.withEnv []) with
  | done u =>
    obtain ⟨-, new, htr, hk⟩ := hf.2 u hu
    have hg' := (hg u hu).2
    simp only [hu, Run.done_andThen] at hv
    obtain ⟨henv', new', htr', hk'⟩ := hg' v (by rw [hempty u hu]; exact hv)
    refine ⟨henv', new ++ new', by rw [htr', htr, List.append_assoc], fun k rest => ?_⟩
    have h1 := hk k rest
    rw [fallibles_append]
    by_cases hlt : k < fallibles new
    · rw [if_pos hlt] at h1
      rw [if_pos (by omega)]
      simp [h1]
    · rw [if_neg hlt] at h1
      have h2 := hk' (k - fallibles new) rest
      simp only [h1, Run.done_andThen]
      by_cases hlt' : k - fallibles new < fallibles new'
      · rw [if_pos hlt'] at h2
        rw [if_pos (by omega)]
        exact h2
      · rw [if_neg hlt'] at h2
        rw [if_neg (by omega), h2, Nat.sub_sub]
  | abort u e => simp [hu] at hv
  | refused r => simp [hu] at hv
  | stuck x => simp [hu] at hv

/-- A register write, and then a steady part. -/
theorem Steady.write {f : State → Run} {s : State} (g : State → State)
    (henv : ∀ e, g (s.withEnv e) = (g s).withEnv e) (htr : (g s).trace = s.trace)
    (hf : Steady f (g s)) : Steady (fun s => f (g s)) s := by
  refine (steady_done g s henv htr).andThen (g := f) fun u hu => ?_
  obtain rfl : (g s).withEnv [] = u := by rw [← henv]; exact Run.done.inj hu
  exact hf

/-- A sequence of primitives is steady. -/
theorem Steady.perform (es : List Event) (s : State) : Steady (perform es) s := by
  have h0 := perform_allOk es (s := s.withEnv []) (by simp [State.AllOk])
  refine ⟨by simp [h0], fun u hu => ?_⟩
  rw [h0, State.after_withEnv] at hu
  obtain rfl := Run.done.inj hu
  refine ⟨by simp, okEntries es, by simp, fun k rest => ?_⟩
  rw [fallibles_okEntries]
  split
  · next hk => exact (perform_fails es _ k .never rest rfl (by simp) hk).2 rfl
  · next hk =>
    rw [perform_oks es (s.silentAfter k rest) k _ rfl (by omega), State.silentAfter,
      State.after_withEnv]
    simp [State.silentAfter, List.drop_append, Nat.sub_eq_zero_of_le (Nat.le_of_not_lt hk)]

/-- Only what a part does under some answers counts. -/
theorem Steady.congr {f g : State → Run} {s : State} (h : ∀ e, g (s.withEnv e) = f (s.withEnv e))
    (hf : Steady f s) : Steady g s := by
  refine ⟨by simpa only [h] using hf.1, fun u hu => ?_⟩
  rw [h] at hu
  simpa only [State.silentAfter, h] using hf.2 u hu

/-- The preamble of R214 does not ask the environment. -/
theorem Steady.whenReady {k : State → Run} {s : State} (h : s.Ready → Steady k s) :
    Steady (fun s => Machine.whenReady s k) s := by
  by_cases hr : s.Ready
  · exact (h hr).congr fun e => whenReady_ready (s := s.withEnv e) hr k
  · have hno : ∃ r, Machine.whenReady (s.withEnv []) k = .refused r := by
      unfold Machine.whenReady
      split
      · exact ⟨_, rfl⟩
      · next hc =>
        split
        · exact ⟨_, rfl⟩
        · exact ⟨_, rfl⟩
        · next hl => exact absurd ⟨hl, by simpa [State.withEnv] using hc⟩ hr
    obtain ⟨r, hno⟩ := hno
    exact ⟨by simp [hno], by simp [hno]⟩

/-- Nor does that of R191. -/
theorem Steady.whenGeometry {k : State → Run} {s : State} (h : Steady k s) :
    Steady (fun s => Machine.whenGeometry s k) s := by
  by_cases hg : s.GeometryOk
  · exact h.congr fun e => by
      have : (s.withEnv e).GeometryOk := hg
      simp [Machine.whenGeometry, this]
  · have : ¬ (s.withEnv []).GeometryOk := hg
    exact ⟨by simp [Machine.whenGeometry, this], by simp [Machine.whenGeometry, this]⟩

/-- From a steady part to the instruction: what is left unanswered hangs it. -/
theorem Steady.hangs {f : State → Run} {s t : State} {new : List Entry} (hf : Steady f s)
    (h : (f (s.withEnv [])).outcome = .next t)
    (htr : t.trace = s.trace ++ new) {k : Nat} {rest : List TStatus} (hk : k < fallibles new) :
    (f (s.silentAfter k rest)).outcome = .fault .hang := by
  obtain ⟨u, hu, rfl⟩ | ⟨u, e, hu, -⟩ := Run.next_of_outcome h
  · obtain ⟨-, new', htr', hrun⟩ := hf.2 u hu
    obtain rfl : new' = new := List.append_cancel_left (htr'.symm.trans htr)
    have := hrun k rest
    rw [if_pos hk] at this
    rw [this]
    rfl
  · exact absurd hu (hf.1 u e)

end Sys2Proof.Machine
end

