-- ==== Sys2Proof/Laws/Exec.lean ====
section
/-! SUPPORT. What an instruction can do, said once: a property that the instruction's own events and
its own register writes keep holds in every next state (`exec_keeps`). The invariants and frames of
all instructions follow from it. -/

namespace Sys2Proof.Machine

/-- The events an instruction other than `RESET` can emit: those of words; the backlight line for the
backlight operations; the releases for the closing operations. -/
def EmittedBy (i : Instr) (c : Cfg) (e : Event) : Prop :=
  WordEvent c e ∨
  ((i = .blOn ∨ i = .blOff) ∧ (∃ h, c.bus = .par h) ∧ ∃ v, e = .w .bl v) ∨
  ((i = .close ∨ i = .dclose) ∧
    ((∃ h, c.bus = .par h) ∧ (∃ l, e = .close l) ∨
      (∃ p a r, c.bus = .i2c p a r) ∧ e = .xclose ∨ e = .closeBlh))

/-- One primitive keeps `P`, however it ends. -/
def KeptBy (P : State → Prop) (e : Event) (s : State) : Prop :=
  P s → P ((okEffect e s).log e none) ∧ P ((okEffect e s.answered).log e none) ∧
    ∀ t, P ((errEffect e s.answered).log e (some t))

/-- The register writes of an instruction other than `RESET` keep `P`: flags for `APPLY`, toggles and
setters, `BLS` for the backlight operations on I2C, `CLOSED` for the closing operations, and the
cursor for the client's. -/
structure RegistersKeep (P : State → Prop) (i : Instr) (c : Cfg) : Prop where
  flags : writesModes i = true → ∀ s xs, P s → P (s.applySetters xs)
  backlight : i = .blOn ∨ i = .blOff → (∃ p a r, c.bus = .i2c p a r) →
    ∀ (s : State) v, P s → P { s with bls := v }
  closing : i = .close ∨ i = .dclose → ∀ s : State, P s → P { s with closed := true }
  cursor : isClient i = true → i ≠ .dclose → ∀ s x r, P s → P (s.moveTo x r)

theorem wireClose_emitted {i : Instr} (hi : i = .close ∨ i = .dclose) (c : Cfg) :
    ∀ e ∈ wireClose c, EmittedBy i c e := by
  intro e he
  refine .inr (.inr ⟨hi, ?_⟩)
  unfold wireClose at he
  split at he <;> rename_i hb
  · refine .inl ⟨⟨_, hb⟩, ?_⟩
    revert he
    split <;> simp <;> rintro (rfl | rfl | rfl | rfl | rfl | rfl | rfl) <;> exact ⟨_, rfl⟩
  · exact .inr (.inl ⟨⟨_, _, _, hb⟩, by simpa using he⟩)

/-- A property that an instruction's own events and register writes keep holds in every next
state. -/
theorem exec_keeps {P : State → Prop} {i : Instr} {s t : State} (hreset : ∀ c, i ≠ .reset c)
    (hev : ∀ e u, EmittedBy i s.cfg e → u.cfg = s.cfg → KeptBy P e u)
    (hreg : RegistersKeep P i s.cfg)
    (hres : ∀ (u : State) x, P u → P { u with result := x })
    (hs : P s) (h : exec i s = .next t) : P t := by
  have hres' : ∀ (u : State) x, (P u ∧ u.cfg = s.cfg) → (P { u with result := x } ∧ u.cfg = s.cfg) :=
    fun u x hu => ⟨hres u x hu.1, hu.2⟩
  -- a sequence of the instruction's own events, from a state that has `P` and the configuration
  have run : ∀ es u, (∀ e ∈ es, EmittedBy i s.cfg e) → (P u ∧ u.cfg = s.cfg) →
      (perform es u).Ends fun v => P v ∧ v.cfg = s.cfg := by
    intro es u hes hu
    refine perform_ends (P := fun v => P v ∧ v.cfg = s.cfg) (fun e he v hv => ?_) hu
    have hk := hev e v (hes e he) hv.2 hv.1
    exact ⟨⟨hk.1, by simp [hv.2]⟩, ⟨hk.2.1, by simp [hv.2]⟩,
      fun x => ⟨hk.2.2 x, by simp [hv.2]⟩⟩
  have words : ∀ es u, (∀ e ∈ es, WordEvent s.cfg e) → (P u ∧ u.cfg = s.cfg) →
      (perform es u).Ends fun v => P v ∧ v.cfg = s.cfg :=
    fun es u hes hu => run es u (fun e he => .inl (hes e he)) hu
  have oneword : ∀ (u : State) (w : State → BusWord), (P u ∧ u.cfg = s.cfg) →
      (sendWord w u).Ends fun v => P v ∧ v.cfg = s.cfg := by
    intro u w hu
    refine whenReady_ends fun _ => words _ _ ?_ hu
    show ∀ e ∈ busWrite u.cfg u.bls (w u), WordEvent s.cfg e
    rw [busWrite_eq, hu.2]
    exact wireWord_events _ _ _ _
  have close : ∀ u : State, (i = .close ∨ i = .dclose) → (P u ∧ u.cfg = s.cfg) →
      (opClose u).Ends fun v => P v ∧ v.cfg = s.cfg := by
    intro u hi hu
    refine whenReady_ends fun _ => ?_
    refine run _ { u with closed := true } ?_ ⟨hreg.closing hi u hu.1, hu.2⟩
    rw [closeEvents_eq, hu.2]
    exact wireClose_emitted hi _
  have setcursor : isClient i = true → i ≠ .dclose → ∀ c r u, (P u ∧ u.cfg = s.cfg) →
      (opDsetcursor c r u).Ends fun v => P v ∧ v.cfg = s.cfg :=
    fun hc hd c r u hu => by
      unfold opDsetcursor opSetcursor
      exact oneword _ _ ⟨hreg.cursor hc hd u _ _ hu.1, hu.2⟩
  have finish : ∀ r : Run, (r.Ends fun v => P v ∧ v.cfg = s.cfg) → r.outcome = .next t → P t :=
    fun r hr ho => (Run.ends_of_outcome (P := fun v => P v ∧ v.cfg = s.cfg) hr
      (fun u x hu => hres' u x hu) ho).1
  have hs' : P s ∧ s.cfg = s.cfg := ⟨hs, rfl⟩
  obtain ⟨c, rfl⟩ | ⟨es, he⟩ | ⟨xs, rfl⟩ | ⟨x, hx⟩ | ⟨x, hx⟩ | hb | hb | rfl | rfl | hc :=
    instr_shapes i s
  · exact absurd rfl (hreset c)
  · rw [exec_plain he] at h
    exact finish _ (whenReady_ends fun _ => words es s (plainEvents_events he) hs') h
  · refine finish (whenReady s (applyAndFlush xs)) (whenReady_ends fun _ => ?_) h
    refine words _ _ ?_ ⟨hreg.flags rfl s xs hs, rfl⟩
    rw [flushEvents_eq]
    exact wireModes_events _ _ _
  · rw [exec_toggle hx] at h
    refine finish _ (whenReady_ends fun _ => words _ _ ?_ ⟨hreg.flags ?_ s [x] hs, rfl⟩) h
    · rw [busWrite_eq]
      exact wireWord_events _ _ _ _
    · cases i <;> simp [toggleSetter] at hx <;> rfl
  · rw [exec_setter hx] at h
    refine finish (setterOnly x s) (whenReady_ends fun _ => ?_) h
    refine ⟨hreg.flags ?_ s [x] hs, rfl⟩
    cases i <;> simp [setterRow] at hx <;> rfl
  all_goals try
    (have light : ∀ on, (opBacklight on s).Ends fun v => P v ∧ v.cfg = s.cfg := by
      intro on
      refine whenReady_ends fun _ => ?_
      split <;> rename_i hbus
      · refine run _ _ ?_ hs'
        intro e he
        split at he
        · exact .inr (.inl ⟨by simp [hb], ⟨_, hbus⟩, ⟨_, by simpa using he⟩⟩)
        · simp at he
      · refine words _ _ ?_ ⟨hreg.backlight (by simp [hb]) ⟨_, _, _, hbus⟩ s on hs, rfl⟩
        rw [busWrite_eq]
        exact wireWord_events _ _ _ _
     subst hb
     exact finish _ (light _) h)
  · exact finish _ (close s (.inl rfl) hs') h
  · rw [exec_ltr] at h
    split at h
    · simp at h
    · simp only [Host.Outcome.next.injEq] at h
      subst h
      exact hres s _ hs
  · have newline : i ≠ .dclose → ∀ u, (P u ∧ u.cfg = s.cfg) →
        (opDnewline u).Ends fun v => P v ∧ v.cfg = s.cfg :=
      fun hd u hu => setcursor hc hd _ _ u hu
    cases i <;> simp only [isClient, reduceCtorEq] at hc
    case dhome =>
      refine finish (whenGeometry s opDhome) (whenGeometry_ends (whenReady_ends fun _ => ?_)) h
      refine words (homeEvents s.cfg s.bls) _ ?_ ⟨hreg.cursor rfl (by simp) s _ _ hs, rfl⟩
      rw [homeEvents_eq]
      exact wordEvent_append (wireWord_events _ _ _ _) wordEvent_delay
    case dclear =>
      refine finish (whenGeometry s opDclear) (whenGeometry_ends (Run.ends_andThen
        (P := fun v => P v ∧ v.cfg = s.cfg) (whenReady_ends fun _ => ?_) (fun _ hu => hu)
        fun u hu => ?_)) h
      · refine words (clearEvents s.cfg s.bls ++ flushEvents s.cfg s.bls s.modes) _ ?_
          ⟨hreg.cursor rfl (by simp) s _ _ hs, rfl⟩
        rw [clearEvents_eq, flushEvents_eq]
        exact wordEvent_append (wordEvent_append (wireWord_events _ _ _ _) wordEvent_delay)
          (wireModes_events _ _ _)
      · split
        · exact hu
        · exact setcursor rfl (by simp) _ _ u hu
    case dnewline =>
      exact finish (whenGeometry s opDnewline) (whenGeometry_ends (newline (by simp) s hs')) h
    case dsetcursor c r =>
      exact finish (whenGeometry s (opDsetcursor c r))
        (whenGeometry_ends (setcursor rfl (by simp) c r s hs')) h
    case dmessage text =>
      refine finish (whenGeometry s (opDmessage text)) (whenGeometry_ends ?_) h
      have all : ∀ (bs : List Byte) u, (P u ∧ u.cfg = s.cfg) →
          (opDmessage bs u).Ends fun v => P v ∧ v.cfg = s.cfg := by
        intro bs
        induction bs with
        | nil => exact fun u hu => hu
        | cons b bs ih =>
          intro u hu
          refine Run.ends_andThen (P := fun v => P v ∧ v.cfg = s.cfg) ?_ (fun _ hv => hv) ih
          unfold messageByte
          split
          · exact newline (by simp) u hu
          · refine Run.ends_andThen (P := fun v => P v ∧ v.cfg = s.cfg) (oneword u _ hu)
              (fun _ hv => hv) fun v hv => ?_
            have hstep : P (stepColumn v) ∧ (stepColumn v).cfg = s.cfg :=
              ⟨hreg.cursor rfl (by simp) v _ v.row hv.1, hv.2⟩
            unfold wrapColumn
            split
            · exact newline (by simp) _ hstep
            · exact hstep
      exact all text s hs'
    case dclose =>
      refine finish (whenGeometry s opDclose) (whenGeometry_ends (Run.ends_andThen
        (P := fun v => P v ∧ v.cfg = s.cfg) (close s (.inr rfl) hs') (fun _ hu => hu)
        fun u hu => run _ _ ?_ hu)) h
      intro e he
      split at he
      · exact .inr (.inr ⟨.inr rfl, .inr (.inr (by simpa using he))⟩)
      · simp at he

/-! ### `RESET` -/

/-- The events `RESET` can emit: those of words, and direction set-up on the parallel bus. -/
def ResetEvent (c : Cfg) (e : Event) : Prop :=
  WordEvent c e ∨ (∃ h, c.bus = .par h) ∧ ∃ l, e = .dir l

theorem wireDirections_events (c : Cfg) : ∀ e ∈ wireDirections c, ResetEvent c e := by
  intro e he
  unfold wireDirections at he
  split at he <;> rename_i hb
  · refine .inr ⟨⟨_, hb⟩, ?_⟩
    revert he
    split <;> simp <;> rintro (rfl | rfl | rfl | rfl | rfl | rfl | rfl) <;> exact ⟨_, rfl⟩
  · simp at he

theorem bringUpEvents_events (c : Cfg) (bls : Bool) : ∀ e ∈ bringUpEvents c bls, ResetEvent c e := by
  intro e he
  rw [bringUpEvents, directionEvents_eq, initWords_eq] at he
  rcases List.mem_append.mp he with he | he
  · exact wireDirections_events c e he
  · exact .inl (wordEvent_append (wireWord_events _ _ _ _) (wireWord_events _ _ _ _) e he)

/-- A `RESET` that answers a next state was not refused, and has come to its end or failed (R230,
R234). -/
theorem execReset_cases {c : Cfg} {s t : State} (h : exec (.reset c) s = .next t) :
    s.closed = false ∧ s.life ≠ .failed ∧ c.wf = true ∧
    ((∃ u, construct c s = .done u ∧ t = { u with life := .ready, result := .ok }) ∨
      ∃ u e, construct c s = .abort u e ∧ t = { u with life := .failed, result := .err e }) := by
  change (opReset c s).outcome = _ at h
  unfold opReset at h
  split at h
  · simp [Run.outcome] at h
  · split at h
    · simp [Run.outcome] at h
    · split at h
      · rename_i hc hl hw
        refine ⟨by simpa using hc, hl, hw, ?_⟩
        cases hr : construct c s <;> rw [hr] at h <;> simp [Run.concludeReset, Run.outcome] at h
        · exact .inl ⟨_, rfl, h.symm⟩
        · exact .inr ⟨_, _, rfl, h.symm⟩
      · simp [Run.outcome] at h

/-- A property that `RESET`'s events and register writes keep holds where construction ends. -/
theorem construct_keeps {P : State → Prop} {c : Cfg} {s : State}
    (hev : ∀ e u, ResetEvent c e → u.cfg = c → KeptBy P e u)
    (hflags : ∀ u xs, P u → P (u.applySetters xs)) (hstart : P (s.construct c)) :
    (construct c s).Ends P := by
  have run : ∀ es u, (∀ e ∈ es, ResetEvent c e) → (P u ∧ u.cfg = c) →
      (perform es u).Ends fun v => P v ∧ v.cfg = c := by
    intro es u hes hu
    refine perform_ends (P := fun v => P v ∧ v.cfg = c) (fun e he v hv => ?_) hu
    have hk := hev e v (hes e he) hv.2 hv.1
    exact ⟨⟨hk.1, by simp [hv.2]⟩, ⟨hk.2.1, by simp [hv.2]⟩, fun x => ⟨hk.2.2 x, by simp [hv.2]⟩⟩
  refine Run.ends_andThen (P := fun v => P v ∧ v.cfg = c)
    (run _ _ (bringUpEvents_events _ _) ⟨hstart, rfl⟩) (fun _ hu => hu.1) fun u hu => ?_
  refine Run.ends_mono (run _ (u.applySetters c.ctorSetters) ?_ ⟨hflags u _ hu.1, hu.2⟩)
    fun v hv => hv.1
  rw [flushEvents_eq, hu.2]
  exact fun e he => .inl (wireModes_events _ _ _ e he)

/-- A property that `RESET`'s events and register writes keep holds in its next state. -/
theorem execReset_keeps {P : State → Prop} {c : Cfg} {s t : State}
    (hev : ∀ e u, ResetEvent c e → u.cfg = c → KeptBy P e u)
    (hflags : ∀ u xs, P u → P (u.applySetters xs)) (hstart : P (s.construct c))
    (hend : ∀ (u : State) l x, P u → P { u with life := l, result := x })
    (h : exec (.reset c) s = .next t) : P t := by
  have hk := construct_keeps hev hflags hstart
  obtain ⟨-, -, -, ⟨u, hu, rfl⟩ | ⟨u, e, hu, rfl⟩⟩ := execReset_cases h <;> rw [hu] at hk
  · exact hend u _ _ hk
  · exact hend u _ _ hk

/-- A step is idle, or runs the instruction at the port (R16, R22). -/
theorem step_cases {s t : State} (h : step s = .next t) :
    (s.port = [] ∧ t = s) ∨
    ∃ item rest i, s.port = item :: rest ∧ decodeItem s.cfg.ic item = .ok i ∧
      exec i { s with port := rest } = .next t := by
  unfold step fetch at h
  cases hp : s.port with
  | nil =>
    rw [hp] at h
    exact .inl ⟨rfl, by simpa using h.symm⟩
  | cons item rest =>
    simp only [hp] at h
    cases hd : decodeItem s.cfg.ic item with
    | error e => simp [hd] at h
    | ok i =>
      rw [hd] at h
      exact .inr ⟨item, rest, i, rfl, hd, h⟩

end Sys2Proof.Machine
end

