-- ==== Sys2Proof/Laws/PerInstr.lean ====
section
/-! SUPPORT. One lemma per constructor of `Instr`, about the instruction as syntax. Family `Shape`: a
command carries exactly the operands of R82 and R89; one operand too many is refused, and a setter by
itself is no command (R171). -/

namespace Sys2Proof.Laws.Shape

/-- The command of `i` with a further operand is no instruction: "No other host operation takes an
operand" (R82). The further operand is a number, which is no setter's name, so that the rule holds of
`APPLY` too. -/
def Statement (i : Instr) : Prop :=
  ∀ n : Nat, decodeCommand { mnemonic := i.mnemonic, operands := i.operands ++ [.nat n] } =
    .error (if (Machine.setterRow i).isSome then .setterAlone i.mnemonic
      else .badOperands i.mnemonic)

/-- Setter names followed by something else are no list of setters. -/
theorem setterNames_append_nat (ss : List Setter) (n : Nat) :
    setterNames (ss.map .setter ++ [.nat n]) = none := by
  induction ss with
  | nil => rfl
  | cons s ss ih => simp [setterNames, ih]

theorem reset (cfg : Cfg) : Statement (.reset cfg) := fun _ => rfl
theorem init : Statement .init := fun _ => rfl
theorem apply (setters : List Setter) : Statement (.apply setters) := by
  intro n
  simp [decodeCommand, Instr.mnemonic, Instr.operands, takeSetters, setterNames_append_nat,
    Machine.setterRow]
theorem flush : Statement .flush := fun _ => rfl
theorem clear : Statement .clear := fun _ => rfl
theorem clearr : Statement .clearr := fun _ => rfl
theorem home : Statement .home := fun _ => rfl
theorem setcursor (a : Byte) : Statement (.setcursor a) := fun _ => rfl
theorem shiftl : Statement .shiftl := fun _ => rfl
theorem shiftr : Statement .shiftr := fun _ => rfl
theorem wchar (b : Byte) : Statement (.wchar b) := fun _ => rfl
theorem winstr (b : Byte) : Statement (.winstr b) := fun _ => rfl
theorem displayOn : Statement .displayOn := fun _ => rfl
theorem displayOff : Statement .displayOff := fun _ => rfl
theorem cursorOn : Statement .cursorOn := fun _ => rfl
theorem cursorOff : Statement .cursorOff := fun _ => rfl
theorem blinkOn : Statement .blinkOn := fun _ => rfl
theorem blinkOff : Statement .blinkOff := fun _ => rfl
theorem blOn : Statement .blOn := fun _ => rfl
theorem blOff : Statement .blOff := fun _ => rfl
theorem close : Statement .close := fun _ => rfl
theorem ltr : Statement .ltr := fun _ => rfl
theorem entryInc : Statement .entryInc := fun _ => rfl
theorem entryDec : Statement .entryDec := fun _ => rfl
theorem shiftOn : Statement .shiftOn := fun _ => rfl
theorem shiftOff : Statement .shiftOff := fun _ => rfl
theorem bus8bit : Statement .bus8bit := fun _ => rfl
theorem bus4bit : Statement .bus4bit := fun _ => rfl
theorem lines2 : Statement .lines2 := fun _ => rfl
theorem lines1 : Statement .lines1 := fun _ => rfl
theorem font5x10 : Statement .font5x10 := fun _ => rfl
theorem font5x8 : Statement .font5x8 := fun _ => rfl
theorem init1 : Statement .init1 := fun _ => rfl
theorem init2 : Statement .init2 := fun _ => rfl
theorem clearw : Statement .clearw := fun _ => rfl
theorem homew : Statement .homew := fun _ => rfl
theorem entryw (i : Bool) (s : Bool) : Statement (.entryw i s) := fun _ => rfl
theorem dispw (d : Bool) (c : Bool) (b : Bool) : Statement (.dispw d c b) := fun _ => rfl
theorem funcw (l : Bool) (n : Bool) (f : Bool) : Statement (.funcw l n f) := fun _ => rfl
theorem shlw : Statement .shlw := fun _ => rfl
theorem shrw : Statement .shrw := fun _ => rfl
theorem ddramw (a : BitVec 7) : Statement (.ddramw a) := fun _ => rfl
theorem char (d : Byte) : Statement (.char d) := fun _ => rfl
theorem raw (d : Byte) : Statement (.raw d) := fun _ => rfl
theorem zero : Statement .zero := fun _ => rfl
theorem dhome : Statement .dhome := fun _ => rfl
theorem dclear : Statement .dclear := fun _ => rfl
theorem dnewline : Statement .dnewline := fun _ => rfl
theorem dsetcursor (c : Nat) (r : Nat) : Statement (.dsetcursor c r) := fun _ => rfl
theorem dmessage (text : List Byte) : Statement (.dmessage text) := fun _ => rfl
theorem dclose : Statement .dclose := fun _ => rfl

end Sys2Proof.Laws.Shape
end

