-- ==== Sys2Proof/Laws/Words.lean ====
section
/-! SUPPORT. Words on the wire: the bits of the expander byte under a well-formed pin map (R79, R88),
what a run of words leaves alone, and what the last word shows. -/

namespace Sys2Proof.Machine

/-! ### The expander byte -/

theorem bitAt_getLsbD (v : Bool) (pos k : Nat) (h : k < 8) :
    (bitAt v pos).getLsbD k = (v && decide (pos = k)) := by
  unfold bitAt
  cases v
  · simp
  · have hone : (1#8).getLsbD (k - pos) = decide (k - pos = 0) := by
      have : k - pos < 8 := by omega
      generalize k - pos = j at *
      rcases j with _ | j
      · rfl
      · simp [BitVec.getLsbD, Nat.testBit_succ]
    simp only [BitVec.getLsbD_shiftLeft, if_true, h, hone, decide_true, Bool.true_and]
    by_cases hk : k < pos <;> simp [hk] <;> omega

theorem xByte_getLsbD (p : PinMap) (n : Nibble) (rs bls en : Bool) (k : Nat) (h : k < 8) :
    (xByte p n rs bls en).getLsbD k =
      ((n.getLsbD 0 && decide (p.d4 = k)) || (n.getLsbD 1 && decide (p.d5 = k)) ||
        (n.getLsbD 2 && decide (p.d6 = k)) || (n.getLsbD 3 && decide (p.d7 = k)) ||
        ((rs && decide (p.rs = k)) || (bls && decide (p.bl = k))) ||
        (en && decide (p.en = k))) := by
  simp only [xByte, xMap, xCtl, BitVec.getLsbD_or, bitAt_getLsbD _ _ _ h]

/-- The check of R88, spelt out. -/
structure PinsDistinct (p : PinMap) : Prop where
  lt : p.rs < 8 ∧ p.rw < 8 ∧ p.en < 8 ∧ p.d4 < 8 ∧ p.d5 < 8 ∧ p.d6 < 8 ∧ p.d7 < 8 ∧ p.bl < 8
  rs : p.rs ≠ p.en ∧ p.rs ≠ p.d4 ∧ p.rs ≠ p.d5 ∧ p.rs ≠ p.d6 ∧ p.rs ≠ p.d7 ∧ p.rs ≠ p.bl
  en : p.en ≠ p.d4 ∧ p.en ≠ p.d5 ∧ p.en ≠ p.d6 ∧ p.en ≠ p.d7 ∧ p.en ≠ p.bl
  d4 : p.d4 ≠ p.d5 ∧ p.d4 ≠ p.d6 ∧ p.d4 ≠ p.d7 ∧ p.d4 ≠ p.bl
  d5 : p.d5 ≠ p.d6 ∧ p.d5 ≠ p.d7 ∧ p.d5 ≠ p.bl
  d6 : p.d6 ≠ p.d7 ∧ p.d6 ≠ p.bl
  d7 : p.d7 ≠ p.bl

theorem pinsDistinct_of_wf {c : Cfg} {p : PinMap} {a : Byte} {r : Bool} (h : c.wf = true)
    (hb : c.bus = .i2c p a r) : PinsDistinct p := by
  simp only [Cfg.wf, busCheck, hb, pinMapCheck, distinctPositions, Bool.and_eq_true, List.all_cons,
    List.all_nil, decide_eq_true_eq, bne_iff_ne, Bool.and_true, ne_eq] at h
  obtain ⟨⟨hlt, hrs, hen, h4, h5, h6, h7⟩, -⟩ := h
  exact ⟨hlt, hrs, hen, h4, h5, h6, h7⟩

/-- Every signal's bit of the byte is that signal (R79), and the RW bit is 0 unless another signal
shares it (R80). -/
theorem xByte_bits {p : PinMap} (h : PinsDistinct p) (n : Nibble) (rs bls en : Bool) :
    (xByte p n rs bls en).getLsbD p.en = en ∧ (xByte p n rs bls en).getLsbD p.rs = rs ∧
    (xByte p n rs bls en).getLsbD p.bl = bls ∧
    (xByte p n rs bls en).getLsbD p.d4 = n.getLsbD 0 ∧
    (xByte p n rs bls en).getLsbD p.d5 = n.getLsbD 1 ∧
    (xByte p n rs bls en).getLsbD p.d6 = n.getLsbD 2 ∧
    (xByte p n rs bls en).getLsbD p.d7 = n.getLsbD 3 ∧
    (p.rw ∉ [p.rs, p.en, p.d4, p.d5, p.d6, p.d7, p.bl] →
      (xByte p n rs bls en).getLsbD p.rw = false) := by
  obtain ⟨hlt, hrs, hen, h4, h5, h6, h7⟩ := h
  have get := fun k hk => xByte_getLsbD p n rs bls en k hk
  refine ⟨?_, ?_, ?_, ?_, ?_, ?_, ?_, fun hrw => ?_⟩ <;> rw [get _ (by omega)]
  · simp [hrs, Ne.symm hen.1, Ne.symm hen.2.1, Ne.symm hen.2.2.1, Ne.symm hen.2.2.2.1,
      Ne.symm hen.2.2.2.2]
  · simp [Ne.symm hrs.1, Ne.symm hrs.2.1, Ne.symm hrs.2.2.1, Ne.symm hrs.2.2.2.1,
      Ne.symm hrs.2.2.2.2.1, Ne.symm hrs.2.2.2.2.2]
  · simp [hrs, hen, h4, h5, h6, h7]
  · simp [hrs, hen, Ne.symm h4.1, Ne.symm h4.2.1, Ne.symm h4.2.2.1, Ne.symm h4.2.2.2]
  · simp [hrs, hen, h4, Ne.symm h5.1, Ne.symm h5.2.1, Ne.symm h5.2.2]
  · simp [hrs, hen, h4, h5, Ne.symm h6.1, Ne.symm h6.2]
  · simp [hrs, hen, h4, h5, h6, Ne.symm h7]
  · simp only [List.mem_cons, List.not_mem_nil, or_false, not_or] at hrw
    simp [Ne.symm hrw.1, Ne.symm hrw.2.1, Ne.symm hrw.2.2.1, Ne.symm hrw.2.2.2.1,
      Ne.symm hrw.2.2.2.2.1, Ne.symm hrw.2.2.2.2.2.1, Ne.symm hrw.2.2.2.2.2.2]

/-! ### Runs of words -/

/-- A run that came to its end had no failure: its state is `State.after`. -/
theorem perform_done {es : List Event} {s t : State} (h : perform es s = .done t) :
    t = s.after es := by
  induction es generalizing s with
  | nil => exact (Run.done.inj h).symm
  | cons e es ih =>
    rw [perform_cons] at h
    obtain ⟨hf, hp⟩ | ⟨hf, -, hp⟩ | ⟨x, -, -, hp⟩ | ⟨-, -, hp⟩ := performOne_cases e s <;>
      rw [hp] at h
    · rw [ih h]
      simp [State.after, hf]
    · rw [ih h]
      simp [State.after, hf]
    · simp at h
    · simp at h

/-- What words leave alone beside the registers: the count of free values, and the other bus's
space. -/
structure State.SameOther (s t : State) : Prop where
  draws : t.draws = s.draws
  other : s.OtherSpaceKept t

theorem State.SameOther.refl (s : State) : s.SameOther s :=
  ⟨rfl, rfl, by cases s.cfg.bus <;> simp [State.KeepsLines]⟩

theorem State.SameOther.trans {a b c : State} (hc : b.cfg = a.cfg) (h : a.SameOther b)
    (k : b.SameOther c) : a.SameOther c := by
  refine ⟨k.draws.trans h.draws, k.other.1.trans h.other.1, ?_⟩
  have h2 := h.other.2
  have k2 := k.other.2
  rw [hc] at k2
  cases hb : a.cfg.bus <;> rw [hb] at h2 k2
  · exact ⟨k2.1.trans h2.1, fun l => ⟨(k2.2.1 l).1.trans (h2.2.1 l).1,
      (k2.2.1 l).2.trans (h2.2.1 l).2⟩, k2.2.2.trans h2.2.2⟩
  · exact k2.trans h2

theorem State.sameOther_one {s : State} {e : Event} (he : WordEvent s.cfg e) :
    s.SameOther (s.after [e]) := by
  simp only [State.after]
  refine ⟨by simp; split <;> rfl, ?_, ?_⟩
  · cases e <;> simp [WordEvent] at he <;> simp [okEffect, Event.fallible]
  · cases e <;> simp [WordEvent] at he <;> cases hb : s.cfg.bus <;> (try simp [hb] at he) <;>
      simp [okEffect, Event.fallible, State.KeepsLines]
    rename_i l v h
    refine ⟨fun k => ⟨?_, ?_⟩, fun h => absurd h he⟩ <;> (split <;> first | rfl | simp_all)

/-- The frame of a run of word events on the output side (R50, R52). -/
theorem State.sameOther_after {es : List Event} {s : State} (he : ∀ e ∈ es, WordEvent s.cfg e) :
    s.SameOther (s.after es) := by
  induction es generalizing s with
  | nil => exact State.SameOther.refl s
  | cons e es ih =>
    rw [show e :: es = [e] ++ es from rfl, State.after_append]
    have hc : (State.after [e] s).cfg = s.cfg := State.after_cfg _ _
    exact State.SameOther.trans hc (State.sameOther_one (he e (by simp)))
      (ih (by rw [hc]; exact fun e' h' => he e' (by simp [h'])))

/-- After a word the wire shows it (R36, R81). -/
theorem State.after_wireWord_shows (bls rs : Bool) (data : Byte) (s : State) :
    (s.after (wireWord s.cfg bls rs data)).ShowsWord bls rs data := by
  unfold State.ShowsWord
  rw [State.after_cfg]
  unfold wireWord
  cases s.cfg.bus
  · simp [State.after, okEffect, Event.fallible]
    cases rs <;> simp [Level.ofBit]
  · simp [State.after, okEffect, Event.fallible]

/-- A delay changes nothing the wire shows. -/
theorem State.after_delay_shows {bls rs : Bool} {data : Byte} {n : Nat} {s : State}
    (h : s.ShowsWord bls rs data) : (s.after [.d n]).ShowsWord bls rs data := by
  simpa [State.after, Event.fallible, okEffect, State.ShowsWord] using h

end Sys2Proof.Machine
end

