-- ==== Sys2Proof/Laws/Receiver.lean ====
section
/-! SUPPORT. What one event makes of the reference receiver (R246), said once: by line and by edge on
the parallel bus, by edge on I2C. -/

namespace Sys2Proof.Machine

/-- An event that did not fail is seen. -/
@[simp] theorem Receiver.step_ok (bus : BusCfg) (r : Receiver) (ev : Event) :
    r.step bus { ev := ev, err := none } = r.see bus ev := rfl

/-- A failed event is seen or not, as the next choice says (R108). -/
theorem Receiver.step_err (bus : BusCfg) (r : Receiver) (ev : Event) (x : TErr) :
    r.step bus { ev := ev, err := some x } =
      if r.landed.headD false then { r with landed := r.landed.tail }.see bus ev
      else { r with landed := r.landed.tail } := rfl

/-- No edge: only the pins follow. -/
theorem Receiver.see_steady {bus : BusCfg} {r : Receiver} {ev : Event}
    (h : r.pins.en ≠ .high ∨ (r.pins.after bus ev).en ≠ .low) :
    r.see bus ev = { r with pins := r.pins.after bus ev } := by
  have hno : fallingEdge r.pins (r.pins.after bus ev) = false := by
    unfold fallingEdge
    rcases h with h | h
    · cases he : r.pins.en <;> simp_all
    · cases he : (r.pins.after bus ev).en <;> simp_all
  simp [Receiver.see, hno]

/-- A falling edge: the levels held while EN was high are captured. -/
theorem Receiver.see_falls {bus : BusCfg} {r : Receiver} {ev : Event} (h : r.pins.en = .high)
    (h' : (r.pins.after bus ev).en = .low) :
    r.see bus ev = { r.take r.pins.capture with pins := r.pins.after bus ev } := by
  have hyes : fallingEdge r.pins (r.pins.after bus ev) = true := by simp [fallingEdge, h, h']
  simp [Receiver.see, hyes]

/-- An event that moves no pin is not seen. -/
theorem Receiver.see_still {bus : BusCfg} {r : Receiver} {ev : Event}
    (h : r.pins.after bus ev = r.pins) : r.see bus ev = r := by
  have hno : fallingEdge r.pins r.pins = false := by
    unfold fallingEdge
    cases r.pins.en <;> rfl
  simp [Receiver.see, h, hno]

@[simp] theorem Receiver.see_delay (bus : BusCfg) (r : Receiver) (n : Nat) :
    r.see bus (.d n) = r := Receiver.see_still (by cases bus <;> rfl)

/-- A line other than EN: its pin follows. -/
theorem Receiver.see_line (h : Handles) (r : Receiver) (l : Line) (v : Bool) (hl : l ≠ .en) :
    r.see (.par h) (.w l v) = { r with pins := r.pins.put l (.ofBit v) } := by
  by_cases he : r.pins.en = .high
  · refine Receiver.see_steady (.inr ?_)
    have : (r.pins.put l (.ofBit v)).en = r.pins.en := by
      cases l <;> first | rfl | exact absurd rfl hl
    simp [Pins.after, this, he]
  · exact Receiver.see_steady (.inl he)

@[simp] theorem Receiver.see_rise (h : Handles) (r : Receiver) :
    r.see (.par h) (.w .en true) = { r with pins := { r.pins with en := .high } } :=
  Receiver.see_steady (.inr (by simp [Pins.after, Pins.put, Level.ofBit]))

/-- EN of the parallel bus driven low, with and without an edge (R106(c)). -/
theorem Receiver.see_low (h : Handles) (r : Receiver) (he : r.pins.en ≠ .high) :
    r.see (.par h) (.w .en false) = { r with pins := { r.pins with en := .low } } :=
  Receiver.see_steady (.inl he)

theorem Receiver.see_fall (h : Handles) (r : Receiver) (he : r.pins.en = .high) :
    r.see (.par h) (.w .en false) =
      { r.take r.pins.capture with pins := { r.pins with en := .low } } :=
  Receiver.see_falls he rfl

/-- The pins behind a well-formed expander byte are the signals it was made of (R79, R88). -/
theorem Pins.ofByte_xByte {p : PinMap} (h : PinsDistinct p) (n : Nibble) (rs bls en : Bool) :
    Pins.ofByte p (xByte p n rs bls en) =
      { en := .ofBit en, rs := .ofBit rs, d4 := .ofBit (n.getLsbD 0), d5 := .ofBit (n.getLsbD 1)
        d6 := .ofBit (n.getLsbD 2), d7 := .ofBit (n.getLsbD 3) } := by
  obtain ⟨h1, h2, -, h4, h5, h6, h7, -⟩ := xByte_bits h n rs bls en
  simp only [Pins.ofByte, h1, h2, h4, h5, h6, h7]

end Sys2Proof.Machine
end

