-- ==== Sys2Proof/Tests/Slice0.lean ====
section
/-! SUPPORT. Tests: well-formedness, decoding from words and lines written out from the spec, the spec's
own vectors (`95_test_vectors.md`), and a witness for the hypotheses of every statement. Expected
values are the spec's; each theorem names their source. -/

namespace Sys2Proof.Tests

open Sys2Proof.Machine

/-! ### Helpers -/

/-- The next state of an outcome. -/
def nextOf : Host.Outcome State Fault Refusal → Option State
  | .next t => some t
  | .fault _ => none
  | .refused _ => none

/-- The state after one instruction. -/
def after (i : Instr) (s : State) : Option State := nextOf (exec i s)

/-- The events and the result of one instruction, when it answers a next state. -/
def shown (i : Instr) (s : State) : Option (List Entry × Result) :=
  (after i s).map fun t => (t.trace, t.result)

/-- A constructed block on the parallel bus, before any event. -/
def par : State := { State.reset with life := .ready }

/-- A constructed block on I2C. -/
def i2c (m : PinMap) (bls : Bool) : State :=
  { State.reset with life := .ready, cfg := Cfg.expander m false, bls := bls }

/-- The bytes of one word as `95_test_vectors.md` writes them: a `d(1)` before each, a `d(37)` after
the last. -/
def sent (bytes : List Byte) : List Event := bytes.flatMap (fun b => [.d 1, .x 0x00 b]) ++ [.d 37]

/-- A client of the given geometry on a block. -/
def client (cols rows : Nat) (s : State) : State :=
  { s with cfg := { s.cfg with cols := cols, rows := rows } }

/-- A block whose entry mode is increment, no shift. -/
def ltrOn (s : State) : State := { s with modes := applySetter .entryInc s.modes }

/-- The words the receiver gets, and the client's cursor, after one instruction. -/
def words (i : Instr) (s : State) : Option (List BusWord × Int × Nat) :=
  (after i s).map fun t => ((t.received []).words, t.col, t.row)

/-- What the receiver has captured of `WCHAR 0xAB` when write `k + 1` fails (V-F1). -/
def captured (k : Nat) (landed : List Bool) : Option (List (Option (Bool × Nibble))) :=
  (after (.wchar 0xAB) { par with env := List.replicate k .ok ++ [.err 9] }).map
    fun t => (t.received landed).captures

/-- One line of text, read and decoded. -/
def line (l : String) : Option Instr :=
  match readLine l.toList with
  | .ok (some c) =>
    match decodeCommand c with
    | .ok i => some i
    | .error _ => none
  | _ => none

/-! ### Well-formedness (R8, R88, R100) -/

theorem test_wf_accepts : (Cfg.parallel true).wf = true ∧ (Cfg.parallel false).wf = true ∧
    (Cfg.expander .mjkdz false).wf = true ∧ (Cfg.expander .pcf8574 true).wf = true := by decide

/-- V-F6: `RS = EN`, an entry of 8; and each signal's entry out of range (R88). -/
theorem test_wf_pin_map : (Cfg.expander { PinMap.mjkdz with rs := 4 } false).wf = false ∧
    (Cfg.expander { PinMap.mjkdz with bl := 8 } false).wf = false ∧
    (Cfg.expander { PinMap.mjkdz with rw := 8 } false).wf = false ∧
    (Cfg.expander { PinMap.mjkdz with rs := 8 } false).wf = false ∧
    (Cfg.expander { PinMap.mjkdz with en := 8 } false).wf = false ∧
    (Cfg.expander { PinMap.mjkdz with d4 := 8 } false).wf = false ∧
    (Cfg.expander { PinMap.mjkdz with d5 := 0 } false).wf = false ∧
    (Cfg.expander { PinMap.mjkdz with d6 := 1 } false).wf = false ∧
    (Cfg.expander { PinMap.mjkdz with d7 := 7 } false).wf = false := by decide

/-- "`RW` is never driven, so it need not be distinct" (R88). -/
theorem test_wf_rw_may_coincide :
    (Cfg.expander { PinMap.mjkdz with rw := 6 } false).wf = true := by decide

/-- V-F6: "`RESET` on `PAR` without an `EN` line"; and without each other one (R100). -/
theorem test_wf_lines :
    [{ Handles.six true with rs := false }, { Handles.six true with en := false },
      { Handles.six true with d4 := false }, { Handles.six true with d5 := false },
      { Handles.six true with d6 := false }, { Handles.six true with d7 := false }].all
      (fun h => !({ Cfg.parallel true with bus := .par h } : Cfg).wf) = true := by decide

/-- R8: single-bit masks, disjoint within a group. -/
theorem test_wf_ic :
    [{ IC.default with eInc := 0x01 }, { IC.default with iEntry := 0x02 },
      { IC.default with eShift := 0x00 }, { IC.default with dOn := 0x02 },
      { IC.default with iDisplay := 0x0C }, { IC.default with dBlink := 0x04 },
      { IC.default with f8bit := 0x08 }, { IC.default with iFunction := 0x00 },
      { IC.default with f5x10 := 0x03 }].all
      (fun ic => !({ Cfg.parallel true with ic := ic } : Cfg).wf) = true := by decide

/-- The one instruction with an ill-formed operand, and its refusal (R214(b)). -/
theorem test_wf_instr :
    (Instr.reset (Cfg.expander { PinMap.mjkdz with rs := 4 } false)).wf = false ∧
    exec (.reset (Cfg.expander { PinMap.mjkdz with rs := 4 } false)) State.reset =
      .refused .illFormedConfig := ⟨by decide, rfl⟩

/-! ### Decoding -/

/-- R71, a word written out from every row. -/
theorem test_word_rows :
    decodeWord IC.default 0b000110011 = .init1 ∧ decodeWord IC.default 0b000110010 = .init2 ∧
    decodeWord IC.default 0b000000001 = .clearw ∧ decodeWord IC.default 0b000000010 = .homew ∧
    decodeWord IC.default 0b000000110 = .entryw true false ∧ decodeWord IC.default 0b000000101 = .entryw false true ∧
    decodeWord IC.default 0b000001100 = .dispw true false false ∧
    decodeWord IC.default 0b000001011 = .dispw false true true ∧
    decodeWord IC.default 0b000101000 = .funcw false true false ∧
    decodeWord IC.default 0b000110100 = .funcw true false true := by decide

theorem test_word_rows_2 :
    decodeWord IC.default 0b000011000 = .shlw ∧ decodeWord IC.default 0b000011100 = .shrw ∧
    decodeWord IC.default 0b011000000 = .ddramw 0x40 ∧ decodeWord IC.default 0b110101011 = .char 0xAB ∧
    decodeWord IC.default 0b001000001 = .raw 0x41 ∧ decodeWord IC.default 0b000010000 = .raw 0x10 ∧
    decodeWord IC.default 0b000000000 = .zero := by decide

/-- The same through the bytes of a port item, and the three ways bytes are refused (R70). -/
theorem test_word_bytes :
    decodeItem IC.default (.word [0xAB, 0x01]) = .ok (.char 0xAB) ∧ decodeItem IC.default (.word [0x33, 0x00]) = .ok .init1 ∧
    decodeItem IC.default (.word [0x33]) = .error .truncated ∧
    decodeItem IC.default (.word [0x33, 0x02]) = .error .highBits ∧
    decodeItem IC.default (.word [0x33, 0x00, 0x00]) = .error .trailingBytes := by decide

/-- R8, R70, R71: with another `IC` the rows follow it, and a word no row claims is `RAW` or `CHAR`. -/
theorem test_word_other_ic :
    decodeWord { IC.default with iClear := 0x41 } 0b001000001 = .clearw ∧
    decodeWord { IC.default with iClear := 0x41 } 0b000000001 = .raw 0x01 ∧
    decodeWord { IC.default with eInc := 0x40 } 0b001000101 = .entryw true true := by decide

theorem test_table_words :
    decodeTableWord 9 0x1AB = some (.char 0xAB) ∧ decodeTableWord 16 0x0C0 = some (.ddramw 0x40) ∧
    decodeTableWord 16 0x200 = none := by decide

/-- R89, R91: lines of the spec's programs P1 and P2, a quoted character, a comment, an empty line. -/
theorem test_lines :
    line "WCHAR 0x48" = some (.wchar 0x48) ∧ line "SETCURSOR 0x40" = some (.setcursor 0x40) ∧
    line "WCHAR 'A'" = some (.wchar 0x41) ∧ line "WINSTR 0x0f ; raw" = some (.winstr 0x0F) ∧
    line "APPLY ENTRY_INC DISPLAY_ON LINES_2" = some (.apply [.entryInc, .displayOn, .lines2]) ∧
    readLine "; nothing".toList = .ok none := by decide

theorem test_lines_refused :
    readLine "WCHAR 0x123".toList = .error .badOperandText ∧
    readLine "NOP".toList = .error .unknownMnemonic ∧ line "WCHAR" = none ∧
    line "CLEAR 0x01" = none := by decide

/-- The rows without operands, by their names in the table. -/
theorem test_names_0 :
    line "INIT" = some .init ∧
    line "FLUSH" = some .flush ∧
    line "CLEAR" = some .clear ∧
    line "CLEARR" = some .clearr ∧
    line "HOME" = some .home ∧
    line "SHIFTL" = some .shiftl ∧
    line "SHIFTR" = some .shiftr ∧
    line "DISPLAY_ON" = some .displayOn ∧
    line "DISPLAY_OFF" = some .displayOff ∧
    line "CURSOR_ON" = some .cursorOn := by decide

/-- The rows without operands, by their names in the table. -/
theorem test_names_1 :
    line "CURSOR_OFF" = some .cursorOff ∧
    line "BLINK_ON" = some .blinkOn ∧
    line "BLINK_OFF" = some .blinkOff ∧
    line "BL_ON" = some .blOn ∧
    line "BL_OFF" = some .blOff ∧
    line "CLOSE" = some .close ∧
    line "LTR?" = some .ltr := by decide

/-- The rows without operands, by their names in the table. -/
theorem test_names_2 :
    line "INIT1" = some .init1 ∧
    line "INIT2" = some .init2 ∧
    line "CLEARW" = some .clearw := by decide

/-- The rows without operands, by their names in the table. -/
theorem test_names_3 :
    line "HOMEW" = some .homew ∧
    line "SHLW" = some .shlw ∧
    line "SHRW" = some .shrw ∧
    line "ZERO" = some .zero ∧
    line "DHOME" = some .dhome ∧
    line "DCLEAR" = some .dclear ∧
    line "DNEWLINE" = some .dnewline ∧
    line "DCLOSE" = some .dclose := by decide

/-- The setter-only rows are operands by their names in the table, and no commands (R90, R171). -/
theorem test_setter_names :
    line "APPLY ENTRY_INC ENTRY_DEC SHIFT_ON SHIFT_OFF BUS_8BIT" =
      some (.apply [.entryInc, .entryDec, .shiftOn, .shiftOff, .bus8bit]) ∧
    line "APPLY BUS_4BIT LINES_2 LINES_1 FONT_5X10 FONT_5X8" =
      some (.apply [.bus4bit, .lines2, .lines1, .font5x10, .font5x8]) ∧
    line "ENTRY_INC" = none ∧
    decodeCommand ⟨.font5x8, []⟩ = .error (.setterAlone .font5x8) := by decide

/-- The rows with operands that have no text form, as commands (R71, R89, R196, R200). -/
theorem test_commands :
    decodeCommand ⟨.reset, [.cfg (Cfg.parallel true)]⟩ = .ok (.reset (Cfg.parallel true)) ∧
    decodeCommand ⟨.entryw, [.bit true, .bit false]⟩ = .ok (.entryw true false) ∧
    decodeCommand ⟨.dispw, [.bit true, .bit false, .bit true]⟩ = .ok (.dispw true false true) ∧
    decodeCommand ⟨.funcw, [.bit false, .bit true, .bit false]⟩ = .ok (.funcw false true false) ∧
    decodeCommand ⟨.ddramw, [.addr 0x40]⟩ = .ok (.ddramw 0x40) ∧
    decodeCommand ⟨.char, [.byte 0xAB]⟩ = .ok (.char 0xAB) ∧
    decodeCommand ⟨.raw, [.byte 0x0C]⟩ = .ok (.raw 0x0C) ∧
    decodeCommand ⟨.dsetcursor, [.nat 5, .nat 7]⟩ = .ok (.dsetcursor 5 7) ∧
    decodeCommand ⟨.dmessage, [.text [0x41, 0x0A]]⟩ = .ok (.dmessage [0x41, 0x0A]) ∧
    decodeCommand ⟨.apply, []⟩ = .ok (.apply []) := by decide

/-- The encoder, from the patterns of R71. -/
theorem test_encoder :
    encodeWord (.entryw true true) = some 0b000000111 ∧
    encodeWord (.dispw true false true) = some 0b000001101 ∧
    encodeWord (.funcw false true false) = some 0b000101000 ∧
    encodeWord (.ddramw 0x67) = some 0b011100111 ∧ encodeWord (.char 0xAB) = some 0b110101011 ∧
    encodeWord .zero = some 0b000000000 ∧ encodeWord .clear = none := by decide

/-- R72: an instruction word of every group. -/
theorem test_lcd_groups :
    [0xC0, 0x40, 0x28, 0x18, 0x0C, 0x06, 0x02, 0x01, 0x00].map lcdGroup =
      [.ddramAddress, .cgramAddress, .functionSet, .shift, .displayControl, .entryMode, .returnHome,
        .clearDisplay, .noInstruction] := by decide

/-! ### The parallel bus (V-L1.1, V-P1 to V-P7) -/

/-- V-L1.1, the trace of R102. -/
theorem test_wchar_parallel : shown (.wchar 0xAB) par = some (okEntries
    [.w .rs true, .w .d4 false, .w .d5 true, .w .d6 false, .w .d7 true,
     .d 1, .w .en false, .d 1, .w .en true, .d 1, .w .en false,
     .w .d4 true, .w .d5 true, .w .d6 false, .w .d7 true,
     .d 1, .w .en false, .d 1, .w .en true, .d 1, .w .en false, .d 37], .ok) := by decide

/-- V-P4. -/
theorem test_setcursor_parallel : shown (.setcursor 0x40) par = some (okEntries
    [.w .rs false, .w .d4 false, .w .d5 false, .w .d6 true, .w .d7 true,
     .d 1, .w .en false, .d 1, .w .en true, .d 1, .w .en false,
     .w .d4 false, .w .d5 false, .w .d6 false, .w .d7 false,
     .d 1, .w .en false, .d 1, .w .en true, .d 1, .w .en false, .d 37], .ok) := by decide

/-- V-P6. -/
theorem test_line_image : (after (.wchar 0xAB) par).map (fun t =>
    [t.lines.rs, t.lines.en, t.lines.d4, t.lines.d5, t.lines.d6, t.lines.d7, t.lines.bl].map
      (fun x => x.level)) =
    some [.high, .low, .high, .high, .low, .high, .unknown] := by decide +kernel

/-- V-P7. -/
theorem test_bl_on_parallel : shown .blOn par = some (okEntries [.w .bl false], .ok) ∧
    shown .blOff par = some (okEntries [.w .bl true], .ok) ∧
    shown .blOn { par with cfg := Cfg.parallel false } = some ([], .ok) := by decide

/-- V-L1.6. -/
theorem test_close_parallel : shown .close par = some (okEntries [.close .rs, .close .en, .close .d4,
    .close .d5, .close .d6, .close .d7, .close .bl], .ok) := by decide

theorem test_close_twice : ∃ t, exec .close par = .next t ∧ t.lines.bl.closed = true ∧
    exec .close t = .refused .closed ∧ exec .ltr t = .refused .closed :=
  ⟨_, rfl, rfl, rfl, rfl⟩

/-! ### The expander (V-X2, V-X3) -/

/-- V-X2, `(1,0xAB)` under both maps and both backlight states. -/
theorem test_wchar_expander :
    shown (.wchar 0xAB) (i2c .mjkdz false) =
      some (okEntries (sent [0x4A, 0x5A, 0x4A, 0x4B, 0x5B, 0x4B]), .ok) ∧
    shown (.wchar 0xAB) (i2c .pcf8574 true) =
      some (okEntries (sent [0xA9, 0xAD, 0xA9, 0xB9, 0xBD, 0xB9]), .ok) := by decide

/-- V-X2: the shift words, the raw word and the DDRAM word with the backlight on. -/
theorem test_words_expander :
    shown .shiftl (i2c .mjkdz false) =
      some (okEntries (sent [0x01, 0x11, 0x01, 0x08, 0x18, 0x08]), .ok) ∧
    shown .shiftr (i2c .pcf8574 false) =
      some (okEntries (sent [0x10, 0x14, 0x10, 0xC0, 0xC4, 0xC0]), .ok) ∧
    shown (.winstr 0x0C) (i2c .mjkdz false) =
      some (okEntries (sent [0x00, 0x10, 0x00, 0x0C, 0x1C, 0x0C]), .ok) ∧
    shown (.setcursor 0xC0) (i2c .mjkdz true) =
      some (okEntries (sent [0x8C, 0x9C, 0x8C, 0x80, 0x90, 0x80]), .ok) := by decide

/-- R140, V-C2, R144 on I2C `MJKDZ`. -/
theorem test_init_clear_home :
    shown .init (i2c .mjkdz false) = some (okEntries
      (sent [0x03, 0x13, 0x03, 0x03, 0x13, 0x03] ++ sent [0x03, 0x13, 0x03, 0x02, 0x12, 0x02]), .ok) ∧
    shown .clear (i2c .mjkdz false) = some (okEntries
      (sent [0x00, 0x10, 0x00, 0x01, 0x11, 0x01] ++ [.d 1520]), .ok) ∧
    shown .home (i2c .mjkdz false) = some (okEntries
      (sent [0x00, 0x10, 0x00, 0x02, 0x12, 0x02] ++ [.d 1520]), .ok) := by decide

/-- V-X3. -/
theorem test_bl_expander :
    (after .blOn (i2c .pcf8574 false)).map (fun t => (t.bls, t.trace)) =
      some (true, okEntries (sent [0x08, 0x0C, 0x08, 0x08, 0x0C, 0x08])) ∧
    (after .blOff (i2c .mjkdz true)).map (fun t => (t.bls, t.trace)) =
      some (false, okEntries (sent [0x00, 0x10, 0x00, 0x00, 0x10, 0x00])) := by decide

/-- R128. -/
theorem test_close_expander : (after .close (i2c .mjkdz false)).map (fun t => (t.trace, t.xc)) =
    some (okEntries [.xclose], true) := by decide

/-- V-X2: the bus words themselves. -/
theorem test_bus_words :
    shown (.funcw false true false) (i2c .mjkdz false) =
      some (okEntries (sent [0x02, 0x12, 0x02, 0x08, 0x18, 0x08]), .ok) ∧
    shown (.dispw true true true) (i2c .pcf8574 false) =
      some (okEntries (sent [0x00, 0x04, 0x00, 0xF0, 0xF4, 0xF0]), .ok) ∧
    shown (.entryw true false) (i2c .mjkdz false) =
      some (okEntries (sent [0x00, 0x10, 0x00, 0x06, 0x16, 0x06]), .ok) ∧
    shown (.ddramw 0x00) (i2c .mjkdz false) =
      some (okEntries (sent [0x08, 0x18, 0x08, 0x00, 0x10, 0x00]), .ok) := by decide

theorem test_bus_words_2 :
    shown .init1 (i2c .mjkdz false) = shown (.winstr 0x33) (i2c .mjkdz false) ∧
    shown .init2 (i2c .mjkdz false) =
      some (okEntries (sent [0x03, 0x13, 0x03, 0x02, 0x12, 0x02]), .ok) ∧
    shown .clearw (i2c .mjkdz true) =
      some (okEntries (sent [0x80, 0x90, 0x80, 0x81, 0x91, 0x81]), .ok) ∧
    shown .homew (i2c .pcf8574 false) =
      some (okEntries (sent [0x00, 0x04, 0x00, 0x20, 0x24, 0x20]), .ok) ∧
    shown .shlw (i2c .mjkdz false) = shown .shiftl (i2c .mjkdz false) ∧
    shown .shrw (i2c .mjkdz false) = shown .shiftr (i2c .mjkdz false) := by decide

theorem test_bus_words_3 :
    shown (.char 0x5A) (i2c .mjkdz false) =
      some (okEntries (sent [0x45, 0x55, 0x45, 0x4A, 0x5A, 0x4A]), .ok) ∧
    shown (.raw 0x0F) (i2c .mjkdz false) =
      some (okEntries (sent [0x00, 0x10, 0x00, 0x0F, 0x1F, 0x0F]), .ok) ∧
    shown .zero (i2c .mjkdz true) = shown .blOn (i2c .mjkdz true) := by decide

/-! ### Mode registers (V-M1 to V-M5) -/

/-- V-M2, the words by the receiver (V-M1). -/
theorem test_apply : words (.apply [.entryInc, .displayOn, .lines2]) par =
    some ([⟨false, 0x06⟩, ⟨false, 0x0C⟩, ⟨false, 0x28⟩], 0, 0) := by decide +kernel

theorem test_apply_all : words (.apply [.bus8bit, .lines2, .font5x10, .cursorOn, .cursorOff]) par =
    some ([⟨false, 0x04⟩, ⟨false, 0x08⟩, ⟨false, 0x3C⟩], 0, 0) := by decide +kernel

/-- R169. -/
theorem test_flush : words .flush par =
    some ([⟨false, 0x04⟩, ⟨false, 0x08⟩, ⟨false, 0x20⟩], 0, 0) := by decide +kernel

/-- V-M4. -/
theorem test_clearr : words .clearr par =
    some ([⟨false, 0x01⟩, ⟨false, 0x04⟩, ⟨false, 0x08⟩, ⟨false, 0x20⟩], 0, 0) := by decide +kernel

/-- V-M3, one toggle after another from `DM = (0,0,0)`. -/
theorem test_toggles :
    words .displayOn par = some ([⟨false, 0x0C⟩], 0, 0) ∧
    words .cursorOn { par with modes := applySetter .displayOn par.modes } =
      some ([⟨false, 0x0E⟩], 0, 0) ∧
    words .blinkOn { par with modes := applySetters [.displayOn, .cursorOn] par.modes } =
      some ([⟨false, 0x0F⟩], 0, 0) ∧
    words .cursorOff { par with modes := applySetters [.displayOn, .cursorOn, .blinkOn] par.modes } =
      some ([⟨false, 0x0D⟩], 0, 0) ∧
    words .displayOff { par with modes := applySetters [.displayOn, .blinkOn] par.modes } =
      some ([⟨false, 0x09⟩], 0, 0) ∧
    words .blinkOff par = some ([⟨false, 0x08⟩], 0, 0) := by decide +kernel

/-- R161, R163: each setter of the entry and function registers, from the other value. -/
theorem test_setters :
    (after .entryInc par).map (fun t => (t.modes.em, t.trace)) = some (⟨true, false⟩, []) ∧
    (after .entryDec (ltrOn par)).map (fun t => t.modes.em) = some ⟨false, false⟩ ∧
    (after .shiftOn par).map (fun t => t.modes.em) = some ⟨false, true⟩ ∧
    (after .shiftOff par).map (fun t => t.modes.em) = some ⟨false, false⟩ ∧
    (after .bus8bit par).map (fun t => t.modes.fm) = some ⟨true, false, false⟩ ∧
    (after .bus4bit par).map (fun t => t.modes.fm) = some ⟨false, false, false⟩ ∧
    (after .lines2 par).map (fun t => t.modes.fm) = some ⟨false, true, false⟩ ∧
    (after .lines1 par).map (fun t => t.modes.fm) = some ⟨false, false, false⟩ ∧
    (after .font5x10 par).map (fun t => t.modes.fm) = some ⟨false, false, true⟩ ∧
    (after .font5x8 par).map (fun t => t.modes.fm) = some ⟨false, false, false⟩ := by decide +kernel

/-- V-L1.3; and R40: `LTR` is false when `RESET` begins. -/
theorem test_ltr :
    shown .ltr State.reset = some ([], .value false) ∧ shown .ltr (ltrOn par) = some ([], .value true) ∧
    (after .ltr { par with modes := applySetters [.shiftOn] par.modes }).map (fun t => t.result) =
      some (.value true) ∧
    (after .ltr { par with modes := applySetters [.shiftOn, .entryInc] par.modes }).map
      (fun t => t.result) = some (.value false) := by decide +kernel

/-! ### Failures (V-F1 to V-F7) -/

/-- V-F2 at byte 3, and what `XP` becomes. -/
theorem test_wchar_fails :
    (after (.wchar 0xAB) { i2c .mjkdz false with env := [.ok, .ok, .err 9, .err 8] }).map
      (fun t => (t.trace, t.result, t.xp, t.env)) =
    some (okEntries [.d 1, .x 0 0x4A, .d 1, .x 0 0x5A, .d 1] ++ [⟨.x 0 0x4A, some 9⟩], .err 9, .unknown,
      [.err 8]) := by decide +kernel

/-- V-F1 at `k = 8`. -/
theorem test_wchar_fails_parallel :
    (after (.wchar 0xAB) { par with env := List.replicate 7 .ok ++ [.err 9] }).map
      (fun t => (t.lines.en.level, t.trace.length, t.result)) = some (.unknown, 11, .err 9) := by decide +kernel

/-- V-F1 at `k = 8`, 9 and 15, for both readings of the failed write: `(1,0xA)` "may or may not" have
been captured; it only; it "and perhaps `(1,0xB)`". -/
theorem test_failed_word_received :
    captured 7 [false] = some [] ∧ captured 7 [true] = some [some (true, 0xA)] ∧
    captured 8 [false] = some [some (true, 0xA)] := by decide +kernel

theorem test_failed_word_received_2 :
    captured 14 [false] = some [some (true, 0xA)] ∧
    captured 14 [true] = some [some (true, 0xA), some (true, 0xB)] := by decide +kernel

/-- R244, R126: after byte 3 failed and left EN high, the next word's first byte is a latching edge. -/
theorem test_left_enable_high :
    (((after (.wchar 0xAB) { i2c .mjkdz false with env := [.ok, .ok, .err 9] }).bind
      (after (.wchar 0x41))).map fun t => (t.received []).captures) =
    some [some (true, 0xA), some (true, 0x4), some (true, 0x1)] := by decide +kernel

/-- V-F3. -/
theorem test_apply_fails :
    (after (.apply [.entryInc, .displayOn])
        { i2c .mjkdz false with env := List.replicate 7 .ok ++ [.err 9] }).map
      (fun t => (t.trace, t.result, t.modes.em, t.modes.dm)) =
    some (okEntries (sent [0x00, 0x10, 0x00, 0x06, 0x16, 0x06] ++ [.d 1, .x 0 0x00, .d 1]) ++
      [⟨.x 0 0x10, some 9⟩], .err 9, ⟨true, false⟩, ⟨true, false, false⟩) := by decide +kernel

/-- V-F5, but for the failing line itself, which R35 leaves unspecified. -/
theorem test_close_fails :
    (after .close { par with env := [.ok, .ok, .err 9] }).map
      (fun t => (t.trace, t.lines.rs.closed, t.lines.en.closed, t.lines.d5.closed, t.closed)) =
    some (okEntries [.close .rs, .close .en] ++ [⟨.close .d4, some 9⟩], true, true, false, true) := by decide +kernel

/-- R226. -/
theorem test_hang : exec (.wchar 0x41) { par with env := [.ok, .never] } = .fault .hang := rfl

/-! ### Reset (V-R1 to V-R3, V-F7) -/

/-- V-R1 and R232 under `MJKDZ`. -/
theorem test_reset_expander :
    (after (.reset (Cfg.expander .mjkdz false)) State.reset).map (fun t => (t.trace, t.life)) =
    some (okEntries (sent [0x03, 0x13, 0x03, 0x03, 0x13, 0x03] ++
      sent [0x03, 0x13, 0x03, 0x02, 0x12, 0x02] ++ sent [0x00, 0x10, 0x00, 0x04, 0x14, 0x04] ++
      sent [0x00, 0x10, 0x00, 0x08, 0x18, 0x08] ++ sent [0x02, 0x12, 0x02, 0x00, 0x10, 0x00]),
      .ready) := by decide +kernel

/-- V-R2, V-L1.2: the seven directions first, then five words. -/
theorem test_reset_parallel :
    (after (.reset { Cfg.parallel true with ctorSetters := [.entryInc, .displayOn, .lines2] })
        State.reset).map (fun t => (t.trace.take 7, (t.received []).words)) =
    some (okEntries [.dir .rs, .dir .en, .dir .d4, .dir .d5, .dir .d6, .dir .d7, .dir .bl],
      [⟨false, 0x33⟩, ⟨false, 0x32⟩, ⟨false, 0x06⟩, ⟨false, 0x0C⟩, ⟨false, 0x28⟩]) := by decide +kernel

/-! ### The client (V-L1.4, V-L1.5, V-D1 to V-D5, P4) -/

/-- V-D1: the row is clamped, the column is not. -/
theorem test_dsetcursor :
    words (.dsetcursor 5 7) par = some ([⟨false, 0xC5⟩], 5, 1) ∧
    words (.dsetcursor 20 0) par = some ([⟨false, 0x94⟩], 20, 0) ∧
    words (.dsetcursor 19 3) (client 20 4 par) = some ([⟨false, 0xE7⟩], 19, 3) ∧
    words (.dsetcursor 0 2) (client 16 4 par) = some ([⟨false, 0x90⟩], 0, 2) := by decide +kernel

/-- V-L1.4. -/
theorem test_dmessage : words (.dmessage [0x41, 0x42, 0x0A, 0x43]) (client 4 2 (ltrOn par)) =
    some ([⟨true, 0x41⟩, ⟨true, 0x42⟩, ⟨false, 0xC0⟩, ⟨true, 0x43⟩], 1, 1) := by decide +kernel

/-- P4, steps 3 to 8: right to left, from the last column. -/
theorem test_dmessage_rtl : words (.dmessage [0x41, 0x42, 0x43, 0x44, 0x45])
    { client 4 2 par with col := 3 } =
    some ([⟨true, 0x41⟩, ⟨true, 0x42⟩, ⟨true, 0x43⟩, ⟨true, 0x44⟩, ⟨false, 0xC3⟩, ⟨true, 0x45⟩],
      2, 1) := by decide +kernel

/-- R195's worked example, and the clamp on the last row. -/
theorem test_dnewline :
    words .dnewline { client 20 4 (ltrOn par) with col := 7, row := 1 } =
      some ([⟨false, 0x94⟩], 0, 2) ∧
    words .dnewline { par with row := 1 } = some ([⟨false, 0xCF⟩], 15, 1) := by decide +kernel

/-- R194's worked example, and V-D5 left to right. -/
theorem test_dclear :
    words .dclear { par with modes := applySetters [.displayOn, .lines2] par.modes } =
      some ([⟨false, 0x01⟩, ⟨false, 0x04⟩, ⟨false, 0x0C⟩, ⟨false, 0x28⟩, ⟨false, 0x8F⟩], 15, 0) ∧
    words .dclear { ltrOn par with col := 3, row := 1 } =
      some ([⟨false, 0x01⟩, ⟨false, 0x06⟩, ⟨false, 0x08⟩, ⟨false, 0x20⟩], 0, 0) := by decide +kernel

/-- V-D5. -/
theorem test_dhome : words .dhome { par with col := 2, row := 1 } =
    some ([⟨false, 0x02⟩], 0, 0) := by decide +kernel

/-- R201. -/
theorem test_dclose :
    shown .dclose { i2c .mjkdz false with cfg := { Cfg.expander .mjkdz false with ownsBlh := true } } =
      some (okEntries [.xclose, .closeBlh], .ok) ∧
    shown .dclose (i2c .mjkdz false) = some (okEntries [.xclose], .ok) := by decide +kernel

/-! ### Steps -/

/-- A line of P1 put on the port and run. -/
theorem test_step : (nextOf (step { par with port := [.command ⟨.wchar, [.byte 0x48]⟩] })).map
    (fun t => (t.port, (t.received []).words)) = some ([], [⟨true, 0x48⟩]) := by decide +kernel

/-- The first instruction after reset, as the host offers it. -/
theorem test_first_word :
    (nextOf (step (State.reset.withFetchWord 9 0x1AB))).map
      (fun t => ((t.received []).words.getLast?, t.result)) =
    some (some ⟨true, 0xAB⟩, .ok) := by decide +kernel

/-! ### Witnesses: the hypotheses of every statement can be met -/

theorem witness_encoded_word : encodeWord (.ddramw 0x7F) = some 0b011111111 ∧
    encodeWord (.raw 0x01) = some 0b000000001 ∧ decodeWord IC.default 0b000000001 ≠ .raw 0x01 := by decide

theorem witness_decoded_word : icCheck State.reset.cfg.ic = true ∧
    icCheck { IC.default with eInc := 0x40, iClear := 0x00 } = true ∧
    (0x1FF : WordBits).getLsbD 8 = true ∧ (0x0FF : WordBits).getLsbD 8 = false := by decide

theorem witness_step_runs :
    ({ par with port := [.command ⟨.clear, []⟩] } : State).port = [.command ⟨.clear, []⟩] ∧
    decodeItem IC.default (.command ⟨.clear, []⟩) = .ok .clear ∧ decodeItem IC.default (.word [0x00, 0x00]) = .ok .zero := by
  decide

theorem witness_step_idle : State.reset.port = [] ∧
    ({ par with port := [.word []] } : State).port = [.word []] ∧
    decodeItem IC.default (.word []) = .error .truncated := by decide

theorem witness_reset : State.reset.closed = false ∧ State.reset.life ≠ .failed ∧
    (Cfg.parallel true).wf = true ∧ (Cfg.expander .mjkdz true).wf = true ∧ State.reset.AllOk := by
  decide

theorem witness_reset_next : State.reset.AllOk ∧
    (∃ t, exec (.reset (Cfg.parallel true)) State.reset = .next t) ∧
    ∃ t, exec (.reset (Cfg.expander .pcf8574 false)) State.reset = .next t :=
  ⟨by decide, ⟨_, rfl⟩, ⟨_, rfl⟩⟩

theorem witness_reset_refusals :
    ({ par with closed := true } : State).closed = true ∧
    (({ par with life := .failed } : State).closed = false ∧
      ({ par with life := .failed } : State).life = .failed) ∧
    State.reset.closed = false ∧ State.reset.life ≠ .failed ∧
    (Cfg.expander { PinMap.mjkdz with rw := 8 } false).wf = false := by decide

theorem witness_failed_reset : ∃ t,
    exec (.reset (Cfg.expander .mjkdz false)) { State.reset with env := [.err 3] } = .next t ∧
    t.result = .err 3 ∧ isClient .clear = false ∧ Instr.clear ≠ .ltr := ⟨_, rfl, rfl, rfl, by simp⟩

theorem witness_ready : par.Ready ∧ par.AllOk ∧ (i2c .mjkdz true).Ready ∧ (i2c .mjkdz true).AllOk := by
  decide

/-- `oneWord` names eighteen rows. -/
theorem witness_one_word : oneWord par.cfg.ic (.setcursor 0xFF) = some (false, 0xFF) ∧
    oneWord par.cfg.ic (.char 0x00) = some (true, 0x00) ∧
    oneWord par.cfg.ic .zero = some (false, 0x00) ∧ par.Ready ∧ par.AllOk := by decide

theorem witness_toggle : toggleSetter .blinkOff = some .blinkOff ∧ par.Ready ∧ par.AllOk := by decide

theorem witness_setter : setterRow .font5x8 = some .font5x8 ∧ par.Ready := by decide

theorem witness_setter_algebra : setterFlag .entryInc = setterFlag .entryDec ∧
    setterFlag .entryInc ≠ setterFlag .shiftOn ∧ Setter.font5x8 ∈ offSetters := by decide

theorem witness_backlight : par.cfg.bus = .par (Handles.six true) ∧
    ({ par with cfg := Cfg.parallel false } : State).cfg.bus = .par (Handles.six false) ∧
    (i2c .mjkdz true).cfg.bus = .i2c .mjkdz 0x00 false ∧ par.Ready ∧ par.AllOk ∧
    (i2c .mjkdz true).Ready ∧ (i2c .mjkdz true).AllOk := by decide

theorem witness_client : par.Ready ∧ par.AllOk ∧ par.GeometryOk ∧ (client 1 4 par).GeometryOk := by
  decide

theorem witness_row_offset : (20 : Nat) ≠ 16 ∧ (3 : Nat) < 4 := by decide

theorem witness_failure_ends :
    (∃ t, exec .clear par = .next t ∧ t.result = .ok) ∧
    ∃ t, exec .clear { par with env := [.err 3] } = .next t ∧ t.result = .err 3 :=
  ⟨⟨_, rfl, rfl⟩, ⟨_, rfl, rfl⟩⟩

/-- The first and the last write of a word, on each bus. -/
theorem witness_word_fails :
    oneWord par.cfg.ic .shiftl = some (false, 0x18) ∧ par.Ready ∧
    ({ par with env := [.err 3] } : State).env = List.replicate 0 .ok ++ .err 3 :: [] ∧
    ({ par with env := List.replicate 14 .ok ++ .err 3 :: [.ok] } : State).env =
      List.replicate 14 .ok ++ .err 3 :: [.ok] ∧
    14 < wordWrites par.cfg.bus ∧ (i2c .mjkdz false).Ready ∧
    5 < wordWrites (i2c .mjkdz false).cfg.bus := by decide

theorem witness_hang : oneWord par.cfg.ic .shiftl = some (false, 0x18) ∧
    ({ par with env := [.never] } : State).Ready ∧
    ({ par with env := [.never] } : State).env = List.replicate 0 .ok ++ .never :: [] ∧
    0 < wordWrites par.cfg.bus := by decide

/-- The last release of `CLOSE`, the last write of `CLEARR`, the last event of `DCLOSE`. -/
theorem witness_hang_any :
    (∃ t, exec .close { par with env := [] } = .next t ∧ t.trace = par.trace ++ t.trace ∧
      6 < (t.trace.filter fun e => e.ev.fallible).length) ∧
    (∃ t, exec .clearr { i2c .mjkdz false with env := [] } = .next t ∧
      t.trace = (i2c .mjkdz false).trace ++ t.trace ∧
      23 < (t.trace.filter fun e => e.ev.fallible).length) ∧
    ∃ t, exec .dclose { par with env := [] } = .next t ∧ t.trace = par.trace ++ t.trace ∧
      0 < (t.trace.filter fun e => e.ev.fallible).length :=
  ⟨⟨_, rfl, rfl, by decide⟩, ⟨_, rfl, rfl, by decide⟩, ⟨_, rfl, rfl, by decide⟩⟩

theorem witness_answers : ({ par with env := [.err 3, .ok] } : State).Answers := by decide

theorem witness_no_rollback :
    (∃ t, exec (.apply [.entryInc]) { par with env := [.err 3] } = .next t) ∧
    (toggleSetter .displayOn = some .displayOn ∧
      ∃ t, exec .displayOn { par with env := [.err 3] } = .next t) ∧
    (i2c .mjkdz false).cfg.bus = .i2c .mjkdz 0x00 false ∧
    (∃ t, exec .blOn { i2c .mjkdz false with env := [.err 3] } = .next t) ∧
    ∃ t, exec .blOff { i2c .mjkdz false with env := [.err 3] } = .next t :=
  ⟨⟨_, rfl⟩, ⟨rfl, ⟨_, rfl⟩⟩, rfl, ⟨_, rfl⟩, ⟨_, rfl⟩⟩

/-- The first and the last line. -/
theorem witness_partial_close :
    par.Ready ∧ par.cfg.bus = .par (Handles.six true) ∧
    presentLines (Handles.six true) = [] ++ .rs :: [.en, .d4, .d5, .d6, .d7, .bl] ∧
    presentLines (Handles.six true) = [.rs, .en, .d4, .d5, .d6, .d7] ++ .bl :: [] ∧
    ({ par with env := [.err 3] } : State).env = List.replicate 0 .ok ++ .err 3 :: [] ∧
    ({ par with env := [.ok, .ok, .ok, .ok, .ok, .ok, .err 3] } : State).env =
      List.replicate 6 .ok ++ .err 3 :: [] := by decide

theorem witness_block_refusals :
    isClient .close = false ∧ Instr.close ≠ .ltr ∧ ({ par with closed := true } : State).closed = true ∧
    State.reset.closed = false ∧ State.reset.life = .unbuilt ∧
    ({ par with life := .failed } : State).life = .failed := by decide

theorem witness_not_reset : ∀ c, Instr.close ≠ .reset c := by simp

theorem witness_geometry : isClient .dhome = true ∧ (client 0 2 par).cfg.cols = 0 ∧
    (client 16 0 par).cfg.rows = 0 ∧ 4 < (client 16 5 par).cfg.rows := by decide

theorem witness_client_refusals : isClient .dhome = true ∧ isClient (.dmessage []) = true ∧
    Instr.dmessage [0x41] ≠ .dmessage [] ∧ State.reset.GeometryOk ∧ State.reset.closed = false ∧
    State.reset.life = .unbuilt ∧ ({ par with closed := true } : State).GeometryOk ∧
    ({ par with life := .failed } : State).GeometryOk := by decide

theorem witness_after_close : (∃ t, exec .close par = .next t) ∧
    (∃ t, exec .dclose { par with env := [.err 3] } = .next t) ∧
    (∃ t, exec (.dmessage []) { par with closed := true } = .next t) ∧
    ({ par with closed := true } : State).closed = true ∧ isClient .close = false :=
  ⟨⟨_, rfl⟩, ⟨_, rfl⟩, ⟨_, rfl⟩, rfl, rfl⟩

theorem witness_modes_kept : writesModes (.winstr 0x0F) = false ∧ writesModes .clear = false ∧
    ∃ t, exec (.winstr 0x0F) par = .next t := ⟨rfl, rfl, ⟨_, rfl⟩⟩

/-- A step that writes the entry flags, and one that writes a display flag. -/
theorem witness_modes_step :
    (∃ t, step { par with port := [.command ⟨.apply, [.setter .entryInc]⟩] } = .next t ∧
      t.modes ≠ par.modes) ∧
    ∃ t, step { par with port := [.command ⟨.displayOn, []⟩] } = .next t ∧ t.modes ≠ par.modes :=
  ⟨⟨_, rfl, by decide⟩, ⟨_, rfl, by decide⟩⟩

theorem witness_bls_kept : (∃ t, exec .blOn par = .next t) ∧ par.cfg.bus = .par (Handles.six true) ∧
    (∀ c, Instr.blOn ≠ .reset c) ∧ Instr.clear ≠ .blOn ∧ Instr.clear ≠ .blOff ∧
    ∃ t, exec .clear (i2c .mjkdz true) = .next t :=
  ⟨⟨_, rfl⟩, rfl, by simp, by simp, by simp, ⟨_, rfl⟩⟩

theorem witness_cursor_kept : isClient .home = false ∧ (∃ t, exec .home par = .next t) ∧
    ∃ t, exec .dclose par = .next t := ⟨rfl, ⟨_, rfl⟩, ⟨_, rfl⟩⟩

theorem witness_kept : (∃ t, exec .flush par = .next t) ∧ (∀ c, Instr.flush ≠ .reset c) ∧
    Instr.flush ≠ .close ∧ Instr.flush ≠ .dclose ∧ Instr.flush ≠ .blOn ∧ Instr.flush ≠ .blOff ∧
    ∃ t, exec .flush (i2c .mjkdz true) = .next t :=
  ⟨⟨_, rfl⟩, by simp, by simp, by simp, by simp, by simp, ⟨_, rfl⟩⟩

theorem witness_same_inputs :
    par.SameInputs { par with trace := [⟨.d 1, none⟩], xp := .known 0x10, result := .err 3 } ∧
    (∃ t, exec .ltr par = .next t) ∧ (∃ r, exec .clear State.reset = .refused r) ∧
    ∃ f, exec .zero { par with env := [.never] } = .fault f :=
  ⟨by constructor <;> rfl, ⟨_, rfl⟩, ⟨_, rfl⟩, ⟨_, rfl⟩⟩

/-- An operation, and a `RESET` that fails at its second byte. -/
theorem witness_expander_bytes :
    (PinMap.pcf8574.rw ∉ [PinMap.pcf8574.rs, PinMap.pcf8574.en, PinMap.pcf8574.d4, PinMap.pcf8574.d5,
      PinMap.pcf8574.d6, PinMap.pcf8574.d7, PinMap.pcf8574.bl]) ∧
    (∃ t, exec .zero (i2c .pcf8574 true) = .next t ∧ t.cfg.bus = .i2c .pcf8574 0x00 false ∧
      t.cfg.wf = true ∧ t.trace = (i2c .pcf8574 true).trace ++ t.trace ∧
      ({ ev := .x 0x00 0x08, err := none } : Entry) ∈ t.trace) ∧
    ∃ t, exec (.reset (Cfg.expander .mjkdz true)) { State.reset with env := [.ok, .err 3] } = .next t ∧
      t.cfg.bus = .i2c .mjkdz 0x00 true ∧ t.cfg.wf = true ∧
      t.trace = State.reset.trace ++ t.trace ∧
      ({ ev := .x 0x00 0x93, err := some 3 } : Entry) ∈ t.trace :=
  ⟨by decide, ⟨_, rfl, rfl, rfl, rfl, by decide⟩, ⟨_, rfl, rfl, rfl, rfl, by decide⟩⟩

theorem witness_invariants : LifeCoherent par ∧
    (∃ t, step State.reset = .next t) ∧
    ∃ t, step { par with port := [.command ⟨.clear, []⟩] } = .next t :=
  ⟨⟨by decide, by decide⟩, ⟨_, rfl⟩, ⟨_, rfl⟩⟩

/-- The trace of a state after a word and the state itself agree. -/
theorem witness_wire_follows : ∃ t, exec .close (i2c .mjkdz true) = .next t ∧ WireFollowsTrace t :=
  ⟨_, rfl, ⟨fun l => by cases l <;> decide, by decide, by decide⟩⟩

/-- Both buses, constructed; and the state after reset. -/
theorem witness_enable_rests :
    EnableRests { par with lines := par.lines.put .en ⟨.out, .low, false⟩ } ∧ LifeCoherent par ∧
    EnableRests { i2c .mjkdz true with xp := .known 0x80 } ∧ LifeCoherent (i2c .mjkdz true) :=
  ⟨fun _ => ⟨by decide, fun _ => rfl⟩, ⟨by decide, by decide⟩,
    fun _ => ⟨by decide, fun _ => ⟨_, rfl, by decide⟩⟩, by decide, by decide⟩

theorem witness_receiver : oneWord par.cfg.ic (.wchar 0xAB) = some (true, 0xAB) ∧ par.Ready ∧
    par.AllOk ∧ par.cfg.wf = true ∧ ReceiverAtRest [] par ∧ par.GeometryOk ∧
    ReceiverAtRest [true] (i2c .mjkdz true) :=
  ⟨by decide, by decide, by decide, by decide, ⟨rfl, by decide⟩, by decide, ⟨rfl, by decide⟩⟩

/-- Each reading at the first and the last write, on each bus. -/
theorem witness_failed_word :
    ReceiverAtRest [true] { par with env := [.err 3] } ∧
    ReceiverAtRest [] { i2c .mjkdz true with env := List.replicate 5 .ok ++ .err 3 :: [] } ∧
    ({ par with env := [.err 3] } : State).env = List.replicate 0 .ok ++ .err 3 :: [] ∧
    0 < wordWrites par.cfg.bus ∧ 5 < wordWrites (i2c .mjkdz true).cfg.bus ∧ par.cfg.wf = true :=
  ⟨⟨rfl, by decide⟩, ⟨rfl, by decide⟩, rfl, by decide, by decide, by decide⟩

/-- A block whose last word stopped after its first nibble, and one left with EN high. -/
theorem witness_half_sent :
    (∃ t, exec (.wchar 0xAB) { par with env := List.replicate 8 .ok ++ [.err 3] } = .next t ∧
      t.Ready ∧ t.AllOk ∧ t.cfg.wf = true ∧
      (t.received []).half = some (some (true, 0xA)) ∧ (t.received []).pins.en ≠ .high) ∧
    ∃ t, exec (.wchar 0xAB) { i2c .mjkdz false with env := [.ok, .ok, .err 3] } = .next t ∧
      t.Ready ∧ t.AllOk ∧ t.cfg.wf = true ∧ (t.received []).pins.en = .high :=
  ⟨⟨_, rfl, by decide, by decide, rfl, by decide, by decide⟩,
    ⟨_, rfl, by decide, by decide, rfl, by decide⟩⟩

theorem witness_bring_up : State.reset.closed = false ∧ State.reset.life ≠ .failed ∧
    State.reset.trace = [] ∧ State.reset.AllOk ∧ (Cfg.expander .pcf8574 true).wf = true := by decide

theorem witness_durations : par.Ready ∧ par.AllOk ∧ StandardDelays par.cfg ∧
    (oneWord par.cfg.ic .shrw).isSome ∧ (toggleSetter .cursorOn).isSome ∧
    StandardDelays (Cfg.expander .mjkdz false) ∧ State.reset.closed = false ∧
    State.reset.life ≠ .failed := by decide

end Sys2Proof.Tests
end

section
/-! SUPPORT and proof of O52: the wire as a function of the trace (R12), one appended entry at a time. -/

namespace Sys2Proof.Machine

/-! ### What one more entry makes of the wire -/

@[simp] theorem levelOf_append_entry (l : Line) (t : List Entry) (e : Entry) :
    levelOf l (t ++ [e]) = levelStep l (levelOf l t) e := by simp [levelOf]

@[simp] theorem dirOf_append_entry (l : Line) (t : List Entry) (e : Entry) :
    dirOf l (t ++ [e]) = dirStep l (dirOf l t) e := by simp [dirOf]

@[simp] theorem closedOf_append_entry (l : Line) (t : List Entry) (e : Entry) :
    closedOf l (t ++ [e]) = closedStep l (closedOf l t) e := by simp [closedOf]

@[simp] theorem imageOf_append_entry (t : List Entry) (e : Entry) :
    imageOf (t ++ [e]) = imageStep (imageOf t) e := by simp [imageOf]

@[simp] theorem releasedOf_append_entry (t : List Entry) (e : Entry) :
    releasedOf (t ++ [e]) = releasedStep (releasedOf t) e := by simp [releasedOf]

/-- A value is the one given, where one is given at all (R33, R35 leave some unspecified). -/
def Agrees {α : Type} (v : α) (o : Option α) : Prop := ∀ w, o = some w → v = w

@[simp] theorem agrees_none {α : Type} (v : α) : Agrees v none := nofun

@[simp] theorem agrees_some {α : Type} (v w : α) : Agrees v (some w) ↔ v = w := by simp [Agrees]

/-- The state of a line is what the trace says of it (R33 to R35). -/
def LineFollows (l : Line) (x : LineState) (t : List Entry) : Prop :=
  x.level = levelOf l t ∧ Agrees x.dir (dirOf l t) ∧ Agrees x.closed (closedOf l t)

theorem wireFollowsTrace_iff (s : State) :
    WireFollowsTrace s ↔ (∀ l, LineFollows l (s.lines.get l) s.trace) ∧
      s.xp = imageOf s.trace ∧ s.xc = releasedOf s.trace := Iff.rfl

/-- A primitive moves the state of every line as its entry moves what the trace says of the line;
where R33 and R35 leave a failure's effect unspecified, the trace says nothing. -/
theorem LineFollows.log {l : Line} {s : State} (h : LineFollows l (s.lines.get l) s.trace)
    (e : Event) :
    LineFollows l (((okEffect e s).log e none).lines.get l) ((okEffect e s).log e none).trace ∧
    ∀ x, LineFollows l (((errEffect e s).log e (some x)).lines.get l)
      ((errEffect e s).log e (some x)).trace := by
  obtain ⟨hlevel, hdir, hclosed⟩ := h
  cases e with
  | dir k | w k v | close k =>
    by_cases hk : k = l
    · subst hk
      simp [LineFollows, okEffect, errEffect, levelStep, dirStep, closedStep, hlevel, hdir, hclosed]
    · simp [LineFollows, okEffect, errEffect, levelStep, dirStep, closedStep, hlevel, hdir, hclosed,
        hk, Ne.symm hk]
  | x a v | xclose | d n | closeBlh =>
    simp [LineFollows, okEffect, errEffect, levelStep, dirStep, closedStep, hlevel, hdir, hclosed]

/-- Every primitive keeps the wire what the trace says of it, however it ends (R12). -/
theorem wireFollowsTrace_keptBy (e : Event) (s : State) : KeptBy WireFollowsTrace e s := by
  have ok : ∀ u : State, WireFollowsTrace u → WireFollowsTrace ((okEffect e u).log e none) := by
    intro u hu
    obtain ⟨hline, himage, hreleased⟩ := (wireFollowsTrace_iff u).mp hu
    refine (wireFollowsTrace_iff _).mpr ⟨fun l => (LineFollows.log (hline l) e).1, ?_, ?_⟩
    · cases e <;> simp [okEffect, imageStep, himage]
    · cases e <;> simp [okEffect, releasedStep, hreleased]
  have err : ∀ (u : State) x, WireFollowsTrace u →
      WireFollowsTrace ((errEffect e u).log e (some x)) := by
    intro u x hu
    obtain ⟨hline, himage, hreleased⟩ := (wireFollowsTrace_iff u).mp hu
    refine (wireFollowsTrace_iff _).mpr ⟨fun l => (LineFollows.log (hline l) e).2 x, ?_, ?_⟩
    · cases e <;> simp [errEffect, imageStep, himage]
    · cases e <;> simp [errEffect, releasedStep, hreleased]
  exact fun h => ⟨ok s h, ok s.answered h, fun x => err s.answered x h⟩

/-! ### Instructions and steps -/

/-- Every instruction keeps the wire what the trace says of it: no register is part of either. -/
theorem exec_keeps_wireFollowsTrace {i : Instr} {s t : State} (hs : WireFollowsTrace s)
    (h : exec i s = .next t) : WireFollowsTrace t := by
  by_cases hi : ∃ c, i = .reset c
  · obtain ⟨c, rfl⟩ := hi
    exact execReset_keeps (fun e u _ _ => wireFollowsTrace_keptBy e u) (fun _ _ hu => hu) hs
      (fun _ _ _ hu => hu) h
  · refine exec_keeps (not_exists.mp hi) (fun e u _ _ => wireFollowsTrace_keptBy e u) ?_
      (fun _ _ hu => hu) hs h
    exact ⟨fun _ _ _ hu => hu, fun _ _ _ _ hu => hu, fun _ _ hu => hu, fun _ _ _ _ _ hu => hu⟩

/-- Settles O52: an idle step changes nothing, and any other step is an instruction. -/
theorem stepKeepsWireFollowingTrace : Obligations.StepKeepsWireFollowingTrace := by
  unfold Obligations.StepKeepsWireFollowingTrace
  intro s t hs h
  obtain ⟨-, rfl⟩ | ⟨item, rest, i, -, -, hexec⟩ := step_cases h
  · exact hs
  · exact exec_keeps_wireFollowsTrace (s := { s with port := rest }) hs hexec

end Sys2Proof.Machine
end

section
/-! Proofs of O6, O14 and O4: fetching, the instructions that send one word, and what the word of a
decoded instruction is. -/

namespace Sys2Proof.Machine

/-! ### Fetching -/

/-- The next item is taken from the port with the instruction it decodes to (R16). -/
theorem fetch_got {s : State} {item : PortItem} {rest : List PortItem} {i : Instr}
    (hport : s.port = item :: rest) (hdec : decodeItem s.cfg.ic item = .ok i) :
    fetch s = .got i { s with port := rest } := by
  simp [fetch, hport, hdec]

/-- Settles O6: `fetch` finds the instruction, and `step` runs what it finds. -/
theorem stepRunsTheDecodedInstruction : Obligations.StepRunsTheDecodedInstruction := by
  unfold Obligations.StepRunsTheDecodedInstruction
  intro s item rest i hport hdec
  rw [step, fetch_got hport hdec]

/-! ### Instructions that send one word -/

theorem plainEvents_oneWord {i : Instr} {s : State} {w : Bool × Byte}
    (h : oneWord s.cfg.ic i = some w) :
    plainEvents i s = some (wireWord s.cfg s.bls w.1 w.2) := by
  cases i <;> simp only [oneWord, Option.some.injEq, reduceCtorEq] at h <;> subst h <;> rfl

/-- An instruction that sends one word is that word's events on a ready block (R16, R154). -/
theorem exec_oneWord {i : Instr} {s : State} {w : Bool × Byte} (h : oneWord s.cfg.ic i = some w) :
    exec i s = (whenReady s (perform (wireWord s.cfg s.bls w.1 w.2))).outcome :=
  exec_plain (plainEvents_oneWord h)

/-- A ready block under an environment without failures runs a list of primitives to its end. -/
theorem whenReady_perform_allOk {s : State} (hready : s.Ready) (hok : s.AllOk) (es : List Event) :
    (whenReady s (perform es)).outcome = .next { s.after es with result := .ok } := by
  rw [whenReady_ready hready, perform_allOk es hok, Run.outcome]

theorem State.after_keepsRegisters (es : List Event) (s : State) (x : Result) :
    s.KeepsRegisters { s.after es with result := x } := by
  constructor <;> simp

theorem State.after_keepsConfig {es : List Event} {s : State} (hes : ∀ e ∈ es, WordEvent s.cfg e)
    (x : Result) : s.KeepsConfig { s.after es with result := x } :=
  ⟨State.after_life es s, State.after_cfg es s, State.after_port es s, (State.sameOther_after hes).draws⟩

/-- Settles O14: the instruction is its word's events, and a word drives only the lines or the byte
that show it. -/
theorem oneWordInstructionsComplete : Obligations.OneWordInstructionsComplete := by
  unfold Obligations.OneWordInstructionsComplete
  intro i rs data s hword hready hok
  have hevents := wireWord_events s.cfg s.bls rs data
  refine ⟨_, (exec_oneWord hword).trans (whenReady_perform_allOk hready hok _), rfl,
    State.after_trace _ s, ?_, State.after_keepsConfig hevents _, State.after_keepsRegisters _ s _, ?_⟩
  · exact State.after_wireWord_shows s.bls rs data s
  · exact (State.sameOther_after hevents).other

end Sys2Proof.Machine

namespace Sys2Proof

open Machine

/-! ### The word of a decoded instruction -/

/-- A row of R71 that sends every word it accepts. -/
def WordRow.Faithful (ic : IC) (r : WordRow) : Prop :=
  ∀ w, r.accepts w = true → oneWord ic (r.build w) = some (w.getLsbD 8, wordData w)

/-- The row's fixed bits are the word's, bit by bit. -/
theorem WordRow.accepts_bit {r : WordRow} {w : WordBits} (h : r.accepts w = true) (k : Nat) :
    (w.getLsbD k && r.mask.getLsbD k) = r.pat.getLsbD k := by
  rw [← BitVec.getLsbD_and, beq_iff_eq.mp h]

theorem wordData_getLsbD (w : WordBits) {k : Nat} (hk : k < 8) :
    (wordData w).getLsbD k = w.getLsbD k := by
  simp [wordData, hk]

theorem instrBits_getLsbD (d : Byte) {k : Nat} (hk : k < 8) :
    (instrBits d).getLsbD k = d.getLsbD k := by
  rw [instrBits, BitVec.getLsbD_append, if_pos hk]

theorem instrBits_rs (d : Byte) : (instrBits d).getLsbD 8 = false := by
  rw [instrBits, BitVec.getLsbD_append]
  rfl

theorem wordData_instrBits (d : Byte) : wordData (instrBits d) = d :=
  BitVec.eq_of_getLsbD_eq fun _ hk => by rw [wordData_getLsbD _ hk, instrBits_getLsbD d hk]

/-- The bits of a word that a row with `rs` fixed at 0 accepts are `rs = 0` and the byte that has the
word's data bits. -/
theorem WordRow.sends_instr {r : WordRow} {w : WordBits} {d : Byte} (h : r.accepts w = true)
    (hmask : r.mask.getLsbD 8 = true) (hpat : r.pat.getLsbD 8 = false)
    (hdata : ∀ k < 8, d.getLsbD k = w.getLsbD k) :
    some (false, d) = some (w.getLsbD 8, wordData w) := by
  have hrs := WordRow.accepts_bit h 8
  rw [hmask, hpat, Bool.and_true] at hrs
  have hd : d = wordData w :=
    BitVec.eq_of_getLsbD_eq fun k hk => by rw [hdata k hk, wordData_getLsbD w hk]
  rw [hrs, hd]

theorem constRow_faithful {ic : IC} {d : Byte} {i : Instr} (hi : oneWord ic i = some (false, d)) :
    (constRow d i).Faithful ic := by
  intro w h
  have hw : w &&& BitVec.allOnes 9 = instrBits d := beq_iff_eq.mp h
  rw [BitVec.and_allOnes] at hw
  rw [hw, instrBits_rs, wordData_instrBits]
  exact hi

/-- A mask that passes the check of R8 is one bit. -/
theorem singleBit_twoPow : ∀ m : Byte, singleBit m = true → ∃ k < 8, m = BitVec.twoPow 8 k := by
  decide

/-- The flag read from a word puts the mask's bit back (R24, R73 to R75). -/
theorem maskIf_hasBit {m : Byte} (hm : singleBit m = true) (w : WordBits) :
    maskIf (hasBit m w) m = wordData w &&& m := by
  have hne : m ≠ 0#8 := by
    rintro rfl
    exact absurd hm (by decide)
  obtain ⟨k, -, rfl⟩ := singleBit_twoPow m hm
  rw [maskIf, hasBit, BitVec.and_twoPow]
  cases hbit : (wordData w).getLsbD k <;> simp [hne]

/-- A mode row sends its "set" flag and the fields of the word it accepts. -/
theorem modeRow_faithful {ic : IC} {flag fields : Byte} {build : WordBits → Instr}
    (hbuild : ∀ w, oneWord ic (build w) = some (false, flag ||| (wordData w &&& fields))) :
    (modeRow flag fields build).Faithful ic := by
  intro w h
  refine (hbuild w).trans (WordRow.sends_instr h ?_ (instrBits_rs flag) fun k hk => ?_)
  · rw [modeRow, BitVec.getLsbD_not, instrBits_rs]
    rfl
  · have hbit := WordRow.accepts_bit h k
    simp only [modeRow, BitVec.getLsbD_not, instrBits_getLsbD _ hk] at hbit
    rw [BitVec.getLsbD_or, BitVec.getLsbD_and, wordData_getLsbD w hk, ← hbit]
    have hk9 : k < 9 := by omega
    cases w.getLsbD k <;> cases fields.getLsbD k <;> simp [hk9]

/-- The `DDRAMW` row of `wordRows`. -/
def ddramRow (ic : IC) : WordRow :=
  { pat := instrBits ic.iDdram, mask := instrBits (ic.iDdram ||| 0x80) ||| 0x100
    build := fun w => .ddramw (w.setWidth 7) }

/-- `DDRAMW` sends its row's set bits and the seven address bits of the word it accepts: bit 7 is fixed
by the row, and a set bit below it is set in the word. -/
theorem ddramRow_faithful (ic : IC) : (ddramRow ic).Faithful ic := by
  intro w h
  refine WordRow.sends_instr h ?_ (instrBits_rs _) fun k hk => ?_
  · rw [ddramRow, BitVec.getLsbD_or, instrBits_rs]
    rfl
  · have hbit := WordRow.accepts_bit h k
    simp only [ddramRow, BitVec.getLsbD_or, instrBits_getLsbD _ hk, BitVec.getLsbD_setWidth] at hbit ⊢
    obtain hk7 | rfl : k < 7 ∨ k = 7 := by omega
    · rw [← hbit]
      cases w.getLsbD k <;> simp [hk, hk7]
    · have h80 : BitVec.getLsbD (0x80 : Byte) 7 = true := rfl
      simpa [h80] using hbit.symm

/-- The `CHAR` row of `wordRows`. -/
def charRow : WordRow := { pat := 0x100, mask := 0x100, build := fun w => .char (wordData w) }

theorem charRow_mem (ic : IC) : charRow ∈ wordRows ic := by simp [wordRows, charRow]

/-- `CHAR` takes every word with `rs` at 1, and no other. -/
theorem charRow_accepts (w : WordBits) : charRow.accepts w = w.getLsbD 8 := by
  rw [WordRow.accepts, charRow, show (0x100 : WordBits) = BitVec.twoPow 9 8 from rfl,
    BitVec.and_twoPow]
  cases w.getLsbD 8 <;> rfl

theorem charRow_faithful (ic : IC) : charRow.Faithful ic := by
  intro w h
  rw [charRow_accepts] at h
  rw [h]
  rfl

/-- The masks of the mode groups that pass the check of R8 are single bits. -/
theorem singleBit_of_icCheck {ic : IC} (h : icCheck ic = true) :
    ∀ m ∈ [ic.eInc, ic.eShift, ic.dOn, ic.dCursor, ic.dBlink, ic.f8bit, ic.f2line, ic.f5x10],
      singleBit m = true := by
  simp only [icCheck, maskGroup, Bool.and_eq_true, List.all_cons, List.all_nil] at h
  simp [h]

/-- Every row of R71 but `RAW` sends the word it accepts, under an `IC` that passes R8. -/
theorem wordRows_faithful {ic : IC} (h : icCheck ic = true) :
    ∀ r ∈ wordRows ic, r.Faithful ic := by
  have hbit := singleBit_of_icCheck h
  simp only [List.forall_mem_cons] at hbit
  obtain ⟨hinc, hshift, hon, hcursor, hblink, h8bit, h2line, h5x10, -⟩ := hbit
  simp only [wordRows, List.forall_mem_cons]
  refine ⟨constRow_faithful rfl, constRow_faithful rfl, constRow_faithful rfl, constRow_faithful rfl,
    modeRow_faithful fun w => ?_, modeRow_faithful fun w => ?_, modeRow_faithful fun w => ?_,
    constRow_faithful rfl, constRow_faithful rfl, ddramRow_faithful ic, charRow_faithful ic,
    constRow_faithful rfl, nofun⟩
  · rw [oneWord, emByte, maskIf_hasBit hinc, maskIf_hasBit hshift, ← BitVec.and_or_distrib_left]
  · rw [oneWord, dmByte, maskIf_hasBit hon, maskIf_hasBit hcursor, maskIf_hasBit hblink,
      ← BitVec.and_or_distrib_left, ← BitVec.and_or_distrib_left]
  · rw [oneWord, fmByte, maskIf_hasBit h8bit, maskIf_hasBit h2line, maskIf_hasBit h5x10,
      ← BitVec.and_or_distrib_left, ← BitVec.and_or_distrib_left]

/-- Whichever row a word decodes to, its word is the word given (R70). A word that no row accepts is
not `CHAR`'s, so its `rs` is 0. -/
theorem oneWord_decodeWord {ic : IC} (h : icCheck ic = true) (w : WordBits) :
    oneWord ic (decodeWord ic w) = some (w.getLsbD 8, wordData w) := by
  unfold decodeWord
  split
  · next r hr =>
    have haccepts := List.find?_some (p := fun r : WordRow => r.accepts w) hr
    exact wordRows_faithful h r (List.mem_of_find?_eq_some hr) w haccepts
  · next hnone =>
    have hchar := List.find?_eq_none.mp hnone charRow (charRow_mem ic)
    have hrs : w.getLsbD 8 = false := by simpa only [charRow_accepts, Bool.not_eq_true] using hchar
    rw [hrs]
    rfl

/-- Settles O4: both sides are an instruction that sends the nine bits as its one word. -/
theorem decodedWordSendsItsBits : Obligations.DecodedWordSendsItsBits := by
  unfold Obligations.DecodedWordSendsItsBits
  intro w s hic
  rw [exec_oneWord (oneWord_decodeWord hic w)]
  cases w.getLsbD 8
  · exact (exec_oneWord (i := .raw (wordData w)) rfl).symm
  · exact (exec_oneWord (i := .char (wordData w)) rfl).symm

end Sys2Proof
end

section
/-! Proof of O35: what an operation adds to the trace, and how it ends, said once for a part of an
operation (`Run.Logs`) and put together along the shapes of the instructions. -/

namespace Sys2Proof.Machine

/-- From the trace `tr` a part of an operation either ran to its end, adding events that did not fail,
or added such events and then the one that failed, with whose error it ended (R15, R211). -/
def Run.Logs (tr : List Entry) : Run → Prop
  | .done t => ∃ es, t.trace = tr ++ okEntries es
  | .abort t x => ∃ es ev, ev.fallible = true ∧
      t.trace = tr ++ okEntries es ++ [{ ev := ev, err := some x }]
  | .refused _ => True
  | .stuck _ => True

/-- Register writes add nothing. -/
theorem Run.logs_done (s : State) : (Run.done s).Logs s.trace := ⟨[], by simp [okEntries]⟩

theorem perform_logs (es : List Event) (s : State) : (perform es s).Logs s.trace := by
  obtain ⟨t, ht, htr⟩ | ⟨t, x, pre, ev, post, ht, -, hf, htr⟩ | ht := perform_cases es s <;> rw [ht]
  · exact ⟨es, htr⟩
  · exact ⟨pre, ev, hf, htr⟩
  · trivial

/-- `try P; Q`: what `Q` adds comes after what `P` added (R15). -/
theorem Run.Logs.andThen {tr : List Entry} {r : Run} {k : State → Run} (h : r.Logs tr)
    (hk : ∀ u, (k u).Logs u.trace) : (r.andThen k).Logs tr := by
  cases r with
  | done u =>
    obtain ⟨es, hu⟩ := h
    have hku := hk u
    rw [Run.done_andThen]
    cases hv : k u <;> rw [hv] at hku
    · obtain ⟨es', hv⟩ := hku
      exact ⟨es ++ es', by simp [hv, hu, okEntries]⟩
    · obtain ⟨es', ev, hf, hv⟩ := hku
      exact ⟨es ++ es', ev, hf, by simp [hv, hu, okEntries]⟩
    · trivial
    · trivial
  | abort u x => exact h
  | refused x => trivial
  | stuck f => trivial

theorem whenReady_logs {tr : List Entry} {s : State} {k : State → Run} (h : (k s).Logs tr) :
    (whenReady s k).Logs tr := by
  unfold whenReady
  split
  · trivial
  · split
    · trivial
    · trivial
    · exact h

theorem whenGeometry_logs {tr : List Entry} {s : State} {k : State → Run} (h : (k s).Logs tr) :
    (whenGeometry s k).Logs tr := by
  unfold whenGeometry
  split
  · exact h
  · trivial

/-! ### The operations -/

theorem emitting_logs (events : State → List Event) (s : State) :
    (emitting events s).Logs s.trace :=
  whenReady_logs (perform_logs _ s)

theorem sendWord_logs (w : State → BusWord) (s : State) : (sendWord w s).Logs s.trace :=
  emitting_logs _ s

theorem applyAndFlush_logs (xs : List Setter) (s : State) : (applyAndFlush xs s).Logs s.trace :=
  perform_logs _ (s.applySetters xs)

theorem toggle_logs (x : Setter) (s : State) : (toggle x s).Logs s.trace :=
  whenReady_logs (perform_logs _ (s.applySetters [x]))

theorem setterOnly_logs (x : Setter) (s : State) : (setterOnly x s).Logs s.trace :=
  whenReady_logs (Run.logs_done (s.applySetters [x]))

theorem opBacklight_logs (on : Bool) (s : State) : (opBacklight on s).Logs s.trace := by
  refine whenReady_logs ?_
  split
  · exact perform_logs _ s
  · exact perform_logs _ { s with bls := on }

theorem opClose_logs (s : State) : (opClose s).Logs s.trace :=
  whenReady_logs (perform_logs _ { s with closed := true })

theorem opDhome_logs (s : State) : (opDhome s).Logs s.trace :=
  emitting_logs (fun s => homeEvents s.cfg s.bls) (s.moveTo 0 0)

theorem opDsetcursor_logs (c r : Nat) (s : State) : (opDsetcursor c r s).Logs s.trace := by
  unfold opDsetcursor opSetcursor
  exact sendWord_logs _ (s.moveTo c (clampRow s.cfg.rows r))

theorem opDclear_logs (s : State) : (opDclear s).Logs s.trace := by
  refine Run.Logs.andThen (emitting_logs _ (s.moveTo 0 0)) fun u => ?_
  split
  · exact Run.logs_done u
  · exact opDsetcursor_logs _ _ u

theorem messageByte_logs (b : Byte) (s : State) : (messageByte b s).Logs s.trace := by
  unfold messageByte
  split
  · exact opDsetcursor_logs _ _ s
  · refine Run.Logs.andThen (sendWord_logs (fun _ => charWord b) s) fun u => ?_
    unfold wrapColumn
    split
    · exact opDsetcursor_logs _ _ (stepColumn u)
    · exact Run.logs_done (stepColumn u)

theorem opDmessage_logs (text : List Byte) (s : State) : (opDmessage text s).Logs s.trace := by
  induction text generalizing s with
  | nil => exact Run.logs_done s
  | cons b bs ih => exact (messageByte_logs b s).andThen ih

theorem opDclose_logs (s : State) : (opDclose s).Logs s.trace :=
  (opClose_logs s).andThen fun u => perform_logs _ u

theorem opReset_logs (c : Cfg) (s : State) : (opReset c s).Logs s.trace := by
  have hconstruct : (construct c s).Logs s.trace :=
    Run.Logs.andThen (perform_logs _ (s.construct c)) (applyAndFlush_logs c.ctorSetters)
  unfold opReset
  split
  · trivial
  split
  · trivial
  split
  · cases hr : construct c s <;> rw [hr] at hconstruct <;> exact hconstruct
  · trivial

/-! ### Every instruction -/

/-- Every instruction but `LTR?` is one run. -/
theorem exec_logs {i : Instr} (hi : i ≠ .ltr) (s : State) :
    ∃ r : Run, exec i s = r.outcome ∧ r.Logs s.trace := by
  obtain ⟨c, rfl⟩ | ⟨es, he⟩ | ⟨xs, rfl⟩ | ⟨x, hx⟩ | ⟨x, hx⟩ | rfl | rfl | rfl | rfl | hc :=
    instr_shapes i s
  · exact ⟨_, rfl, opReset_logs c s⟩
  · exact ⟨_, exec_plain he, whenReady_logs (perform_logs es s)⟩
  · exact ⟨_, rfl, whenReady_logs (applyAndFlush_logs xs s)⟩
  · exact ⟨_, exec_toggle hx s, toggle_logs x s⟩
  · exact ⟨_, exec_setter hx s, setterOnly_logs x s⟩
  · exact ⟨_, rfl, opBacklight_logs true s⟩
  · exact ⟨_, rfl, opBacklight_logs false s⟩
  · exact ⟨_, rfl, opClose_logs s⟩
  · exact absurd rfl hi
  · cases i <;> simp only [isClient, reduceCtorEq] at hc
    case dhome => exact ⟨_, rfl, whenGeometry_logs (opDhome_logs s)⟩
    case dclear => exact ⟨_, rfl, whenGeometry_logs (opDclear_logs s)⟩
    case dnewline => exact ⟨_, rfl, whenGeometry_logs (opDsetcursor_logs _ _ s)⟩
    case dsetcursor c r => exact ⟨_, rfl, whenGeometry_logs (opDsetcursor_logs c r s)⟩
    case dmessage text => exact ⟨_, rfl, whenGeometry_logs (opDmessage_logs text s)⟩
    case dclose => exact ⟨_, rfl, whenGeometry_logs (opDclose_logs s)⟩

/-- Settles O35: `LTR?` adds nothing and its result is a value; every other instruction is a run. -/
theorem failureEndsTheOperation : Obligations.FailureEndsTheOperation := by
  unfold Obligations.FailureEndsTheOperation
  intro i s t h
  by_cases hi : i = .ltr
  · rw [hi, exec_ltr] at h
    split at h
    · cases h
    · cases h
      exact .inl ⟨[], by simp [okEntries], nofun⟩
  · obtain ⟨r, hexec, hlogs⟩ := exec_logs hi s
    obtain ⟨u, rfl, rfl⟩ | ⟨u, x, rfl, rfl⟩ := Run.next_of_outcome (hexec.symm.trans h)
    · obtain ⟨es, htr⟩ := hlogs
      exact .inl ⟨es, htr, nofun⟩
    · obtain ⟨es, ev, hf, htr⟩ := hlogs
      exact .inr ⟨es, ev, x, hf, rfl, htr⟩

end Sys2Proof.Machine
end

section
/-! Proof of O47: the frame of configuration, construction, `CLOSED` and the port. -/

namespace Sys2Proof.Machine

/-- What every instruction but `RESET` holds fixed: configuration, construction and the port. -/
structure State.SameConfig (s t : State) : Prop where
  port : t.port = s.port
  cfg : t.cfg = s.cfg
  life : t.life = s.life

/-- A property of the registers alone is kept by every primitive, however it ends: a primitive has its
effect on the output side, the trace and the environment's answers. -/
theorem keptBy_of_sameHeld {P : State → Prop} (hP : ∀ u v : State, u.SameHeld v → P u → P v)
    (e : Event) (u : State) : KeptBy P e u := by
  intro hu
  refine ⟨hP u _ ?_ hu, hP u _ ?_ hu, fun x => hP u _ ?_ hu⟩ <;> constructor <;> simp

theorem exec_sameConfig {i : Instr} {s t : State} (hi : ∀ c, i ≠ .reset c)
    (h : exec i s = .next t) : s.SameConfig t := by
  refine exec_keeps hi (fun e u _ _ => keptBy_of_sameHeld (fun u v hv hu => ?_) e u) ?_
    (fun u _ hu => ⟨hu.port, hu.cfg, hu.life⟩) ⟨rfl, rfl, rfl⟩ h
  · exact ⟨hv.port.trans hu.port, hv.cfg.trans hu.cfg, hv.life.trans hu.life⟩
  · constructor
    · exact fun _ _ _ hu => ⟨hu.port, hu.cfg, hu.life⟩
    · exact fun _ _ _ _ hu => ⟨hu.port, hu.cfg, hu.life⟩
    · exact fun _ _ hu => ⟨hu.port, hu.cfg, hu.life⟩
    · exact fun _ _ _ _ _ hu => ⟨hu.port, hu.cfg, hu.life⟩

/-- No instruction but the closing ones and `RESET` writes `CLOSED`. -/
theorem exec_closed {i : Instr} {s t : State} (hi : ∀ c, i ≠ .reset c) (hclose : i ≠ .close)
    (hdclose : i ≠ .dclose) (h : exec i s = .next t) : t.closed = s.closed := by
  refine exec_keeps (P := fun u => u.closed = s.closed) hi
    (fun e u _ _ => keptBy_of_sameHeld (fun u v hv hu => hv.closed.trans hu) e u) ?_
    (fun _ _ hu => hu) rfl h
  exact ⟨fun _ _ _ hu => hu, fun _ _ _ _ hu => hu, fun hc => absurd hc (by simp [hclose, hdclose]),
    fun _ _ _ _ _ hu => hu⟩

/-- `RESET` leaves the port alone, and `CLOSED` at 0: with `CLOSED` at 1 it is refused (R214(a)). -/
theorem execReset_port_closed {c : Cfg} {s t : State} (h : exec (.reset c) s = .next t) :
    t.port = s.port ∧ t.closed = s.closed := by
  obtain ⟨hopen, -⟩ := execReset_cases h
  rw [hopen]
  exact execReset_keeps (P := fun u => u.port = s.port ∧ u.closed = false)
    (fun e u _ _ => keptBy_of_sameHeld
      (fun u v hv hu => ⟨hv.port.trans hu.1, hv.closed.trans hu.2⟩) e u)
    (fun _ _ hu => hu) ⟨rfl, rfl⟩ (fun _ _ _ hu => hu) h

/-- Settles O47: `RESET` by itself, and every other instruction by its frame. -/
theorem configurationAndClosedKept : Obligations.ConfigurationAndClosedKept := by
  unfold Obligations.ConfigurationAndClosedKept
  intro i s t h
  by_cases hi : ∃ c, i = .reset c
  · obtain ⟨c, rfl⟩ := hi
    obtain ⟨hport, hclosed⟩ := execReset_port_closed h
    exact ⟨hport, fun hno => absurd rfl (hno c), fun _ _ => hclosed⟩
  · have hi := not_exists.mp hi
    obtain ⟨hport, hcfg, hlife⟩ := exec_sameConfig hi h
    exact ⟨hport, fun _ => ⟨hcfg, hlife⟩, fun hc hd => exec_closed hi hc hd h⟩

end Sys2Proof.Machine
end

section
/-! Proof of O60: the sum of the delays of what each instruction puts on the wire (R9, R248). -/

namespace Sys2Proof.Machine

/-- The delays of a list of events, in microseconds. -/
def eventMicros (es : List Event) : Nat := (es.map Event.micros).sum

@[simp] theorem eventMicros_append (as bs : List Event) :
    eventMicros (as ++ bs) = eventMicros as + eventMicros bs := by simp [eventMicros]

@[simp] theorem eventMicros_delay (n : Nat) : eventMicros [.d n] = n := rfl

/-- A trace that gains events gains their delays. -/
theorem minMicros_append_okEntries (t : List Entry) (es : List Event) :
    minMicros (t ++ okEntries es) = minMicros t + eventMicros es := by
  simp [minMicros, eventMicros, okEntries, Function.comp_def]

/-- A word takes six pulse delays and its own, on either bus (R102, R123). -/
theorem eventMicros_wireWord (c : Cfg) (bls rs : Bool) (data : Byte) :
    eventMicros (wireWord c bls rs data) = 6 * c.tPulse + c.tWrite := by
  unfold wireWord
  cases c.bus <;> simp [eventMicros, Event.micros] <;> omega

theorem eventMicros_wireModes (c : Cfg) (bls : Bool) (m : Modes) :
    eventMicros (wireModes c bls m) = 3 * (6 * c.tPulse + c.tWrite) := by
  simp only [wireModes, eventMicros_append, eventMicros_wireWord]
  omega

/-- Setting up and releasing lines takes no time of its own (R101, R107, R128). -/
theorem eventMicros_wireDirections (c : Cfg) : eventMicros (wireDirections c) = 0 := by
  unfold wireDirections
  split
  · split <;> rfl
  · rfl

theorem eventMicros_wireClose (c : Cfg) : eventMicros (wireClose c) = 0 := by
  unfold wireClose
  split
  · split <;> rfl
  · rfl

/-! ### Instructions -/

/-- The instruction completes, and its events' delays add up to `n`. -/
def TakesAtLeast (i : Instr) (s : State) (n : Nat) : Prop :=
  ∃ t, exec i s = .next t ∧ minMicros t.trace = minMicros s.trace + n

/-- A run that is a list of events, after register writes, takes what their delays add up to. -/
theorem takesAtLeast_of_perform {i : Instr} {s u : State} {es : List Event}
    (hexec : exec i s = (perform es u).outcome) (hok : u.AllOk) (htrace : u.trace = s.trace) :
    TakesAtLeast i s (eventMicros es) := by
  refine ⟨{ u.after es with result := .ok }, ?_, ?_⟩
  · rw [hexec, perform_allOk es hok, Run.outcome]
  · rw [← minMicros_append_okEntries, ← htrace]
    exact congrArg minMicros (State.after_trace es u)

section Ready

variable {s : State}

theorem takesAtLeast_plain {i : Instr} {es : List Event} (hready : s.Ready) (hok : s.AllOk)
    (h : plainEvents i s = some es) : TakesAtLeast i s (eventMicros es) :=
  takesAtLeast_of_perform ((exec_plain h).trans (by rw [whenReady_ready hready])) hok rfl

theorem takesAtLeast_toggle {i : Instr} {x : Setter} (hready : s.Ready) (hok : s.AllOk)
    (h : toggleSetter i = some x) : TakesAtLeast i s (6 * s.cfg.tPulse + s.cfg.tWrite) := by
  have hrun := takesAtLeast_of_perform (u := s.applySetters [x])
    ((exec_toggle h s).trans (congrArg _ (whenReady_ready hready _))) hok rfl
  rwa [busWrite_eq, eventMicros_wireWord] at hrun

theorem takesAtLeast_apply (xs : List Setter) (hready : s.Ready) (hok : s.AllOk) :
    TakesAtLeast (.apply xs) s (3 * (6 * s.cfg.tPulse + s.cfg.tWrite)) := by
  have hrun := takesAtLeast_of_perform (i := .apply xs) (u := s.applySetters xs)
    (congrArg Run.outcome (whenReady_ready hready _)) hok rfl
  rwa [flushEvents_eq, eventMicros_wireModes] at hrun

/-- A backlight operation is one word on I2C, and no more than a line write on the parallel bus. -/
theorem takesAtLeast_backlight {i : Instr} {on : Bool} (hready : s.Ready) (hok : s.AllOk)
    (hexec : exec i s = (opBacklight on s).outcome) :
    (∀ p a r, s.cfg.bus = .i2c p a r → TakesAtLeast i s (6 * s.cfg.tPulse + s.cfg.tWrite)) ∧
    ∀ h, s.cfg.bus = .par h → TakesAtLeast i s 0 := by
  rw [opBacklight, whenReady_ready hready] at hexec
  refine ⟨fun p a r hbus => ?_, fun h hbus => ?_⟩ <;> rw [hbus] at hexec
  · have hrun := takesAtLeast_of_perform (u := { s with bls := on }) hexec hok rfl
    rwa [busWrite_eq, eventMicros_wireWord] at hrun
  · have hrun := takesAtLeast_of_perform hexec hok rfl
    have hzero : eventMicros (if h.bl then [.w .bl (!on)] else []) = 0 := by split <;> rfl
    rwa [hzero] at hrun

theorem takesAtLeast_close (hready : s.Ready) (hok : s.AllOk) : TakesAtLeast .close s 0 := by
  have hrun := takesAtLeast_of_perform (i := .close) (u := { s with closed := true })
    (congrArg Run.outcome (whenReady_ready hready _)) hok rfl
  rwa [closeEvents_eq, eventMicros_wireClose] at hrun

theorem takesAtLeast_ltr (hready : s.Ready) : TakesAtLeast .ltr s 0 :=
  ⟨{ s with result := .value (ltr s.modes) }, by rw [exec_ltr, hready.2]; rfl, rfl⟩

end Ready

/-! ### Construction -/

/-- The state that construction with `c` comes to when nothing fails (R175, R230). -/
def constructedState (c : Cfg) (s : State) : State :=
  (((s.construct c).after (bringUpEvents c (s.construct c).bls)).applySetters c.ctorSetters).after
    (flushEvents c (s.construct c).bls (applySetters c.ctorSetters .zero))

theorem construct_allOk (c : Cfg) {s : State} (hok : s.AllOk) :
    construct c s = .done (constructedState c s) := by
  have hbring := State.after_allOk (s := s.construct c) (bringUpEvents c (s.construct c).bls) hok
  rw [construct, perform_allOk (s := s.construct c) _ hok, Run.done_andThen, applyAndFlush,
    State.after_cfg, State.after_bls, State.after_modes]
  exact perform_allOk _ (s := ((s.construct c).after _).applySetters c.ctorSetters) hbring

theorem constructedState_trace (c : Cfg) (s : State) :
    (constructedState c s).trace = s.trace ++ okEntries (bringUpEvents c (s.construct c).bls ++
      flushEvents c (s.construct c).bls (applySetters c.ctorSetters .zero)) := by
  simp [constructedState, okEntries]

/-- An accepted `RESET` whose writes all succeed makes a block that is ready (R230). -/
theorem execReset_allOk {c : Cfg} {s : State} (hopen : s.closed = false) (hlife : s.life ≠ .failed)
    (hwf : c.wf = true) (hok : s.AllOk) :
    exec (.reset c) s = .next { constructedState c s with life := .ready, result := .ok } := by
  change (opReset c s).outcome = _
  rw [opReset, if_neg (by simp [hopen]), if_neg hlife, if_pos hwf, construct_allOk c hok]
  rfl

theorem takesAtLeast_reset {c : Cfg} {s : State} (hopen : s.closed = false) (hlife : s.life ≠ .failed)
    (hwf : c.wf = true) (hok : s.AllOk) :
    TakesAtLeast (.reset c) s (5 * (6 * c.tPulse + c.tWrite)) := by
  refine ⟨_, execReset_allOk hopen hlife hwf hok, ?_⟩
  change minMicros (constructedState c s).trace = _
  rw [constructedState_trace, minMicros_append_okEntries, bringUpEvents, directionEvents_eq,
    initWords_eq, flushEvents_eq]
  simp only [eventMicros_append, eventMicros_wireDirections, eventMicros_wireWord,
    eventMicros_wireModes]
  omega

/-! ### The table of R248 -/

theorem TakesAtLeast.congr {i : Instr} {s : State} {m n : Nat} (h : TakesAtLeast i s m) (hmn : m = n) :
    TakesAtLeast i s n := hmn ▸ h

/-- Settles O60: each row's delays, with the constants of R6 put in. -/
theorem leastDurations : Obligations.LeastDurations := by
  unfold Obligations.LeastDurations
  refine ⟨fun i s hready hok ⟨hpulse, hwrite, hclear⟩ => ?_,
    fun c s hopen hlife hwf hok ⟨hpulse, hwrite, _⟩ => ?_⟩
  · have word : 6 * s.cfg.tPulse + s.cfg.tWrite = 43 := by omega
    refine ⟨?_, ?_, ?_, ?_, ?_, ?_, ?_, ?_⟩
    · rintro (hword | htoggle)
      · obtain ⟨w, hw⟩ := Option.isSome_iff_exists.mp hword
        exact (takesAtLeast_plain hready hok (plainEvents_oneWord hw)).congr
          ((eventMicros_wireWord ..).trans word)
      · obtain ⟨x, hx⟩ := Option.isSome_iff_exists.mp htoggle
        exact (takesAtLeast_toggle hready hok hx).congr word
    · rintro rfl
      exact (takesAtLeast_plain hready hok rfl).congr
        (by simp only [eventMicros_append, eventMicros_wireWord, word])
    · rintro (⟨xs, rfl⟩ | rfl)
      · exact (takesAtLeast_apply xs hready hok).congr (by rw [word])
      · exact (takesAtLeast_plain hready hok rfl).congr (by rw [eventMicros_wireModes, word])
    · rintro (rfl | rfl) <;> refine (takesAtLeast_plain hready hok rfl).congr ?_ <;>
        simp only [eventMicros_append, eventMicros_wireWord, eventMicros_delay, word, hclear]
    · rintro rfl
      exact (takesAtLeast_plain hready hok rfl).congr
        (by simp only [eventMicros_append, eventMicros_wireWord, eventMicros_wireModes,
          eventMicros_delay, word, hclear])
    · rintro (rfl | rfl) ⟨p, a, r, hbus⟩
        <;> exact ((takesAtLeast_backlight hready hok rfl).1 p a r hbus).congr word
    · rintro (rfl | rfl) ⟨h, hbus⟩
        <;> exact (takesAtLeast_backlight hready hok rfl).2 h hbus
    · rintro (rfl | rfl)
      · exact takesAtLeast_close hready hok
      · exact takesAtLeast_ltr hready
  · exact (takesAtLeast_reset hopen hlife hwf hok).congr (by omega)

end Sys2Proof.Machine
end

section
/-! Proofs of O7, O9 and O55: the port without an instruction, and the state after reset. -/

namespace Sys2Proof.Machine

/-! ### The port -/

theorem fetch_idle {s : State} (hport : s.port = []) : fetch s = .idle := by
  simp [fetch, hport]

theorem fetch_bad {s : State} {item : PortItem} {rest : List PortItem} {e : DecodeError}
    (hport : s.port = item :: rest) (hdec : decodeItem s.cfg.ic item = .error e) :
    fetch s = .bad e := by
  simp [fetch, hport, hdec]

/-- Settles O7: `step` on each of the two things `fetch` finds that are no instruction. -/
theorem stepIdleOrRejects : Obligations.StepIdleOrRejects := by
  unfold Obligations.StepIdleOrRejects
  refine ⟨fun s hport => ?_, fun s item rest e hport hdec => ?_⟩
  · rw [step, fetch_idle hport]
  · rw [step, fetch_bad hport hdec]

/-! ### The state after reset -/

@[simp] theorem Lines.get_fresh (l : Line) : Lines.fresh.get l = .fresh := by cases l <;> rfl

/-- Settles O9: the registers are the literals of `State.reset`, and every line is fresh. -/
theorem powerOnValues : Obligations.PowerOnValues := by
  unfold Obligations.PowerOnValues
  exact ⟨rfl, rfl, rfl, Lines.get_fresh, rfl, rfl, rfl⟩

/-- Settles O55: the trace is empty and so says what a fresh line is; the block is neither closed nor
constructed, and no EN line has been driven. -/
theorem resetMeetsInvariants : Obligations.ResetMeetsInvariants := by
  unfold Obligations.ResetMeetsInvariants
  refine ⟨(wireFollowsTrace_iff _).mpr ⟨fun l => ?_, rfl, rfl⟩, ⟨nofun, nofun⟩, fun _ => ⟨nofun, nofun⟩⟩
  have hline : State.reset.lines.get l = .fresh := Lines.get_fresh l
  rw [hline]
  exact ⟨rfl, (agrees_some _ _).mpr rfl, (agrees_some _ _).mpr rfl⟩

end Sys2Proof.Machine
end

section
/-! Proofs of O43, O44, O45 and O48: which instructions write `CLOSED`, the mode registers, `BLS` and
the state of a line. -/

namespace Sys2Proof.Machine

/-! ### `CLOSED` (R30, R152) -/

theorem whenReady_closed {s : State} (h : s.closed = true) (k : State → Run) :
    whenReady s k = .refused .closed := by
  simp [whenReady, h]

/-- Every operation of the block but `RESET` begins with the refusals of R214; `LTR?` is no
operation. -/
theorem exec_block {i : Instr} {s : State} (hclient : isClient i = false) (hreset : ∀ c, i ≠ .reset c)
    (hltr : i ≠ .ltr) : ∃ k, exec i s = (whenReady s k).outcome := by
  obtain ⟨c, rfl⟩ | ⟨es, he⟩ | ⟨xs, rfl⟩ | ⟨x, hx⟩ | ⟨x, hx⟩ | rfl | rfl | rfl | rfl | hc :=
    instr_shapes i s
  · exact absurd rfl (hreset c)
  · exact ⟨_, exec_plain he⟩
  · exact ⟨applyAndFlush xs, rfl⟩
  · exact ⟨_, exec_toggle hx s⟩
  · exact ⟨_, exec_setter hx s⟩
  · exact ⟨_, rfl⟩
  · exact ⟨_, rfl⟩
  · exact ⟨_, rfl⟩
  · exact absurd rfl hltr
  · rw [hclient] at hc
    cases hc

/-- With `CLOSED` at 1 everything of the block is refused (R214(a)). -/
theorem exec_closed_refused {i : Instr} {s : State} (h : s.closed = true)
    (hclient : isClient i = false) : exec i s = .refused .closed := by
  by_cases hreset : ∃ c, i = .reset c
  · obtain ⟨c, rfl⟩ := hreset
    change (opReset c s).outcome = _
    rw [opReset, if_pos h, Run.outcome]
  by_cases hltr : i = .ltr
  · rw [hltr, exec_ltr, if_pos h]
  · obtain ⟨k, hk⟩ := exec_block hclient (not_exists.mp hreset) hltr
    rw [hk, whenReady_closed h, Run.outcome]

/-- `CLOSE` sets `CLOSED` before its releases, and no release writes it (R152). -/
theorem opClose_closed (s : State) : (opClose s).Ends fun t => t.closed = true :=
  whenReady_ends fun _ =>
    Run.ends_mono (perform_sameHeld _ { s with closed := true }) fun _ h => h.closed

theorem opDclose_closed (s : State) : (opDclose s).Ends fun t => t.closed = true :=
  Run.ends_andThen (opClose_closed s) (fun _ h => h) fun u hu =>
    Run.ends_mono (perform_sameHeld _ u) fun _ h => h.closed.trans hu

theorem exec_keeps_closed {i : Instr} {s t : State} (h : exec i s = .next t) (hs : s.closed = true) :
    t.closed = true := by
  by_cases hi : ∃ c, i = .reset c
  · obtain ⟨c, rfl⟩ := hi
    exact (execReset_port_closed h).2.trans hs
  · refine exec_keeps (P := fun u => u.closed = true) (not_exists.mp hi)
      (fun e u _ _ => keptBy_of_sameHeld (fun u v hv hu => hv.closed.trans hu) e u) ?_
      (fun _ _ hu => hu) hs h
    exact ⟨fun _ _ _ hu => hu, fun _ _ _ _ hu => hu, fun _ _ _ => rfl, fun _ _ _ _ _ hu => hu⟩

/-- Settles O43: what sets `CLOSED`, that nothing clears it, and what it refuses. -/
theorem nothingAfterClose : Obligations.NothingAfterClose := by
  unfold Obligations.NothingAfterClose
  refine ⟨rfl, fun s t h => ?_, fun i s t => exec_keeps_closed, fun i s => exec_closed_refused⟩
  rcases h with h | h
  · exact Run.ends_of_outcome (opClose_closed s) (fun _ _ hu => hu) h
  · exact Run.ends_of_outcome (whenGeometry_ends (opDclose_closed s)) (fun _ _ hu => hu) h

/-! ### The mode registers (R28, R171, R174) -/

/-- An instruction that writes no flag leaves the three registers alone. -/
theorem exec_modes {i : Instr} {s t : State} (h : exec i s = .next t) (hi : writesModes i = false) :
    t.modes = s.modes := by
  have hreset : ∀ c, i ≠ .reset c := by
    rintro c rfl
    cases hi
  refine exec_keeps (P := fun u => u.modes = s.modes) hreset
    (fun e u _ _ => keptBy_of_sameHeld (fun u v hv hu => hv.modes.trans hu) e u) ?_
    (fun _ _ hu => hu) rfl h
  refine ⟨fun hw => ?_, fun _ _ _ _ hu => hu, fun _ _ hu => hu, fun _ _ _ _ _ hu => hu⟩
  rw [hi] at hw
  cases hw

/-- A toggle's setter writes a flag of `DM` (R171). -/
theorem applySetter_of_toggle {i : Instr} {x : Setter} (h : toggleSetter i = some x) (m : Modes) :
    (applySetter x m).em = m.em ∧ (applySetter x m).fm = m.fm := by
  cases i <;> simp only [toggleSetter, Option.some.injEq, reduceCtorEq] at h <;> subst h <;>
    exact ⟨rfl, rfl⟩

/-- A toggle leaves `EM` and `FM` alone. -/
theorem exec_toggle_modes {i : Instr} {x : Setter} {s t : State} (hx : toggleSetter i = some x)
    (h : exec i s = .next t) : t.modes.em = s.modes.em ∧ t.modes.fm = s.modes.fm := by
  have hmodes : (toggle x s).Ends fun u => u.modes = applySetter x s.modes :=
    whenReady_ends fun _ => Run.ends_mono (perform_sameHeld _ (s.applySetters [x])) fun _ hu => hu.modes
  rw [exec_toggle hx] at h
  rw [Run.ends_of_outcome hmodes (fun _ _ hu => hu) h]
  exact applySetter_of_toggle hx s.modes

/-! ### A setter by itself is no command (R171, R174) -/

/-- Whatever instruction a decoder answers with is no setter by itself. -/
def NoSetterAlone (r : Except DecodeError Instr) : Prop := ∀ i, r = .ok i → setterRow i = none

@[simp] theorem noSetterAlone_ok (i : Instr) : NoSetterAlone (.ok i) ↔ setterRow i = none := by
  simp [NoSetterAlone]

@[simp] theorem noSetterAlone_error (e : DecodeError) : NoSetterAlone (.error e) := nofun

section Operands

variable {m : Mnemonic} {ops : List Operand}

theorem takeNone_noSetterAlone {i : Instr} (h : setterRow i = none) :
    NoSetterAlone (takeNone m i ops) := by unfold takeNone; split <;> simp [h]
theorem takeByte_noSetterAlone {f : Byte → Instr} (h : ∀ b, setterRow (f b) = none) :
    NoSetterAlone (takeByte m f ops) := by unfold takeByte; split <;> simp [h]
theorem takeCfg_noSetterAlone {f : Cfg → Instr} (h : ∀ c, setterRow (f c) = none) :
    NoSetterAlone (takeCfg m f ops) := by unfold takeCfg; split <;> simp [h]
theorem takeSetters_noSetterAlone {f : List Setter → Instr} (h : ∀ xs, setterRow (f xs) = none) :
    NoSetterAlone (takeSetters m f ops) := by unfold takeSetters; split <;> simp [h]
theorem takeBits2_noSetterAlone {f : Bool → Bool → Instr} (h : ∀ a b, setterRow (f a b) = none) :
    NoSetterAlone (takeBits2 m f ops) := by unfold takeBits2; split <;> simp [h]
theorem takeBits3_noSetterAlone {f : Bool → Bool → Bool → Instr}
    (h : ∀ a b c, setterRow (f a b c) = none) :
    NoSetterAlone (takeBits3 m f ops) := by unfold takeBits3; split <;> simp [h]
theorem takeAddr_noSetterAlone {f : BitVec 7 → Instr} (h : ∀ a, setterRow (f a) = none) :
    NoSetterAlone (takeAddr m f ops) := by unfold takeAddr; split <;> simp [h]
theorem takeNats_noSetterAlone {f : Nat → Nat → Instr} (h : ∀ c r, setterRow (f c r) = none) :
    NoSetterAlone (takeNats m f ops) := by unfold takeNats; split <;> simp [h]
theorem takeText_noSetterAlone {f : List Byte → Instr} (h : ∀ t, setterRow (f t) = none) :
    NoSetterAlone (takeText m f ops) := by unfold takeText; split <;> simp [h]

end Operands

/-- A command is refused under the ten setter-only mnemonics, and under every other one the operands
are those of an instruction that is no setter row. -/
theorem decodeCommand_noSetterAlone (c : Command) : NoSetterAlone (decodeCommand c) := by
  unfold decodeCommand
  cases c.mnemonic
  case reset => exact takeCfg_noSetterAlone fun _ => rfl
  case apply => exact takeSetters_noSetterAlone fun _ => rfl
  case setcursor | wchar | winstr | char | raw => exact takeByte_noSetterAlone fun _ => rfl
  case entryw => exact takeBits2_noSetterAlone fun _ _ => rfl
  case dispw | funcw => exact takeBits3_noSetterAlone fun _ _ _ => rfl
  case ddramw => exact takeAddr_noSetterAlone fun _ => rfl
  case dsetcursor => exact takeNats_noSetterAlone fun _ _ => rfl
  case dmessage => exact takeText_noSetterAlone fun _ => rfl
  case entryInc | entryDec | shiftOn | shiftOff | bus8bit | bus4bit | lines2 | lines1 | font5x10 |
      font5x8 => exact noSetterAlone_error _
  all_goals exact takeNone_noSetterAlone rfl

/-- No row of R71 builds a setter row. -/
theorem decodeWord_setterRow (ic : IC) (w : WordBits) : setterRow (decodeWord ic w) = none := by
  have hrows : ∀ r ∈ wordRows ic, setterRow (r.build w) = none := by
    simp [wordRows, constRow, modeRow, setterRow]
  unfold decodeWord
  split
  · next r hr => exact hrows r (List.mem_of_find?_eq_some hr)
  · rfl

theorem decodeItem_noSetterAlone (ic : IC) (item : PortItem) : NoSetterAlone (decodeItem ic item) := by
  have hword : ∀ bytes i rest, decodeBytes ic bytes = .ok (i, rest) → setterRow i = none := by
    intro bytes i rest h
    unfold decodeBytes at h
    split at h
    · split at h <;> cases h
      exact decodeWord_setterRow ic _
    · cases h
  intro i h
  cases item with
  | command c => exact decodeCommand_noSetterAlone c i h
  | word bytes =>
    simp only [decodeItem] at h
    split at h <;> cases h
    exact hword _ _ _ ‹_›

/-- The rows that write a flag, by shape (R28). -/
theorem writesModes_iff (i : Instr) :
    writesModes i = true ↔ (∃ c, i = .reset c) ∨ (∃ xs, i = .apply xs) ∨
      (toggleSetter i).isSome = true ∨ (setterRow i).isSome = true := by
  cases i <;> simp [writesModes, toggleSetter, setterRow]

/-- Settles O44: an instruction that writes no flag has the mode registers in its frame; and what a
step runs has been decoded, so that it is no setter by itself. -/
theorem onlyModeOperationsWriteModes : Obligations.OnlyModeOperationsWriteModes := by
  unfold Obligations.OnlyModeOperationsWriteModes
  refine ⟨fun i s t => exec_modes, fun s t h hne => ?_⟩
  obtain ⟨-, rfl⟩ | ⟨item, rest, i, hport, hdec, hexec⟩ := step_cases h
  · exact absurd rfl hne
  refine ⟨item, rest, i, hport, hdec, ?_⟩
  have hwrites : writesModes i = true := by
    by_contra hno
    exact hne (exec_modes (s := { s with port := rest }) hexec (Bool.eq_false_iff.mpr hno))
  obtain hreset | happly | htoggle | hsetter := (writesModes_iff i).mp hwrites
  · exact .inl hreset
  · exact .inr (.inl happly)
  · obtain ⟨x, hx⟩ := Option.isSome_iff_exists.mp htoggle
    exact .inr (.inr ⟨htoggle, exec_toggle_modes (s := { s with port := rest }) hx hexec⟩)
  · rw [decodeItem_noSetterAlone _ _ i hdec] at hsetter
    cases hsetter

/-! ### `BLS` (R29) -/

/-- Settles O45: of the instructions other than `RESET` the backlight operations alone write `BLS`,
and on I2C only. -/
theorem onlyBacklightOperationsWriteBls : Obligations.OnlyBacklightOperationsWriteBls := by
  unfold Obligations.OnlyBacklightOperationsWriteBls
  intro i s t h hreset hi
  refine exec_keeps (P := fun u => u.bls = s.bls) hreset
    (fun e u _ _ => keptBy_of_sameHeld (fun u v hv hu => hv.bls.trans hu) e u) ?_
    (fun _ _ hu => hu) rfl h
  refine ⟨fun _ _ _ hu => hu, ?_, fun _ _ hu => hu, fun _ _ _ _ _ hu => hu⟩
  rintro hb ⟨p, a, r, hbus⟩
  obtain ⟨hon, hoff⟩ | ⟨hd, hpar⟩ := hi
  · exact absurd hb (by simp [hon, hoff])
  · rw [hpar] at hbus
    cases hbus

/-! ### The state of a line (R33, R35, R52) -/

/-- A part `f` of line `l`'s state is kept by an event that would write only other parts of it. -/
theorem keptBy_line {α : Type} (f : LineState → α) {l : Line} {e : Event}
    (hdir : e = .dir l → ∀ x d, f { x with dir := d } = f x)
    (hlevel : ∀ b, e = .w l b → ∀ x v, f { x with level := v } = f x)
    (hclosed : e = .close l → ∀ x c, f { x with closed := c } = f x) (v : α) (u : State) :
    KeptBy (fun u => f (u.lines.get l) = v) e u := by
  intro hu
  cases e with
  | dir k =>
    by_cases hk : k = l
    · subst hk
      simp [okEffect, errEffect, hdir, hu]
    · simp [okEffect, errEffect, Ne.symm hk, hu]
  | w k b =>
    by_cases hk : k = l
    · subst hk
      simp [okEffect, errEffect, hlevel b, hu]
    · simp [okEffect, errEffect, Ne.symm hk, hu]
  | close k =>
    by_cases hk : k = l
    · subst hk
      simp [okEffect, errEffect, hclosed, hu]
    · simp [okEffect, errEffect, Ne.symm hk, hu]
  | x a b | xclose | d n | closeBlh => simp [okEffect, errEffect, hu]

theorem WordEvent.not_dir {c : Cfg} {l : Line} : ¬ WordEvent c (.dir l) := nofun

theorem WordEvent.not_close {c : Cfg} {l : Line} : ¬ WordEvent c (.close l) := nofun

theorem WordEvent.not_backlight {c : Cfg} {b : Bool} : ¬ WordEvent c (.w .bl b) :=
  fun h => h.1 rfl

theorem EmittedBy.not_dir {i : Instr} {c : Cfg} {l : Line} : ¬ EmittedBy i c (.dir l) := by
  simp [EmittedBy, WordEvent.not_dir]

theorem EmittedBy.not_backlight {i : Instr} {c : Cfg} {b : Bool} (hon : i ≠ .blOn) (hoff : i ≠ .blOff) :
    ¬ EmittedBy i c (.w .bl b) := by
  simp [EmittedBy, WordEvent.not_backlight, hon, hoff]

theorem EmittedBy.not_close {i : Instr} {c : Cfg} {l : Line} (hclose : i ≠ .close) (hdclose : i ≠ .dclose) :
    ¬ EmittedBy i c (.close l) := by
  simp [EmittedBy, WordEvent.not_close, hclose, hdclose]

theorem ResetEvent.not_backlight {c : Cfg} {b : Bool} : ¬ ResetEvent c (.w .bl b) := by
  simp [ResetEvent, WordEvent.not_backlight]

theorem ResetEvent.not_close {c : Cfg} {l : Line} : ¬ ResetEvent c (.close l) := by
  simp [ResetEvent, WordEvent.not_close]

section Line

variable {α : Type} {f : LineState → α} {l : Line} {s t : State}

/-- No register write touches a line, so that an instruction whose events keep a part of its state
keeps it. -/
theorem exec_keeps_line {i : Instr} (hi : ∀ c, i ≠ .reset c) (h : exec i s = .next t)
    (hev : ∀ e, EmittedBy i s.cfg e → ∀ v u, KeptBy (fun u => f (u.lines.get l) = v) e u) :
    f (t.lines.get l) = f (s.lines.get l) := by
  refine exec_keeps (P := fun u => f (u.lines.get l) = f (s.lines.get l)) hi
    (fun e u he _ => hev e he _ u) ?_ (fun _ _ hu => hu) rfl h
  exact ⟨fun _ _ _ hu => hu, fun _ _ _ _ hu => hu, fun _ _ hu => hu, fun _ _ _ _ _ hu => hu⟩

theorem execReset_keeps_line {c : Cfg} (h : exec (.reset c) s = .next t)
    (hev : ∀ e, ResetEvent c e → ∀ v u, KeptBy (fun u => f (u.lines.get l) = v) e u) :
    f (t.lines.get l) = f (s.lines.get l) :=
  execReset_keeps (P := fun u => f (u.lines.get l) = f (s.lines.get l))
    (fun e u he _ => hev e he _ u) (fun _ _ hu => hu) rfl (fun _ _ _ hu => hu) h

end Line

/-- Direction set-up is no event of an instruction other than `RESET` (R33). -/
theorem exec_dir {i : Instr} {s t : State} (hi : ∀ c, i ≠ .reset c) (h : exec i s = .next t) (l : Line) :
    (t.lines.get l).dir = (s.lines.get l).dir := by
  refine exec_keeps_line (f := LineState.dir) hi h fun e he => keptBy_line _ ?_ ?_ ?_
  · rintro rfl
    exact absurd he EmittedBy.not_dir
  · exact fun _ _ _ _ => rfl
  · exact fun _ _ _ => rfl

/-- Only the backlight operations write to the backlight line (R52). -/
theorem exec_backlight_level {i : Instr} {s t : State} (hon : i ≠ .blOn) (hoff : i ≠ .blOff)
    (h : exec i s = .next t) : t.lines.bl.level = s.lines.bl.level := by
  have kept : ∀ e, (∀ b, e ≠ .w .bl b) → ∀ v u,
      KeptBy (fun u => (u.lines.get .bl).level = v) e u := fun e he =>
    keptBy_line LineState.level (fun _ _ _ => rfl) (fun b hb => absurd hb (he b)) fun _ _ _ => rfl
  by_cases hi : ∃ c, i = .reset c
  · obtain ⟨c, rfl⟩ := hi
    refine execReset_keeps_line (f := LineState.level) (l := .bl) h fun e he => kept e ?_
    rintro b rfl
    exact ResetEvent.not_backlight he
  · refine exec_keeps_line (f := LineState.level) (l := .bl) (not_exists.mp hi) h fun e he => kept e ?_
    rintro b rfl
    exact EmittedBy.not_backlight hon hoff he

/-- Only the closing operations release a line (R35). -/
theorem exec_line_closed {i : Instr} {s t : State} (hclose : i ≠ .close) (hdclose : i ≠ .dclose)
    (h : exec i s = .next t) (l : Line) : (t.lines.get l).closed = (s.lines.get l).closed := by
  have kept : ∀ e, e ≠ .close l → ∀ v u, KeptBy (fun u => (u.lines.get l).closed = v) e u :=
    fun e he => keptBy_line LineState.closed (fun _ _ _ => rfl) (fun _ _ _ _ => rfl)
      fun hc => absurd hc he
  by_cases hi : ∃ c, i = .reset c
  · obtain ⟨c, rfl⟩ := hi
    refine execReset_keeps_line h fun e he => kept e ?_
    rintro rfl
    exact ResetEvent.not_close he
  · refine exec_keeps_line (not_exists.mp hi) h fun e he => kept e ?_
    rintro rfl
    exact EmittedBy.not_close hclose hdclose he

/-- Settles O48: each part of a line's state is kept by every event but those of one kind, and each
instruction has its own kinds of events. -/
theorem linesKept : Obligations.LinesKept := by
  unfold Obligations.LinesKept
  exact fun i s t h => ⟨fun hi l => exec_dir hi h l, fun hon hoff => exec_backlight_level hon hoff h,
    fun hclose hdclose l => exec_line_closed hclose hdclose h l⟩

end Sys2Proof.Machine
end

section
/-! Proofs of O26 and O11: what a backlight operation and a `RESET` leave on the wire. -/

namespace Sys2Proof.Machine

/-! ### The backlight on I2C (R29, R127) -/

/-- On I2C a backlight operation is a zero word sent under the flag just stored. -/
theorem exec_backlight_expander {s : State} {p : PinMap} {a : Byte} {r : Bool} (hready : s.Ready)
    (hbus : s.cfg.bus = .i2c p a r) (on : Bool) :
    exec (if on then .blOn else .blOff) s =
      (perform (wireWord s.cfg on false 0x00) { s with bls := on }).outcome := by
  have hop : exec (if on then .blOn else .blOff) s = (opBacklight on s).outcome := by
    cases on <;> rfl
  rw [hop, opBacklight, whenReady_ready hready, hbus, busWrite_eq]
  rfl

/-- Settles O26: the word's events do not fail, show their last byte, and leave the lines alone. -/
theorem backlightExpander : Obligations.BacklightExpander := by
  unfold Obligations.BacklightExpander
  intro s p a r on hready hok hbus
  have hevents := wireWord_events s.cfg on false 0x00
  have hregs := State.after_keepsRegisters (wireWord s.cfg on false 0x00) { s with bls := on } .ok
  have hconfig := State.after_keepsConfig (s := { s with bls := on }) hevents .ok
  have hshows := State.after_wireWord_shows on false 0x00 { s with bls := on }
  obtain ⟨hxc, hlines⟩ := (State.sameOther_after (s := { s with bls := on }) hevents).other
  rw [State.ShowsWord, State.after_cfg, hbus] at hshows
  rw [hbus] at hlines
  refine ⟨_, (exec_backlight_expander hready hbus on).trans ?_, rfl, hregs.bls, State.after_trace _ _,
    hshows, ⟨hconfig.life, hconfig.cfg, hconfig.port, hconfig.draws⟩, hregs.modes, hregs.closed,
    hregs.col, hregs.row, hlines, hxc⟩
  rw [perform_allOk (s := { s with bls := on }) _ hok, Run.outcome]

/-! ### The wire after `RESET` (R33, R34, R36, R235) -/

theorem mem_presentLines {h : Handles} {l : Line} : l ∈ presentLines h ↔ l ≠ .bl ∨ h.bl = true := by
  cases l <;> simp [presentLines]

/-- Direction set-up that does not fail makes outputs of the lines it names, and does no more. -/
theorem State.after_dirs (ls : List Line) (s : State) :
    (∀ l, (s.after (ls.map .dir)).lines.get l =
      if l ∈ ls then { s.lines.get l with dir := .out } else s.lines.get l) ∧
    (s.after (ls.map .dir)).xp = s.xp ∧ (s.after (ls.map .dir)).xc = s.xc := by
  induction ls generalizing s with
  | nil => exact ⟨fun l => by simp [State.after], rfl, rfl⟩
  | cons k ls ih =>
    obtain ⟨hline, hxp, hxc⟩ := ih ((okEffect (.dir k) s.answered).log (.dir k) none)
    refine ⟨fun l => (hline l).trans ?_, hxp, hxc⟩
    by_cases hk : l = k
    · simp [okEffect, hk]
    · simp [okEffect, hk]

/-- The three mode words show the last of them (R167). -/
theorem State.after_wireModes_shows (bls : Bool) (m : Modes) (s : State) :
    (s.after (wireModes s.cfg bls m)).ShowsWord bls false (s.cfg.ic.iFunction ||| fmByte s.cfg.ic m.fm) := by
  have hshows := State.after_wireWord_shows bls false (s.cfg.ic.iFunction ||| fmByte s.cfg.ic m.fm)
    (s.after (wireWord s.cfg bls false (s.cfg.ic.iEntry ||| emByte s.cfg.ic m.em) ++
      wireWord s.cfg bls false (s.cfg.ic.iDisplay ||| dmByte s.cfg.ic m.dm)))
  rwa [State.after_cfg, ← State.after_append] at hshows

@[simp] theorem constructedState_cfg (c : Cfg) (s : State) : (constructedState c s).cfg = c := by
  simp [constructedState]

@[simp] theorem constructedState_bls (c : Cfg) (s : State) :
    (constructedState c s).bls = (s.construct c).bls := by
  simp only [constructedState, State.after_bls, State.applySetters_bls]

@[simp] theorem constructedState_modes (c : Cfg) (s : State) :
    (constructedState c s).modes = applySetters c.ctorSetters .zero := by
  simp [constructedState]

/-- Construction shows the function word of the registers it leaves. -/
theorem constructedState_shows (c : Cfg) (s : State) :
    (constructedState c s).ShowsWord (constructedState c s).bls false
      (c.ic.iFunction ||| fmByte c.ic (constructedState c s).modes.fm) := by
  have hshows := State.after_wireModes_shows (s.construct c).bls (applySetters c.ctorSetters .zero)
    (((s.construct c).after (bringUpEvents c (s.construct c).bls)).applySetters c.ctorSetters)
  rw [State.applySetters_cfg, State.after_cfg, State.construct_cfg, ← flushEvents_eq] at hshows
  rw [constructedState_bls, constructedState_modes]
  exact hshows

/-- Words, then flags, then words again leave alone what words leave alone. -/
theorem State.sameOther_words_flags_words {es es' : List Event} {s : State} (xs : List Setter)
    (hes : ∀ e ∈ es, WordEvent s.cfg e) (hes' : ∀ e ∈ es', WordEvent s.cfg e) :
    s.SameOther (((s.after es).applySetters xs).after es') := by
  have hcfg : (s.after es).cfg = s.cfg := State.after_cfg es s
  have hflags : (s.after es).SameOther ((s.after es).applySetters xs) :=
    ⟨rfl, (State.SameOther.refl (s.after es)).other⟩
  refine (State.sameOther_after hes).trans hcfg (hflags.trans (State.applySetters_cfg _ xs)
    (State.sameOther_after ?_))
  rwa [State.applySetters_cfg, hcfg]

/-- After direction set-up construction sends words and writes flags. -/
theorem constructedState_sameOther (c : Cfg) (s : State) :
    ((s.construct c).after (wireDirections c)).SameOther (constructedState c s) := by
  have hcfg : ((s.construct c).after (wireDirections c)).cfg = c := State.after_cfg _ _
  rw [constructedState, bringUpEvents, directionEvents_eq, initWords_eq, flushEvents_eq,
    State.after_append]
  refine State.sameOther_words_flags_words _ ?_ ?_ <;> rw [hcfg]
  · exact wordEvent_append (wireWord_events _ _ _ _) (wireWord_events _ _ _ _)
  · exact wireModes_events _ _ _

/-- A `RESET` that answers a next state under an environment without failures is the construction. -/
theorem execReset_next_allOk {c : Cfg} {s t : State} (hok : s.AllOk) (h : exec (.reset c) s = .next t) :
    t = { constructedState c s with life := .ready, result := .ok } := by
  obtain ⟨hopen, hlife, hwf, -⟩ := execReset_cases h
  rw [execReset_allOk hopen hlife hwf hok] at h
  exact (Host.Outcome.next.inj h).symm

/-- On the parallel bus construction makes an output of every present line (R101), writes no level of
the backlight line and no closed flag, and leaves the expander's side alone. -/
theorem constructedState_parallel {c : Cfg} {h : Handles} (hbus : c.bus = .par h) (s : State) :
    (∀ l, ((constructedState c s).lines.get l).dir =
      if l ∈ presentLines h then .out else (s.lines.get l).dir) ∧
    (constructedState c s).lines.bl.level = s.lines.bl.level ∧
    (∀ l, ((constructedState c s).lines.get l).closed = (s.lines.get l).closed) ∧
    (constructedState c s).xp = s.xp ∧ (constructedState c s).xc = s.xc := by
  obtain ⟨hxc, hother⟩ := (constructedState_sameOther c s).other
  have hdirs : wireDirections c = (presentLines h).map .dir := by
    rw [← directionEvents_eq, directionEvents, hbus]
    rfl
  obtain ⟨hline, hxp', hxc'⟩ := State.after_dirs (presentLines h) (s.construct c)
  rw [← hdirs] at hline hxp' hxc'
  rw [State.after_cfg, State.construct_cfg, hbus] at hother
  obtain ⟨hxp, hkeeps, hbl⟩ := hother
  refine ⟨fun l => ?_, ?_, fun l => ?_, hxp.trans hxp', hxc.trans hxc'⟩
  · rw [(hkeeps l).1, hline]
    split <;> rfl
  · rw [hbl, ← Lines.get_bl, hline]
    split <;> rfl
  · rw [(hkeeps l).2, hline]
    split <;> rfl

/-- On I2C construction has no direction to set up (R120), and leaves the lines alone. -/
theorem constructedState_expander {c : Cfg} {p : PinMap} {a : Byte} {r : Bool} (hbus : c.bus = .i2c p a r)
    (s : State) : (constructedState c s).lines = s.lines ∧ (constructedState c s).xc = s.xc := by
  obtain ⟨hxc, hother⟩ := (constructedState_sameOther c s).other
  have hdirs : wireDirections c = [] := by rw [wireDirections, hbus]
  rw [State.after_cfg, State.construct_cfg, hbus] at hother
  rw [hdirs] at hxc hother
  exact ⟨hother, hxc⟩

/-- Settles O11: the directions are set up first and the words keep them; what is shown is the last
word's. -/
theorem resetLeavesTheWire : Obligations.ResetLeavesTheWire := by
  unfold Obligations.ResetLeavesTheWire
  intro c s t hok h
  obtain rfl := execReset_next_allOk hok h
  have hshows := constructedState_shows c s
  split
  · next hd hbus =>
    obtain ⟨hdir, hlevel, hclosed, hxp, hxc⟩ := constructedState_parallel hbus s
    refine ⟨fun l hl => ?_, ?_, hlevel, hclosed, hshows, hxp, hxc⟩
    · exact (hdir l).trans (if_pos (mem_presentLines.mpr (.inl hl)))
    · simpa [mem_presentLines] using hdir .bl
  · next hbus =>
    obtain ⟨hlines, hxc⟩ := constructedState_expander hbus s
    exact ⟨hshows, hlines, hxc⟩

end Sys2Proof.Machine
end

section
/-! Proof of O50: an operation run from two states it cannot tell apart, said once for a part of an
operation (`Blind`) and put together along the shapes of the instructions. -/

namespace Sys2Proof.Machine

/-! ### Two runs that end alike -/

/-- Two states with the same inputs to come, that have added the same events to the traces `tr` and
`tr'`. -/
def SameSince (tr tr' : List Entry) (t v : State) : Prop :=
  t.SameInputs v ∧ ∃ new, t.trace = tr ++ new ∧ v.trace = tr' ++ new

/-- Two runs that end the same way, from the traces `tr` and `tr'`. -/
inductive Run.Alike (tr tr' : List Entry) : Run → Run → Prop
  | done {t v : State} (h : SameSince tr tr' t v) : Run.Alike tr tr' (.done t) (.done v)
  | abort {t v : State} (x : TErr) (h : SameSince tr tr' t v) : Run.Alike tr tr' (.abort t x) (.abort v x)
  | refused (r : Refusal) : Run.Alike tr tr' (.refused r) (.refused r)
  | stuck (f : Fault) : Run.Alike tr tr' (.stuck f) (.stuck f)

/-- A part of an operation that reads nothing the block has sent: not the trace, the levels, the
expander's image or the last result (R32, R34, R36). -/
def Blind (k : State → Run) : Prop :=
  ∀ s u, s.SameInputs u → Run.Alike s.trace u.trace (k s) (k u)

theorem SameSince.start {s u : State} (h : s.SameInputs u) : SameSince s.trace u.trace s u :=
  ⟨h, [], by simp, by simp⟩

theorem SameSince.trans {tr tr' : List Entry} {a b t v : State} (h : SameSince tr tr' a b)
    (k : SameSince a.trace b.trace t v) : SameSince tr tr' t v := by
  obtain ⟨-, new, ha, hb⟩ := h
  obtain ⟨hin, more, ht, hv⟩ := k
  exact ⟨hin, new ++ more, by rw [ht, ha, List.append_assoc], by rw [hv, hb, List.append_assoc]⟩

theorem Run.Alike.trans {tr tr' : List Entry} {a b : State} {r r' : Run} (h : SameSince tr tr' a b)
    (hr : Run.Alike a.trace b.trace r r') : Run.Alike tr tr' r r' := by
  cases hr with
  | done hr => exact .done (h.trans hr)
  | abort x hr => exact .abort x (h.trans hr)
  | refused x => exact .refused x
  | stuck f => exact .stuck f

/-! ### Parts of operations -/

/-- A register write that depends on the inputs alone and sends nothing. -/
structure BlindWrite (g : State → State) : Prop where
  inputs : ∀ s u, s.SameInputs u → (g s).SameInputs (g u)
  trace : ∀ s, (g s).trace = s.trace

theorem BlindWrite.sameSince {g : State → State} (hg : BlindWrite g) {s u : State} (h : s.SameInputs u) :
    SameSince s.trace u.trace (g s) (g u) :=
  ⟨hg.inputs s u h, [], by simp [hg.trace], by simp [hg.trace]⟩

theorem Blind.done {g : State → State} (hg : BlindWrite g) : Blind fun s => .done (g s) :=
  fun _ _ h => .done (hg.sameSince h)

/-- A part that does nothing. -/
theorem Blind.skip : Blind .done := fun _ _ h => .done (SameSince.start h)

/-- A register write, and then a blind part. -/
theorem Blind.write {g : State → State} {k : State → Run} (hk : Blind k) (hg : BlindWrite g) :
    Blind fun s => k (g s) :=
  fun s u h => (hk (g s) (g u) (hg.inputs s u h)).trans (hg.sameSince h)

/-- Two parts one after the other (R15): what the second adds comes after what the first added. -/
theorem Blind.andThen {f k : State → Run} (hf : Blind f) (hk : Blind k) :
    Blind fun s => (f s).andThen k := by
  intro s u h
  show Run.Alike s.trace u.trace ((f s).andThen k) ((f u).andThen k)
  generalize f s = r, f u = r', hf s u h = hfirst
  cases hfirst with
  | done hab => exact (hk _ _ hab.1).trans hab
  | abort x hab => exact .abort x hab
  | refused x => exact .refused x
  | stuck x => exact .stuck x

/-- A value that is read from the inputs alone. -/
def OfInputs {α : Type} (f : State → α) : Prop := ∀ s u, s.SameInputs u → f s = f u

/-- A part whose parameter is read from the inputs. -/
theorem Blind.param {α : Type} {f : State → α} {k : α → State → Run} (hf : OfInputs f)
    (hk : ∀ a, Blind (k a)) : Blind fun s => k (f s) s := by
  intro s u h
  show Run.Alike _ _ (k (f s) s) (k (f u) u)
  rw [hf s u h]
  exact hk (f u) s u h

theorem Blind.ite {p : State → Prop} [DecidablePred p] {f k : State → Run}
    (hp : ∀ s u, s.SameInputs u → (p s ↔ p u)) (hf : Blind f) (hk : Blind k) :
    Blind fun s => if p s then f s else k s := by
  intro s u h
  show Run.Alike _ _ (if p s then f s else k s) (if p u then f u else k u)
  by_cases hu : p u
  · rw [if_pos hu, if_pos ((hp s u h).mpr hu)]
    exact hf s u h
  · rw [if_neg hu, if_neg (mt (hp s u h).mp hu)]
    exact hk s u h

theorem Blind.refused (r : Refusal) : Blind fun _ => .refused r := fun _ _ _ => .refused r

/-- A primitive's effects are on the output side: the inputs stay the same. -/
theorem effects_sameInputs (e : Event) {s u : State} (h : s.SameInputs u) :
    (okEffect e s).SameInputs (okEffect e u) ∧ (errEffect e s).SameInputs (errEffect e u) := by
  cases e <;> exact ⟨{ h with }, { h with }⟩

/-- The same entry is added to both traces. -/
theorem SameSince.log {s u a b : State} (h : a.SameInputs b) (ha : a.trace = s.trace)
    (hb : b.trace = u.trace) (e : Event) (x : Option TErr) :
    SameSince s.trace u.trace (a.log e x) (b.log e x) :=
  ⟨{ h with }, [{ ev := e, err := x }], by rw [State.log_trace, ha], by rw [State.log_trace, hb]⟩

/-- A primitive asks the environment, has its effect and is logged. -/
theorem blind_performOne (e : Event) : Blind (performOne e) := by
  intro s u h
  have hanswer : s.answer = u.answer := by simp only [State.answer, h.env]
  have hanswered : s.answered.SameInputs u.answered := { h with env := congrArg List.tail h.env }
  unfold performOne
  rw [hanswer]
  split
  · split
    · exact .done (SameSince.log (effects_sameInputs e hanswered).1 (by simp) (by simp) e none)
    · exact .abort _ (SameSince.log (effects_sameInputs e hanswered).2 (by simp) (by simp) e _)
    · exact .stuck .hang
  · exact .done (SameSince.log (effects_sameInputs e h).1 (by simp) (by simp) e none)

theorem Blind.perform (es : List Event) : Blind (perform es) := by
  induction es with
  | nil => exact Blind.skip
  | cons e es ih => exact (blind_performOne e).andThen ih

theorem Blind.whenReady {k : State → Run} (hk : Blind k) : Blind fun s => Machine.whenReady s k := by
  intro s u h
  simp only [Machine.whenReady, h.closed, h.life]
  split
  · exact .refused .closed
  · split
    · exact .refused .notConstructed
    · exact .refused .constructionFailed
    · exact hk s u h

theorem Blind.whenGeometry {k : State → Run} (hk : Blind k) :
    Blind fun s => Machine.whenGeometry s k :=
  Blind.ite (fun s u h => by rw [h.cfg]) hk (Blind.refused .badGeometry)

/-! ### Register writes -/

theorem blindWrite_applySetters (xs : List Setter) : BlindWrite (·.applySetters xs) :=
  ⟨fun _ _ h => { h with modes := congrArg (applySetters xs) h.modes }, fun _ => rfl⟩

theorem blindWrite_moveTo (c : Int) (r : Nat) : BlindWrite (·.moveTo c r) :=
  ⟨fun _ _ h => { h with col := rfl, row := rfl }, fun _ => rfl⟩

theorem blindWrite_construct (c : Cfg) : BlindWrite (·.construct c) := by
  refine ⟨fun s u h => { h with cfg := rfl, modes := rfl, closed := rfl, bls := ?_ }, fun _ => rfl⟩
  rw [State.construct_bls, State.construct_bls, h.bls]

/-! ### The operations -/

theorem blind_emitting {events : State → List Event} (h : OfInputs events) : Blind (emitting events) :=
  Blind.whenReady (Blind.param h Blind.perform)

theorem blind_sendWord {w : State → BusWord} (h : OfInputs w) : Blind (sendWord w) :=
  blind_emitting fun s u hsu => by rw [hsu.cfg, hsu.bls, h s u hsu]

theorem blind_applyAndFlush (xs : List Setter) : Blind (applyAndFlush xs) :=
  Blind.param (k := fun es s => perform es (s.applySetters xs))
    (fun s u h => by rw [h.cfg, h.bls, h.modes])
    fun es => (Blind.perform es).write (blindWrite_applySetters xs)

theorem blind_toggle (x : Setter) : Blind (toggle x) :=
  Blind.whenReady <| Blind.param (k := fun es s => perform es (s.applySetters [x]))
    (fun s u h => by rw [h.cfg, h.bls, h.modes])
    fun es => (Blind.perform es).write (blindWrite_applySetters [x])

theorem blind_setterOnly (x : Setter) : Blind (setterOnly x) :=
  Blind.whenReady (Blind.done (blindWrite_applySetters [x]))

/-- A backlight operation on a ready block, with the configuration it reads as a parameter (R105,
R127). -/
def backlightRun (on : Bool) (c : Cfg) (s : State) : Run :=
  match c.bus with
  | .par h => perform (if h.bl then [.w .bl (!on)] else []) s
  | .i2c _ _ _ => perform (busWrite c on (instrWord 0x00)) { s with bls := on }

theorem opBacklight_eq (on : Bool) (s : State) :
    opBacklight on s = whenReady s fun s => backlightRun on s.cfg s := rfl

theorem blind_opBacklight (on : Bool) : Blind (opBacklight on) := by
  have hrun : ∀ c, Blind (backlightRun on c) := by
    intro c
    unfold backlightRun
    cases c.bus with
    | par h => exact Blind.perform _
    | i2c p a r => exact (Blind.perform _).write ⟨fun _ _ h => { h with bls := rfl }, fun _ => rfl⟩
  intro s u h
  rw [opBacklight_eq, opBacklight_eq]
  exact Blind.whenReady (Blind.param (fun _ _ h => h.cfg) hrun) s u h

theorem blind_opClose : Blind opClose :=
  Blind.whenReady <| Blind.param (k := fun es s => perform es { s with closed := true })
    (fun s u h => by rw [h.cfg])
    fun es => (Blind.perform es).write ⟨fun _ _ h => { h with closed := rfl }, fun _ => rfl⟩

theorem blind_opDsetcursor (c r : Nat) : Blind (opDsetcursor c r) :=
  Blind.param (f := State.cfg)
    (k := fun cfg s => opSetcursor (ddramAddress cfg.cols c (clampRow cfg.rows r))
      (s.moveTo c (clampRow cfg.rows r)))
    (fun _ _ h => h.cfg)
    fun cfg => Blind.write (blind_sendWord fun _ _ h => by rw [h.cfg]) (blindWrite_moveTo c _)

theorem blind_opDnewline : Blind opDnewline :=
  Blind.param (f := fun s => (startColumn s, s.row + 1)) (k := fun p => opDsetcursor p.1 p.2)
    (fun s u h => by simp only [startColumn, h.cfg, h.modes, h.row]) fun p => blind_opDsetcursor p.1 p.2

theorem blind_opDhome : Blind opDhome :=
  have hhome : Blind opHome := blind_emitting fun s u h => by rw [h.cfg, h.bls]
  hhome.write (blindWrite_moveTo 0 0)

theorem blind_opDclear : Blind opDclear := by
  have hclear : Blind opClearr := blind_emitting fun s u h => by rw [h.cfg, h.bls, h.modes]
  refine (hclear.write (blindWrite_moveTo 0 0)).andThen (Blind.ite (fun s u h => by rw [h.modes])
    Blind.skip ?_)
  exact Blind.param (f := fun s => s.cfg.cols - 1) (k := fun c => opDsetcursor c 0)
    (fun s u h => by simp only [h.cfg]) fun c => blind_opDsetcursor c 0

theorem blind_wrapColumn : Blind wrapColumn :=
  Blind.ite (fun s u h => by rw [h.cfg, h.col]) blind_opDnewline Blind.skip

theorem blindWrite_stepColumn : BlindWrite stepColumn :=
  ⟨fun s u h => { h with col := by simp only [stepColumn, h.modes, h.col] }, fun _ => rfl⟩

theorem blind_messageByte (b : Byte) : Blind (messageByte b) :=
  Blind.ite (fun _ _ _ => Iff.rfl) blind_opDnewline
    ((blind_sendWord fun _ _ _ => rfl).andThen (blind_wrapColumn.write blindWrite_stepColumn))

theorem blind_opDmessage (text : List Byte) : Blind (opDmessage text) := by
  induction text with
  | nil => exact Blind.skip
  | cons b bs ih => exact (blind_messageByte b).andThen ih

theorem blind_opDclose : Blind opDclose :=
  blind_opClose.andThen (Blind.param (fun s u h => by rw [h.cfg]) Blind.perform)

theorem blind_construct (c : Cfg) : Blind (construct c) := by
  have hbring : Blind fun s => perform (bringUpEvents c (s.construct c).bls) (s.construct c) :=
    Blind.param (k := fun es s => perform es (s.construct c))
      (fun s u h => by rw [((blindWrite_construct c).inputs s u h).bls])
      fun es => (Blind.perform es).write (blindWrite_construct c)
  exact hbring.andThen (blind_applyAndFlush c.ctorSetters)

/-- Construction ends alike, and so does what becomes of `life`. -/
theorem Run.Alike.concludeReset {tr tr' : List Entry} {r r' : Run} (h : Run.Alike tr tr' r r') :
    Run.Alike tr tr' r.concludeReset r'.concludeReset := by
  cases h with
  | done h => exact .done ⟨{ h.1 with life := rfl }, h.2⟩
  | abort x h => exact .abort x ⟨{ h.1 with life := rfl }, h.2⟩
  | refused x => exact .refused x
  | stuck f => exact .stuck f

theorem blind_opReset (c : Cfg) : Blind (opReset c) := by
  have hrun : Blind fun s => (construct c s).concludeReset :=
    fun s u h => (blind_construct c s u h).concludeReset
  exact Blind.ite (fun s u h => by rw [h.closed]) (Blind.refused .closed) <|
    Blind.ite (fun s u h => by rw [h.life]) (Blind.refused .constructionFailed) <|
      Blind.ite (fun _ _ _ => Iff.rfl) hrun (Blind.refused .illFormedConfig)

/-! ### Every instruction -/

theorem plainEvents_ofInputs (i : Instr) : OfInputs (plainEvents i) := by
  intro s u h
  unfold plainEvents
  rw [h.cfg, h.bls, h.modes]

/-- Every instruction but `LTR?` is one blind run. -/
theorem exec_blind {i : Instr} (hi : i ≠ .ltr) {s u : State} (h : s.SameInputs u) :
    ∃ k, Blind k ∧ exec i s = (k s).outcome ∧ exec i u = (k u).outcome := by
  obtain ⟨c, rfl⟩ | ⟨es, he⟩ | ⟨xs, rfl⟩ | ⟨x, hx⟩ | ⟨x, hx⟩ | rfl | rfl | rfl | rfl | hc :=
    instr_shapes i s
  · exact ⟨_, blind_opReset c, rfl, rfl⟩
  · exact ⟨_, Blind.whenReady (Blind.perform es), exec_plain he,
      exec_plain ((plainEvents_ofInputs i s u h).symm.trans he)⟩
  · exact ⟨_, Blind.whenReady (blind_applyAndFlush xs), rfl, rfl⟩
  · exact ⟨_, blind_toggle x, exec_toggle hx s, exec_toggle hx u⟩
  · exact ⟨_, blind_setterOnly x, exec_setter hx s, exec_setter hx u⟩
  · exact ⟨_, blind_opBacklight true, rfl, rfl⟩
  · exact ⟨_, blind_opBacklight false, rfl, rfl⟩
  · exact ⟨_, blind_opClose, rfl, rfl⟩
  · exact absurd rfl hi
  · cases i <;> simp only [isClient, reduceCtorEq] at hc
    case dhome => exact ⟨_, Blind.whenGeometry blind_opDhome, rfl, rfl⟩
    case dclear => exact ⟨_, Blind.whenGeometry blind_opDclear, rfl, rfl⟩
    case dnewline => exact ⟨_, Blind.whenGeometry blind_opDnewline, rfl, rfl⟩
    case dsetcursor c r => exact ⟨_, Blind.whenGeometry (blind_opDsetcursor c r), rfl, rfl⟩
    case dmessage text => exact ⟨_, Blind.whenGeometry (blind_opDmessage text), rfl, rfl⟩
    case dclose => exact ⟨_, Blind.whenGeometry blind_opDclose, rfl, rfl⟩

/-- What the host sees of two runs that end alike: the same outcome, result and added events. -/
def SameAnswer (s u : State) (o o' : Host.Outcome State Fault Refusal) : Prop :=
  (∀ t, o = .next t → ∃ v new, o' = .next v ∧ t.SameInputs v ∧ v.result = t.result ∧
    t.trace = s.trace ++ new ∧ v.trace = u.trace ++ new) ∧
  (∀ r, o = .refused r → o' = .refused r) ∧ ∀ f, o = .fault f → o' = .fault f

theorem sameAnswer_next {s u t v : State} (h : SameSince s.trace u.trace t v) (x : Result) :
    SameAnswer s u (.next { t with result := x }) (.next { v with result := x }) := by
  obtain ⟨hin, new, ht, hv⟩ := h
  refine ⟨fun w hw => ?_, (fun _ hr => by cases hr), (fun _ hf => by cases hf)⟩
  obtain rfl := Host.Outcome.next.inj hw
  exact ⟨{ v with result := x }, new, rfl, { hin with }, rfl, ht, hv⟩

theorem sameAnswer_refused {s u : State} (r : Refusal) : SameAnswer s u (.refused r) (.refused r) :=
  ⟨(fun _ ht => by cases ht), fun _ hr => hr, (fun _ hf => by cases hf)⟩

theorem Run.Alike.sameAnswer {s u : State} {r r' : Run} (h : Run.Alike s.trace u.trace r r') :
    SameAnswer s u r.outcome r'.outcome := by
  cases h with
  | done h => exact sameAnswer_next h .ok
  | abort x h => exact sameAnswer_next h (.err x)
  | refused x => exact sameAnswer_refused x
  | stuck f => exact ⟨(fun _ ht => by cases ht), (fun _ hr => by cases hr), fun _ hf => hf⟩

/-- Settles O50: `LTR?` reads the mode registers alone; every other instruction is a blind run. -/
theorem wireIsNeverRead : Obligations.WireIsNeverRead := by
  unfold Obligations.WireIsNeverRead
  intro i s u h
  by_cases hi : i = .ltr
  · subst hi
    have hltr : ltr s.modes = ltr u.modes := congrArg ltr h.modes
    by_cases hc : s.closed = true
    · rw [exec_ltr, exec_ltr, if_pos hc, if_pos (h.closed ▸ hc)]
      exact sameAnswer_refused .closed
    · rw [exec_ltr, exec_ltr, if_neg hc, if_neg (h.closed ▸ hc), hltr]
      exact sameAnswer_next (SameSince.start h) _
  · obtain ⟨k, hk, hs, hu⟩ := exec_blind hi h
    rw [hs, hu]
    exact (hk s u h).sameAnswer

end Sys2Proof.Machine
end

section
/-! Proofs of O37 and O38: where an operation asks the environment. How operations are put together is
said once (`Built`), and both statements follow from it by induction. -/

namespace Sys2Proof.Machine

/-! ### How operations are put together -/

/-- A register write that leaves the environment's answers and the trace alone. -/
structure EnvFree (g : State → State) : Prop where
  withEnv : ∀ s env, g (s.withEnv env) = (g s).withEnv env
  trace : ∀ s, (g s).trace = s.trace

theorem EnvFree.env {g : State → State} (hg : EnvFree g) (s : State) : (g s).env = s.env := by
  simpa using congrArg State.env (hg.withEnv s s.env)

/-- A part of an operation that asks the environment through `perform` alone: sequences of primitives
(R62), register writes and refusals (R214), one after another (R15), with parameters that are read
from anything but the answers. -/
inductive Built : (State → Run) → Prop
  | perform (es : List Event) : Built (perform es)
  | done {g : State → State} (hg : EnvFree g) : Built fun s => .done (g s)
  | refused (r : Refusal) : Built fun _ => .refused r
  | andThen {f k : State → Run} (hf : Built f) (hk : Built k) : Built fun s => (f s).andThen k
  | param {α : Type} {f : State → α} {k : α → State → Run} (hf : ∀ s env, f (s.withEnv env) = f s)
      (hk : ∀ a, Built (k a)) : Built fun s => k (f s) s
  | conclude {f : State → Run} (hf : Built f) : Built fun s => (f s).concludeReset

/-! ### What follows for every such part -/

/-- What `RESET` makes of a steady construction is steady (R234). -/
theorem Steady.conclude {f : State → Run} {s : State} (hf : Steady f s) :
    Steady (fun s => (f s).concludeReset) s := by
  obtain ⟨habort, hdone⟩ := hf
  cases hr : f (s.withEnv []) with
  | done u =>
    obtain ⟨henv, new, htr, hsilent⟩ := hdone u hr
    refine ⟨by simp [hr, Run.concludeReset], fun v hv => ?_⟩
    simp only [hr, Run.concludeReset] at hv
    obtain rfl := Run.done.inj hv
    refine ⟨henv, new, htr, fun k rest => ?_⟩
    have hrun := hsilent k rest
    by_cases hk : k < fallibles new
    · rw [if_pos hk] at hrun ⊢
      exact congrArg Run.concludeReset hrun
    · rw [if_neg hk] at hrun ⊢
      exact congrArg Run.concludeReset hrun
  | abort u e => exact absurd hr (habort u e)
  | refused r => simp [hr, Steady, Run.concludeReset]
  | stuck x => simp [hr, Steady, Run.concludeReset]

theorem Built.steady {k : State → Run} (h : Built k) : ∀ s, Steady k s := by
  induction h with
  | perform es => exact Steady.perform es
  | @done g hg => exact fun s => steady_done g s (hg.withEnv s) (hg.trace s)
  | refused r => exact fun s => ⟨by simp, by simp⟩
  | andThen _ _ ihf ihk => exact fun s => (ihf s).andThen fun u _ => ihk u
  | param hf _ ihk => exact fun s => (ihk _ s).congr fun env => by rw [hf]
  | conclude _ ihf => exact fun s => (ihf s).conclude

/-- The run does not hang, and where it runs to its end every further primitive will be answered too
(R66). -/
def Run.Answered : Run → Prop
  | .done t => t.Answers
  | .abort _ _ => True
  | .refused _ => True
  | .stuck _ => False

theorem performOne_answered (e : Event) {s : State} (hs : s.Answers) : (performOne e s).Answered := by
  obtain ⟨-, h⟩ | ⟨-, -, h⟩ | ⟨x, -, -, h⟩ | ⟨-, hnever, -⟩ := performOne_cases e s
  · rw [h]
    simpa [Run.Answered, State.Answers] using hs
  · rw [h]
    simpa [Run.Answered, State.Answers] using fun hmem => hs (List.mem_of_mem_tail hmem)
  · rw [h]
    trivial
  · refine absurd ?_ hs
    unfold State.answer at hnever
    cases henv : s.env <;> simp_all

theorem Run.Answered.andThen {r : Run} {k : State → Run} (hr : r.Answered)
    (hk : ∀ u : State, u.Answers → (k u).Answered) : (r.andThen k).Answered := by
  cases r with
  | done u => exact hk u hr
  | abort u x => trivial
  | refused x => trivial
  | stuck f => exact hr

theorem perform_answered (es : List Event) {s : State} (hs : s.Answers) : (perform es s).Answered := by
  induction es generalizing s with
  | nil => exact hs
  | cons e es ih => exact (performOne_answered e hs).andThen fun _ hu => ih hu

theorem Run.Answered.conclude {r : Run} (hr : r.Answered) : r.concludeReset.Answered := by
  cases r <;> exact hr

theorem Built.answered {k : State → Run} (h : Built k) {s : State} (hs : s.Answers) :
    (k s).Answered := by
  induction h generalizing s with
  | perform es => exact perform_answered es hs
  | done hg =>
    show TStatus.never ∉ _
    rwa [hg.env]
  | refused r => trivial
  | andThen _ _ ihf ihk => exact (ihf hs).andThen fun _ hu => ihk hu
  | param _ _ ihk => exact ihk _ hs
  | conclude _ ihf => exact (ihf hs).conclude

theorem Run.Answered.outcome_ne_fault {r : Run} (hr : r.Answered) (f : Fault) :
    r.outcome ≠ .fault f := by
  cases r with
  | done t | abort t x | refused x => nofun
  | stuck g => exact hr.elim

/-! ### Refusals and register writes -/

/-- A register write, and then such a part. -/
theorem Built.write {g : State → State} {k : State → Run} (hk : Built k) (hg : EnvFree g) :
    Built fun s => k (g s) :=
  (Built.done hg).andThen hk

theorem Built.skip : Built .done := Built.perform []

theorem Built.ite {p : State → Prop} [DecidablePred p] {f k : State → Run}
    (hp : ∀ s env, p (s.withEnv env) ↔ p s) (hf : Built f) (hk : Built k) :
    Built fun s => if p s then f s else k s := by
  have hbranch : ∀ b : Bool, Built fun s => if b then f s else k s := by
    intro b
    cases b
    · exact hk
    · exact hf
  have h := Built.param (f := fun s => decide (p s)) (fun s env => by simp [hp]) hbranch
  simpa using h

/-- What becomes of an operation of a block that is not closed, by how far its construction has come
(R214(c), (d)). -/
def whenConstructed (k : State → Run) : Life → State → Run
  | .unbuilt => fun _ => .refused .notConstructed
  | .failed => fun _ => .refused .constructionFailed
  | .ready => k

theorem whenReady_eq (k : State → Run) : (fun s => whenReady s k) =
    fun s => if s.closed then .refused .closed else whenConstructed k s.life s := by
  funext s
  unfold whenReady whenConstructed
  cases s.life <;> rfl

theorem Built.whenReady {k : State → Run} (hk : Built k) : Built fun s => Machine.whenReady s k := by
  have hlife : ∀ l, Built (whenConstructed k l) := by
    intro l
    cases l with
    | unbuilt => exact Built.refused .notConstructed
    | failed => exact Built.refused .constructionFailed
    | ready => exact hk
  rw [whenReady_eq]
  exact Built.ite (fun _ _ => Iff.rfl) (Built.refused .closed)
    (Built.param (f := State.life) (fun _ _ => rfl) hlife)

theorem Built.whenGeometry {k : State → Run} (hk : Built k) :
    Built fun s => Machine.whenGeometry s k :=
  Built.ite (fun _ _ => Iff.rfl) hk (Built.refused .badGeometry)

theorem EnvFree.id : EnvFree fun s => s := ⟨fun _ _ => rfl, fun _ => rfl⟩

theorem envFree_applySetters (xs : List Setter) : EnvFree (·.applySetters xs) :=
  ⟨fun _ _ => rfl, fun _ => rfl⟩

theorem envFree_moveTo (c : Int) (r : Nat) : EnvFree (·.moveTo c r) := ⟨fun _ _ => rfl, fun _ => rfl⟩

theorem envFree_construct (c : Cfg) : EnvFree (·.construct c) := ⟨fun _ _ => rfl, fun _ => rfl⟩

/-- The primitives of an operation are worked out from the state before it performs them. -/
theorem Built.events {events : State → List Event}
    (h : ∀ s env, events (s.withEnv env) = events s) {g : State → State} (hg : EnvFree g) :
    Built fun s => Machine.perform (events s) (g s) :=
  Built.param (k := fun es s => Machine.perform es (g s)) h fun es => (Built.perform es).write hg

/-! ### The operations -/

theorem built_emitting {events : State → List Event}
    (h : ∀ s env, events (s.withEnv env) = events s) : Built (emitting events) :=
  (Built.events h .id).whenReady

theorem built_sendWord {w : State → BusWord} (h : ∀ s env, w (s.withEnv env) = w s) :
    Built (sendWord w) :=
  built_emitting fun s env => congrArg (busWrite s.cfg s.bls) (h s env)

theorem built_applyAndFlush (xs : List Setter) : Built (applyAndFlush xs) :=
  Built.events (fun _ _ => rfl) (envFree_applySetters xs)

theorem built_toggle (x : Setter) : Built (toggle x) :=
  (Built.events (fun _ _ => rfl) (envFree_applySetters [x])).whenReady

theorem built_setterOnly (x : Setter) : Built (setterOnly x) :=
  (Built.done (envFree_applySetters [x])).whenReady

theorem built_opBacklight (on : Bool) : Built (opBacklight on) := by
  refine Built.whenReady (Built.param (f := State.cfg) (k := backlightRun on) (fun _ _ => rfl) ?_)
  intro c
  unfold backlightRun
  cases c.bus with
  | par h => exact Built.perform _
  | i2c p a r => exact (Built.perform _).write ⟨fun _ _ => rfl, fun _ => rfl⟩

theorem built_opClose : Built opClose :=
  (Built.events (g := fun s => { s with closed := true }) (fun _ _ => rfl)
    ⟨fun _ _ => rfl, fun _ => rfl⟩).whenReady

theorem built_opDsetcursor (c r : Nat) : Built (opDsetcursor c r) :=
  Built.param (f := State.cfg)
    (k := fun cfg s => opSetcursor (ddramAddress cfg.cols c (clampRow cfg.rows r))
      (s.moveTo c (clampRow cfg.rows r)))
    (fun _ _ => rfl)
    fun _ => Built.write (built_sendWord fun _ _ => rfl) (envFree_moveTo c _)

theorem built_opDnewline : Built opDnewline :=
  Built.param (f := fun s => (startColumn s, s.row + 1)) (k := fun p => opDsetcursor p.1 p.2)
    (fun _ _ => rfl) fun p => built_opDsetcursor p.1 p.2

theorem built_opDhome : Built opDhome :=
  have hhome : Built opHome := built_emitting fun _ _ => rfl
  hhome.write (envFree_moveTo 0 0)

theorem built_opDclear : Built opDclear := by
  have hclear : Built opClearr := built_emitting fun _ _ => rfl
  refine (hclear.write (envFree_moveTo 0 0)).andThen (Built.ite (fun _ _ => Iff.rfl) Built.skip ?_)
  exact Built.param (f := fun s => s.cfg.cols - 1) (k := fun c => opDsetcursor c 0) (fun _ _ => rfl)
    fun c => built_opDsetcursor c 0

theorem built_messageByte (b : Byte) : Built (messageByte b) := by
  have hwrap : Built wrapColumn := Built.ite (fun _ _ => Iff.rfl) built_opDnewline Built.skip
  have hstep : EnvFree stepColumn := ⟨fun _ _ => rfl, fun _ => rfl⟩
  exact Built.ite (fun _ _ => Iff.rfl) built_opDnewline
    ((built_sendWord fun _ _ => rfl).andThen (hwrap.write hstep))

theorem built_opDmessage (text : List Byte) : Built (opDmessage text) := by
  induction text with
  | nil => exact Built.skip
  | cons b bs ih => exact (built_messageByte b).andThen ih

theorem built_opDclose : Built opDclose :=
  built_opClose.andThen (Built.events (fun _ _ => rfl) .id)

theorem built_opReset (c : Cfg) : Built (opReset c) := by
  have hconstruct : Built (construct c) :=
    (Built.events (fun _ _ => rfl) (envFree_construct c)).andThen (built_applyAndFlush c.ctorSetters)
  exact Built.ite (fun _ _ => Iff.rfl) (Built.refused .closed) <|
    Built.ite (fun _ _ => Iff.rfl) (Built.refused .constructionFailed) <|
      Built.ite (fun _ _ => Iff.rfl) hconstruct.conclude (Built.refused .illFormedConfig)

/-! ### Every instruction -/

/-- Every instruction but `LTR?` is such a part, whatever the environment answers. -/
theorem exec_built {i : Instr} (hi : i ≠ .ltr) (s : State) :
    ∃ k, Built k ∧ ∀ env, exec i (s.withEnv env) = (k (s.withEnv env)).outcome := by
  obtain ⟨c, rfl⟩ | ⟨es, he⟩ | ⟨xs, rfl⟩ | ⟨x, hx⟩ | ⟨x, hx⟩ | rfl | rfl | rfl | rfl | hc :=
    instr_shapes i s
  · exact ⟨_, built_opReset c, fun _ => rfl⟩
  · exact ⟨_, (Built.perform es).whenReady, fun _ => exec_plain he⟩
  · exact ⟨_, (built_applyAndFlush xs).whenReady, fun _ => rfl⟩
  · exact ⟨_, built_toggle x, fun _ => exec_toggle hx _⟩
  · exact ⟨_, built_setterOnly x, fun _ => exec_setter hx _⟩
  · exact ⟨_, built_opBacklight true, fun _ => rfl⟩
  · exact ⟨_, built_opBacklight false, fun _ => rfl⟩
  · exact ⟨_, built_opClose, fun _ => rfl⟩
  · exact absurd rfl hi
  · cases i <;> simp only [isClient, reduceCtorEq] at hc
    case dhome => exact ⟨_, built_opDhome.whenGeometry, fun _ => rfl⟩
    case dclear => exact ⟨_, built_opDclear.whenGeometry, fun _ => rfl⟩
    case dnewline => exact ⟨_, built_opDnewline.whenGeometry, fun _ => rfl⟩
    case dsetcursor c r => exact ⟨_, (built_opDsetcursor c r).whenGeometry, fun _ => rfl⟩
    case dmessage text => exact ⟨_, (built_opDmessage text).whenGeometry, fun _ => rfl⟩
    case dclose => exact ⟨_, built_opDclose.whenGeometry, fun _ => rfl⟩

/-- A word asks for as many outcomes as R57 says. -/
theorem wireWord_fallibles (c : Cfg) (bls rs : Bool) (data : Byte) :
    ((wireWord c bls rs data).filter Event.fallible).length = wordWrites c.bus := by
  unfold wireWord
  cases c.bus <;> rfl

theorem exec_oneWord_hangs {i : Instr} {rs : Bool} {data : Byte} {s : State} {k : Nat}
    {rest : List TStatus} (hword : oneWord s.cfg.ic i = some (rs, data)) (hready : s.Ready)
    (henv : s.env = List.replicate k .ok ++ .never :: rest) (hk : k < wordWrites s.cfg.bus) :
    exec i s = .fault .hang := by
  rw [← wireWord_fallibles s.cfg s.bls rs data] at hk
  rw [exec_oneWord hword, whenReady_ready hready, (perform_fails _ s k _ rest henv (by simp) hk).2 rfl,
    Run.outcome]

theorem exec_hangs {i : Instr} {s t : State} {new : List Entry} {k : Nat} {rest : List TStatus}
    (h : exec i (s.withEnv []) = .next t) (htr : t.trace = s.trace ++ new) (hk : k < fallibles new) :
    exec i (s.silentAfter k rest) = .fault .hang := by
  by_cases hi : i = .ltr
  · subst hi
    rw [exec_ltr] at h
    split at h
    · cases h
    · cases h
      simp [List.self_eq_append_right.mp htr, fallibles] at hk
  · obtain ⟨f, hbuilt, hexec⟩ := exec_built hi s
    exact (hexec _).trans ((hbuilt.steady s).hangs ((hexec []).symm.trans h) htr hk)

/-- Settles O37: the first clause is a word's own events under such answers, the second holds because
every part of an operation is steady. -/
theorem unansweredWriteHangs : Obligations.UnansweredWriteHangs := by
  unfold Obligations.UnansweredWriteHangs
  exact ⟨fun _ _ _ _ _ _ hword hready henv hk => exec_oneWord_hangs hword hready henv hk,
    fun _ _ _ _ _ _ h htr hk => exec_hangs h htr hk⟩

/-- Settles O38: `LTR?` asks for nothing; every other instruction is put together from parts that do
not hang when they are answered. -/
theorem answeredOperationsDoNotHang : Obligations.AnsweredOperationsDoNotHang := by
  unfold Obligations.AnsweredOperationsDoNotHang
  intro i s hs f
  by_cases hi : i = .ltr
  · subst hi
    rw [exec_ltr]
    split <;> nofun
  · obtain ⟨k, hbuilt, hexec⟩ := exec_built hi s
    rw [show exec i s = (k s).outcome from hexec s.env]
    exact (hbuilt.answered hs).outcome_ne_fault f

end Sys2Proof.Machine
end

section
/-! Proof of O49: the events of each bus leave the other bus's space alone. -/

namespace Sys2Proof.Machine

theorem EmittedBy.not_x {i : Instr} {c : Cfg} {h : Handles} (hbus : c.bus = .par h) {a v : Byte} :
    ¬ EmittedBy i c (.x a v) := by
  simp [EmittedBy, WordEvent, hbus]

theorem EmittedBy.not_xclose {i : Instr} {c : Cfg} {h : Handles} (hbus : c.bus = .par h) :
    ¬ EmittedBy i c .xclose := by
  simp [EmittedBy, WordEvent, hbus]

theorem EmittedBy.not_w {i : Instr} {c : Cfg} {p : PinMap} {a : Byte} {r : Bool}
    (hbus : c.bus = .i2c p a r) {l : Line} {v : Bool} : ¬ EmittedBy i c (.w l v) := by
  simp [EmittedBy, WordEvent, hbus]

theorem EmittedBy.not_close_of_expander {i : Instr} {c : Cfg} {p : PinMap} {a : Byte} {r : Bool}
    (hbus : c.bus = .i2c p a r) {l : Line} : ¬ EmittedBy i c (.close l) := by
  simp [EmittedBy, WordEvent, hbus]

/-- On the parallel bus no event writes the expander's image or releases the I2C bus (R36, R50). -/
theorem exec_keeps_expander {i : Instr} {s t : State} {h : Handles} (hi : ∀ c, i ≠ .reset c)
    (hbus : s.cfg.bus = .par h) (hexec : exec i s = .next t) : t.xp = s.xp ∧ t.xc = s.xc := by
  refine exec_keeps (P := fun u => u.xp = s.xp ∧ u.xc = s.xc) hi (fun e u he _ hu => ?_) ?_
    (fun _ _ hu => hu) ⟨rfl, rfl⟩ hexec
  · cases e with
    | x a v => exact absurd he (EmittedBy.not_x hbus)
    | xclose => exact absurd he (EmittedBy.not_xclose hbus)
    | dir l | w l v | close l | d n | closeBlh => simpa [okEffect, errEffect] using hu
  · exact ⟨fun _ _ _ hu => hu, fun _ _ _ _ hu => hu, fun _ _ hu => hu, fun _ _ _ _ _ hu => hu⟩

/-- On I2C no event sets up, drives or releases a line (R33 to R35, R50). -/
theorem exec_keeps_lines {i : Instr} {s t : State} {p : PinMap} {a : Byte} {r : Bool}
    (hi : ∀ c, i ≠ .reset c) (hbus : s.cfg.bus = .i2c p a r) (hexec : exec i s = .next t) :
    t.lines = s.lines := by
  refine exec_keeps (P := fun u => u.lines = s.lines) hi (fun e u he _ hu => ?_) ?_
    (fun _ _ hu => hu) rfl hexec
  · cases e with
    | dir l => exact absurd he EmittedBy.not_dir
    | w l v => exact absurd he (EmittedBy.not_w hbus)
    | close l => exact absurd he (EmittedBy.not_close_of_expander hbus)
    | x b v | xclose | d n | closeBlh => simpa [okEffect, errEffect] using hu
  · exact ⟨fun _ _ _ hu => hu, fun _ _ _ _ hu => hu, fun _ _ hu => hu, fun _ _ _ _ _ hu => hu⟩

/-- Settles O49, bus by bus. -/
theorem oneOutputSpace : Obligations.OneOutputSpace := by
  unfold Obligations.OneOutputSpace
  intro i s t hexec hi
  split
  · next hbus => exact exec_keeps_expander hi hbus hexec
  · next hbus => exact exec_keeps_lines hi hbus hexec

end Sys2Proof.Machine
end

section
/-! Proof of O56: what the reference receiver makes of a word (R246), nibble by nibble on either
bus. -/

namespace Sys2Proof.Machine

/-! ### Pins and captures -/

/-- The receiver's pins while a nibble is presented (R79, R102). -/
def Pins.nibble (rs : Bool) (n : Nibble) (en : Bool) : Pins :=
  { en := .ofBit en, rs := .ofBit rs, d4 := .ofBit (n.getLsbD 0), d5 := .ofBit (n.getLsbD 1)
    d6 := .ofBit (n.getLsbD 2), d7 := .ofBit (n.getLsbD 3) }

@[simp] theorem Level.bit?_ofBit (v : Bool) : (Level.ofBit v).bit? = some v := by cases v <;> rfl

/-- The bit order of R55. -/
theorem nibbleOf_getLsbD (n : Nibble) :
    nibbleOf (n.getLsbD 0) (n.getLsbD 1) (n.getLsbD 2) (n.getLsbD 3) = n := by
  revert n
  decide

@[simp] theorem Pins.capture_nibble (rs : Bool) (n : Nibble) (en : Bool) :
    (Pins.nibble rs n en).capture = some (rs, n) := by
  simp only [Pins.capture, Pins.nibble, Level.bit?_ofBit, nibbleOf_getLsbD]

/-- The nibble order of R54. -/
theorem hiNibble_append_loNibble (b : Byte) : hiNibble b ++ loNibble b = b := by
  revert b
  decide

/-- The receiver with other levels on its pins, and nothing else received. -/
def Receiver.withPins (r : Receiver) (q : Pins) : Receiver := { r with pins := q }

@[simp] theorem Receiver.withPins_pins (r : Receiver) (q : Pins) : (r.withPins q).pins = q := rfl

@[simp] theorem Receiver.withPins_withPins (r : Receiver) (p q : Pins) :
    (r.withPins p).withPins q = r.withPins q := rfl

/-- What is captured does not depend on what the pins are then. -/
@[simp] theorem Receiver.withPins_take (r : Receiver) (q : Pins) (c : Option (Bool × Nibble)) :
    (r.withPins q).take c = (r.take c).withPins q := by
  unfold Receiver.take Receiver.withPins
  cases r.half <;> rfl

/-- The receiver after a nibble: captured at the falling edge, with EN low again. -/
def Receiver.latch (r : Receiver) (rs : Bool) (n : Nibble) : Receiver :=
  (r.take (some (rs, n))).withPins (.nibble rs n false)

theorem Receiver.latch_enable (r : Receiver) (rs : Bool) (n : Nibble) :
    (r.latch rs n).pins.en ≠ .high := by
  simp [Receiver.latch, Pins.nibble, Level.ofBit]

theorem Receiver.latch_rs (r : Receiver) (rs : Bool) (n : Nibble) :
    (r.latch rs n).pins.rs = .ofBit rs := rfl

/-- A nibble overwrites all the pins. -/
@[simp] theorem Receiver.withPins_latch (r : Receiver) (q : Pins) (rs : Bool) (n : Nibble) :
    (r.withPins q).latch rs n = r.latch rs n := by
  simp [Receiver.latch]

/-- A receiver at rest makes one word of two nibbles (R246). -/
theorem Receiver.latch_latch {r : Receiver} (hhalf : r.half = none) (rs : Bool) (data : Byte) :
    (r.latch rs (hiNibble data)).latch rs (loNibble data) =
      { r with
        pins := .nibble rs (loNibble data) false
        captures := r.captures ++ [some (rs, hiNibble data), some (rs, loNibble data)]
        words := r.words ++ [⟨rs, data⟩] } := by
  simp [Receiver.latch, Receiver.withPins, Receiver.take, hhalf, pairWord, hiNibble_append_loNibble]

/-! ### A nibble on either bus -/

/-- The four data lines present a nibble; EN and RS stay as they are (R103). -/
theorem see_pNibble (h : Handles) (n : Nibble) {rs : Bool} {r : Receiver}
    (hrs : r.pins.rs = .ofBit rs) :
    (pNibble n).foldl (Receiver.see (.par h)) r =
      r.withPins { Pins.nibble rs n false with en := r.pins.en } := by
  simp [pNibble, Receiver.see_line, Pins.put, Pins.nibble, Receiver.withPins, hrs]

/-- A pulse of EN latches the nibble presented (R104, R106). -/
theorem see_pPulse (h : Handles) (t : Nat) (rs : Bool) (n : Nibble) {en : Level} (hen : en ≠ .high)
    (r : Receiver) :
    (pPulse t).foldl (Receiver.see (.par h)) (r.withPins { Pins.nibble rs n false with en := en }) =
      r.latch rs n := by
  have hlow : ∀ q : Pins, q.en ≠ .high → (r.withPins q).see (.par h) (.w .en false) =
      r.withPins { q with en := .low } := fun q => Receiver.see_low h (r.withPins q)
  have hrise : ∀ q : Pins, (r.withPins q).see (.par h) (.w .en true) =
      r.withPins { q with en := .high } := fun q => Receiver.see_rise h (r.withPins q)
  have hfall : (r.withPins (.nibble rs n true)).see (.par h) (.w .en false) = r.latch rs n := by
    rw [Receiver.see_fall h _ rfl, Receiver.withPins_pins, Pins.capture_nibble,
      Receiver.withPins_take]
    rfl
  simp only [pPulse, List.foldl_cons, List.foldl_nil, Receiver.see_delay]
  rw [hlow _ hen, hrise]
  exact hfall

/-- A nibble on the lines, and its pulse (R102). -/
theorem see_nibble (h : Handles) (t : Nat) {rs : Bool} (n : Nibble) {r : Receiver}
    (hrs : r.pins.rs = .ofBit rs) (hen : r.pins.en ≠ .high) :
    (pPulse t).foldl (Receiver.see (.par h)) ((pNibble n).foldl (Receiver.see (.par h)) r) =
      r.latch rs n := by
  rw [see_pNibble h n hrs, see_pPulse h t rs n hen]

/-- A nibble's three bytes: presented, raised, latched (R124, R125). -/
theorem see_xPulse (c : Cfg) {p : PinMap} (hp : PinsDistinct p) (a a' : Byte) (b rs bls : Bool)
    (n : Nibble) {r : Receiver} (hen : r.pins.en ≠ .high) :
    (xPulse c p a (xMap p n ||| xCtl p rs bls)).foldl (Receiver.see (.i2c p a' b)) r =
      r.latch rs n := by
  have hpins : ∀ (q : Pins) en,
      q.after (.i2c p a' b) (.x a (xByte p n rs bls en)) = .nibble rs n en :=
    fun _ en => Pins.ofByte_xByte hp n rs bls en
  have hpresent : r.see (.i2c p a' b) (.x a (xByte p n rs bls false)) =
      r.withPins (.nibble rs n false) := by
    rw [Receiver.see_steady (.inl hen), hpins]
    rfl
  have hraise : (r.withPins (.nibble rs n false)).see (.i2c p a' b) (.x a (xByte p n rs bls true)) =
      r.withPins (.nibble rs n true) := by
    rw [Receiver.see_steady (.inl (by simp [Pins.nibble, Level.ofBit])), hpins]
    rfl
  have hfall : (r.withPins (.nibble rs n true)).see (.i2c p a' b) (.x a (xByte p n rs bls false)) =
      r.latch rs n := by
    rw [Receiver.see_falls rfl (by rw [hpins]; rfl), hpins, Receiver.withPins_pins,
      Pins.capture_nibble, Receiver.withPins_take]
    rfl
  simp only [xPulse, xSend, xByte_base, xByte_enable, List.cons_append, List.nil_append,
    List.foldl_cons, List.foldl_nil, Receiver.see_delay, hpresent, hraise, hfall]

/-! ### A word -/

/-- A word is its two nibbles, high then low (R54, R102, R123). -/
theorem see_busWrite {c : Cfg} (hwf : c.wf = true) (bls : Bool) (w : BusWord) {r : Receiver}
    (hen : r.pins.en ≠ .high) :
    (busWrite c bls w).foldl (Receiver.see c.bus) r =
      (r.latch w.rs (hiNibble w.data)).latch w.rs (loNibble w.data) := by
  unfold busWrite
  cases hbus : c.bus with
  | par h =>
    have hrs : r.see (.par h) (.w .rs w.rs) = r.withPins { r.pins with rs := .ofBit w.rs } :=
      Receiver.see_line h r .rs w.rs (by decide)
    have hhigh := see_nibble h c.tPulse (hiNibble w.data) (rs := w.rs)
      (r := r.withPins { r.pins with rs := .ofBit w.rs }) rfl hen
    simp only [pWrite, List.foldl_append, List.foldl_cons, List.foldl_nil, Receiver.see_delay, hrs]
    rw [hhigh, see_nibble h c.tPulse _ (Receiver.latch_rs _ _ _) (Receiver.latch_enable _ _ _),
      Receiver.withPins_latch]
  | i2c p a b =>
    have hp := pinsDistinct_of_wf hwf hbus
    simp only [xWrite, List.foldl_append, List.foldl_cons, List.foldl_nil, Receiver.see_delay]
    rw [see_xPulse c hp a a b _ bls _ hen, see_xPulse c hp a a b _ bls _ (Receiver.latch_enable _ _ _)]

/-- Events that did not fail are seen one after another. -/
theorem received_append_okEntries {s t : State} {es : List Event} (landed : List Bool)
    (hcfg : t.cfg = s.cfg) (htr : t.trace = s.trace ++ okEntries es) :
    t.received landed = es.foldl (Receiver.see s.cfg.bus) (s.received landed) := by
  simp [State.received, receive, hcfg, htr, okEntries, List.foldl_map]

/-- Settles O56: the instruction adds its word's events, and those are its two nibbles. -/
theorem receiverGetsTheWord : Obligations.ReceiverGetsTheWord := by
  unfold Obligations.ReceiverGetsTheWord
  intro i rs data s landed hword hready hok hwf hrest
  obtain ⟨hhalf, hen⟩ := hrest
  obtain ⟨t, hexec, -, htr, -, hconfig, -⟩ := oneWordInstructionsComplete i rs data s hword hready hok
  have hreceived : t.received landed =
      ((s.received landed).latch rs (hiNibble data)).latch rs (loNibble data) := by
    rw [received_append_okEntries landed hconfig.cfg htr]
    exact busWrite_eq s.cfg s.bls ⟨rs, data⟩ ▸ see_busWrite hwf s.bls ⟨rs, data⟩ hen
  refine ⟨t, hexec, ⟨?_, ?_⟩, ?_, ?_⟩ <;> rw [hreceived]
  · rw [Receiver.latch_latch hhalf]
    exact hhalf
  · exact Receiver.latch_enable _ _ _
  · rw [Receiver.latch_latch hhalf]
  · rw [Receiver.latch_latch hhalf]

end Sys2Proof.Machine
end

section
/-! Proof of O1: what each reader of operands accepts, and the commands that are an instruction's
encoding (R82, R89, R90). -/

namespace Sys2Proof

open Machine

/-! ### What each reader of operands accepts (R82) -/

theorem setterNames_eq_some {ops : List Operand} {xs : List Setter} :
    setterNames ops = some xs ↔ ops = xs.map .setter := by
  induction ops generalizing xs with
  | nil => cases xs <;> simp [setterNames]
  | cons o ops ih =>
    cases o with
    | setter x => cases xs <;> simp [setterNames, ih, and_comm]
    | cfg c | byte b | bit b | addr a | nat n | text t => cases xs <;> simp [setterNames]

section Operands

variable {m : Mnemonic} {ops : List Operand} {i : Instr}

theorem takeNone_eq_ok {j : Instr} : takeNone m j ops = .ok i ↔ ops = [] ∧ j = i := by
  unfold takeNone; split <;> simp_all
theorem takeByte_eq_ok {f : Byte → Instr} :
    takeByte m f ops = .ok i ↔ ∃ b, ops = [.byte b] ∧ f b = i := by
  unfold takeByte; split <;> simp_all
theorem takeCfg_eq_ok {f : Cfg → Instr} :
    takeCfg m f ops = .ok i ↔ ∃ c, ops = [.cfg c] ∧ f c = i := by
  unfold takeCfg; split <;> simp_all
theorem takeSetters_eq_ok {f : List Setter → Instr} :
    takeSetters m f ops = .ok i ↔ ∃ xs : List Setter, ops = xs.map .setter ∧ f xs = i := by
  simp only [← setterNames_eq_some]
  unfold takeSetters; split <;> simp_all
theorem takeBits2_eq_ok {f : Bool → Bool → Instr} :
    takeBits2 m f ops = .ok i ↔ ∃ a b, ops = [.bit a, .bit b] ∧ f a b = i := by
  unfold takeBits2; split <;> simp_all [-Bool.exists_bool, and_assoc]
theorem takeBits3_eq_ok {f : Bool → Bool → Bool → Instr} :
    takeBits3 m f ops = .ok i ↔ ∃ a b c, ops = [.bit a, .bit b, .bit c] ∧ f a b c = i := by
  unfold takeBits3; split <;> simp_all [-Bool.exists_bool, and_assoc]
theorem takeAddr_eq_ok {f : BitVec 7 → Instr} :
    takeAddr m f ops = .ok i ↔ ∃ a, ops = [.addr a] ∧ f a = i := by
  unfold takeAddr; split <;> simp_all
theorem takeNats_eq_ok {f : Nat → Nat → Instr} :
    takeNats m f ops = .ok i ↔ ∃ c r, ops = [.nat c, .nat r] ∧ f c r = i := by
  unfold takeNats; split <;> simp_all
theorem takeText_eq_ok {f : List Byte → Instr} :
    takeText m f ops = .ok i ↔ ∃ t, ops = [.text t] ∧ f t = i := by
  unfold takeText; split <;> simp_all

end Operands

/-! ### Commands (R89, R90) -/

/-- The command an instruction is decoded from is the instruction's encoding: its mnemonic has one
reader, and that reader accepts the instruction's own operands only. -/
theorem eq_encodeCommand_of_decodeCommand {c : Command} {i : Instr} (h : decodeCommand c = .ok i) :
    c = encodeCommand i := by
  obtain ⟨m, ops⟩ := c
  cases m
  case reset =>
    obtain ⟨cfg, rfl, rfl⟩ := takeCfg_eq_ok.mp h
    rfl
  case apply =>
    obtain ⟨xs, rfl, rfl⟩ := takeSetters_eq_ok.mp h
    rfl
  case setcursor | wchar | winstr | char | raw =>
    obtain ⟨b, rfl, rfl⟩ := takeByte_eq_ok.mp h
    rfl
  case entryw =>
    obtain ⟨a, b, rfl, rfl⟩ := takeBits2_eq_ok.mp h
    rfl
  case dispw | funcw =>
    obtain ⟨a, b, c, rfl, rfl⟩ := takeBits3_eq_ok.mp h
    rfl
  case ddramw =>
    obtain ⟨a, rfl, rfl⟩ := takeAddr_eq_ok.mp h
    rfl
  case dsetcursor =>
    obtain ⟨c, r, rfl, rfl⟩ := takeNats_eq_ok.mp h
    rfl
  case dmessage =>
    obtain ⟨t, rfl, rfl⟩ := takeText_eq_ok.mp h
    rfl
  case entryInc | entryDec | shiftOn | shiftOff | bus8bit | bus4bit | lines2 | lines1 | font5x10 |
      font5x8 => cases h
  all_goals
    obtain ⟨rfl, rfl⟩ := takeNone_eq_ok.mp h
    rfl

/-- An instruction's encoding decodes to it, unless the instruction is a setter-only row. -/
theorem decodeCommand_encodeCommand {i : Instr} (h : setterRow i = none) :
    decodeCommand (encodeCommand i) = .ok i := by
  cases i
  case apply xs => exact takeSetters_eq_ok.mpr ⟨xs, rfl, rfl⟩
  case entryInc | entryDec | shiftOn | shiftOff | bus8bit | bus4bit | lines2 | lines1 | font5x10 |
      font5x8 => cases h
  all_goals rfl

/-- A setter-only row by itself is refused by its name (R171). -/
theorem decodeCommand_setterRow {i : Instr} {x : Setter} (h : setterRow i = some x) :
    decodeCommand (encodeCommand i) = .error (.setterAlone i.mnemonic) := by
  cases i <;> cases h <;> rfl

/-- Settles O1: decoding and encoding are inverse on the instructions that are commands. -/
theorem commandDecodesIffEncoded : Obligations.CommandDecodesIffEncoded := by
  unfold Obligations.CommandDecodesIffEncoded
  refine ⟨fun c i => ⟨fun h => ?_, ?_⟩, fun _ _ => decodeCommand_setterRow⟩
  · exact ⟨eq_encodeCommand_of_decodeCommand h, decodeCommand_noSetterAlone c i h⟩
  · rintro ⟨rfl, hrow⟩
    exact decodeCommand_encodeCommand hrow

end Sys2Proof
end

section
/-! Proofs of O2, O3, O5 and O8: the two bytes of a bus word, and its row of R71 under the default `IC`,
of which no two accept one word. -/

namespace Sys2Proof

open Machine

/-! ### The two bytes of a word (R70) -/

/-- The `rs` bit before the data bits is the word. -/
theorem ofBool_append_wordData (w : WordBits) : BitVec.ofBool (w.getLsbD 8) ++ wordData w = w := by
  refine BitVec.eq_of_getLsbD_eq fun k hk => ?_
  rw [BitVec.getLsbD_append]
  split
  · next h8 => exact wordData_getLsbD w h8
  · obtain rfl : k = 8 := by omega
    simp

/-- `rs` and the data bits are the whole word. -/
theorem wordBits_ext {v w : WordBits} (hrs : v.getLsbD 8 = w.getLsbD 8)
    (hdata : wordData v = wordData w) : v = w := by
  rw [← ofBool_append_wordData v, hrs, hdata, ofBool_append_wordData]

/-- The second byte of a word is its `rs` bit. -/
theorem wordBytes_eq (w : WordBits) :
    wordBytes w = [wordData w, (BitVec.ofBool (w.getLsbD 8)).setWidth 8] := by
  have hrs : (w >>> 8).setWidth 8 = (BitVec.ofBool (w.getLsbD 8)).setWidth 8 := by
    refine BitVec.eq_of_getLsbD_eq fun k hk => ?_
    cases k with
    | zero => simp
    | succ k => simp [hk, BitVec.getLsbD_of_ge w (8 + (k + 1)) (by omega)]
  rw [wordBytes, hrs]

/-- A word's two bytes are read as that word, and nothing is left over. -/
theorem decodeItem_wordBytes (ic : IC) (w : WordBits) :
    decodeItem ic (.word (wordBytes w)) = .ok (decodeWord ic w) := by
  have hbit : ∀ b : Bool, (BitVec.ofBool b).setWidth 8 &&& (0xFE : Byte) = 0 ∧
      ((BitVec.ofBool b).setWidth 8 : Byte).setWidth 1 = BitVec.ofBool b := by decide
  obtain ⟨hhigh, hlow⟩ := hbit (w.getLsbD 8)
  simp only [decodeItem, decodeBytes, wordBytes_eq, hhigh, hlow, if_true, ofBool_append_wordData]

/-- The table's numbering of a word's bytes is that of the port (log 9). -/
theorem tableBytes_eq_wordBytes (w : WordBits) : tableBytes 16 w.toNat = wordBytes w := by
  have hmod : w.toNat % 2 ^ 16 = w.toNat := Nat.mod_eq_of_lt (by have := w.isLt; omega)
  have htwo : tableBytes 16 w.toNat = [BitVec.ofNat 8 (w.toNat % 2 ^ 16 / 256 ^ 0),
      BitVec.ofNat 8 (w.toNat % 2 ^ 16 / 256 ^ 1)] := rfl
  rw [htwo, hmod, wordBytes, List.cons.injEq, List.cons.injEq]
  refine ⟨BitVec.eq_of_toNat_eq ?_, BitVec.eq_of_toNat_eq ?_, rfl⟩
  · simp [wordData]
  · simp [Nat.shiftRight_eq_div_pow]

/-- Settles O8: the word's bytes at the front of the port are read back as the word, and taking them
leaves the block that was in use. -/
theorem fetchedWordIsRun : Obligations.FetchedWordIsRun := by
  unfold Obligations.FetchedWordIsRun
  intro s w
  have hdec : decodeItem (s.withFetchWord 16 w.toNat).cfg.ic (.word (tableBytes 16 w.toNat)) =
      .ok (decodeWord s.inUse.cfg.ic w) := by
    rw [tableBytes_eq_wordBytes]
    exact decodeItem_wordBytes _ w
  rw [step, fetch_got (rest := s.inUse.port) rfl hdec]
  rfl

/-! ### The rows of R71 are disjoint -/

/-- Two rows fix one bit at different values. -/
def WordRow.Conflict (a b : WordRow) : Prop := a.mask &&& b.mask &&& (a.pat ^^^ b.pat) ≠ 0

theorem WordRow.Conflict.symm {a b : WordRow} (h : a.Conflict b) : b.Conflict a := by
  rwa [WordRow.Conflict, BitVec.and_comm b.mask, BitVec.xor_comm]

/-- Rows that accept one word agree on every bit that both of them fix. -/
theorem WordRow.not_conflict_of_accepts {a b : WordRow} {w : WordBits} (ha : a.accepts w = true)
    (hb : b.accepts w = true) : ¬ a.Conflict b := by
  refine not_not.mpr (BitVec.eq_of_getLsbD_eq fun k _ => ?_)
  rw [BitVec.getLsbD_and, BitVec.getLsbD_and, BitVec.getLsbD_xor, ← WordRow.accepts_bit ha,
    ← WordRow.accepts_bit hb]
  cases a.mask.getLsbD k <;> cases b.mask.getLsbD k <;> simp

theorem wordRows_conflict : (wordRows IC.default).Pairwise WordRow.Conflict := by
  unfold WordRow.Conflict
  decide

/-- Whichever row accepts a word is the row it decodes to: their order in the table does not matter. -/
theorem decodeWord_of_accepts {r : WordRow} {w : WordBits} (hr : r ∈ wordRows IC.default)
    (haccepts : r.accepts w = true) : decodeWord IC.default w = r.build w := by
  unfold decodeWord
  split
  · next q hq =>
    have hqaccepts := List.find?_some (p := fun r : WordRow => r.accepts w) hq
    have hsymm : Std.Symm WordRow.Conflict := ⟨fun _ _ => WordRow.Conflict.symm⟩
    have hqr : q = r := by
      by_contra hne
      exact WordRow.not_conflict_of_accepts hqaccepts haccepts
        (wordRows_conflict.forall (List.mem_of_find?_eq_some hq) hr hne)
    rw [hqr]
  · next hnone => exact absurd haccepts (List.find?_eq_none.mp hnone r hr)

/-! ### Every row but `RAW` decodes to itself -/

theorem ddramRow_mem (ic : IC) : ddramRow ic ∈ wordRows ic := by simp [wordRows, ddramRow]

/-- The `DDRAMW` row fixes the two bits above the address. -/
theorem ddramRow_accepts (a : BitVec 7) : (ddramRow IC.default).accepts (0b01#2 ++ a) = true := by
  have hpat : (ddramRow IC.default).pat = 0b01#2 ++ 0#7 := by decide
  have hmask : (ddramRow IC.default).mask = 0b11#2 ++ 0#7 := by decide
  rw [WordRow.accepts, hpat, hmask, BitVec.and_append, BitVec.and_zero]
  decide

theorem decodeWord_ddramw (a : BitVec 7) : decodeWord IC.default (0b01#2 ++ a) = .ddramw a := by
  rw [decodeWord_of_accepts (ddramRow_mem _) (ddramRow_accepts a)]
  exact congrArg Instr.ddramw BitVec.setWidth_append_eq_right

theorem decodeWord_char (d : Byte) : decodeWord IC.default (0b1#1 ++ d) = .char d := by
  have hrs : charRow.accepts (0b1#1 ++ d) = true := by
    rw [charRow_accepts, BitVec.getLsbD_append]
    rfl
  rw [decodeWord_of_accepts (charRow_mem _) hrs]
  exact congrArg Instr.char BitVec.setWidth_append_eq_right

/-- A pattern of R71 decodes to its own row, whatever its fields are. -/
theorem decodeWord_encodeWord {i : Instr} {w : WordBits} (h : encodeWord i = some w)
    (hraw : ∀ d, i ≠ .raw d) : decodeWord IC.default w = i := by
  cases i <;> simp only [encodeWord, Option.some.injEq, reduceCtorEq] at h <;> subst h
  case entryw i s => revert i s; decide
  case dispw d c b => revert d c b; decide
  case funcw l n f => revert l n f; decide
  case ddramw a => exact decodeWord_ddramw a
  case char d => exact decodeWord_char d
  case raw d => exact absurd rfl (hraw d)
  all_goals rfl

/-! ### Decoding keeps every bit -/

/-- The pattern of R71 is the word the instruction sends under the default `IC` (R84). -/
theorem oneWord_of_encodeWord {i : Instr} {w : WordBits} (h : encodeWord i = some w) :
    oneWord IC.default i = some (w.getLsbD 8, wordData w) := by
  by_cases hraw : ∃ d, i = .raw d
  · obtain ⟨d, rfl⟩ := hraw
    obtain rfl : instrBits d = w := Option.some.inj h
    rw [instrBits_rs, wordData_instrBits, oneWord]
  · rw [← decodeWord_encodeWord h (not_exists.mp hraw)]
    exact oneWord_decodeWord (by decide) w

/-- Every row of R71, and `RAW`, has a pattern. -/
theorem encodeWord_decodeWord_isSome (ic : IC) (w : WordBits) :
    (encodeWord (decodeWord ic w)).isSome = true := by
  have hrows : ∀ r ∈ wordRows ic, (encodeWord (r.build w)).isSome = true := by
    simp [wordRows, constRow, modeRow, encodeWord]
  unfold decodeWord
  split
  · next r hr => exact hrows r (List.mem_of_find?_eq_some hr)
  · rfl

/-- No bit of a word is dropped: the pattern of the row it decodes to is the word that row sends, and
that is the word given. -/
theorem encodeWord_decodeWord (w : WordBits) : encodeWord (decodeWord IC.default w) = some w := by
  obtain ⟨v, hv⟩ := Option.isSome_iff_exists.mp (encodeWord_decodeWord_isSome IC.default w)
  have hbits := (oneWord_of_encodeWord hv).symm.trans (oneWord_decodeWord (by decide) w)
  obtain ⟨hrs, hdata⟩ := Prod.mk.inj (Option.some.inj hbits)
  rw [hv, wordBits_ext hrs hdata]

/-- Settles O2: a word's bytes are read as that word, its row has its bits, and the rows are
disjoint. -/
theorem busWordBitsKept : Obligations.BusWordBitsKept := by
  unfold Obligations.BusWordBitsKept
  exact ⟨fun w => ⟨decodeItem_wordBytes IC.default w, encodeWord_decodeWord w⟩, wordRows_conflict⟩

/-- Settles O3: a pattern other than `RAW`'s is accepted by its own row alone, and a `RAW` byte's row
keeps its bits. -/
theorem encodedWordDecodesToItself : Obligations.EncodedWordDecodesToItself := by
  unfold Obligations.EncodedWordDecodesToItself
  intro i w h
  by_cases hraw : ∃ d, i = .raw d
  · obtain ⟨d, hd⟩ := hraw
    exact .inl ⟨d, hd, encodeWord_decodeWord w⟩
  · exact .inr (decodeWord_encodeWord h (not_exists.mp hraw))

/-- Settles O5: the first seven words are patterns of their rows, and no row but `RAW` accepts the
last. -/
theorem specWordsDecode : Obligations.SpecWordsDecode := by
  unfold Obligations.SpecWordsDecode
  exact ⟨decodeWord_encodeWord rfl nofun, decodeWord_encodeWord rfl nofun,
    decodeWord_encodeWord rfl nofun, decodeWord_encodeWord rfl nofun,
    decodeWord_encodeWord rfl nofun, decodeWord_ddramw 0x40, decodeWord_char 0xAB, rfl⟩

end Sys2Proof
end

section
/-! Proof of O51: every byte that an operation sends to the expander carries the address, the backlight
bit and the RW bit of R80 and R125. Said once for a part of an operation (`CarriesSince`), and put
together along the shapes of the instructions. -/

namespace Sys2Proof.Machine

/-! ### The bytes of a part of an operation -/

/-- A byte to the expander goes to the configured address, and is one of R79 with `BLS` in it. -/
def ByteCarries (c : Cfg) (bls : Bool) : Event → Prop
  | .x a v => ∃ p r n rs en, c.bus = .i2c p a r ∧ v = xByte p n rs bls en
  | _ => True

/-- Every byte since the trace `tr` carries the configuration and the `BLS` of the state reached. -/
def CarriesSince (tr : List Entry) (t : State) : Prop :=
  ∃ new, t.trace = tr ++ new ∧ ∀ e ∈ new, ByteCarries t.cfg t.bls e.ev

theorem CarriesSince.start (s : State) : CarriesSince s.trace s := ⟨[], by simp, by simp⟩

theorem CarriesSince.log {tr : List Entry} {u v : State} {e : Event} {x : Option TErr}
    (h : CarriesSince tr u) (he : ByteCarries u.cfg u.bls e) (hcfg : v.cfg = u.cfg)
    (hbls : v.bls = u.bls) (htr : v.trace = u.trace) : CarriesSince tr (v.log e x) := by
  obtain ⟨new, hu, hnew⟩ := h
  refine ⟨new ++ [{ ev := e, err := x }], by simp [htr, hu], fun e' he' => ?_⟩
  rw [State.log_cfg, State.log_bls, hcfg, hbls]
  obtain he' | he' := List.mem_append.mp he'
  · exact hnew e' he'
  · rw [List.mem_singleton.mp he']
    exact he

variable {tr : List Entry} {u : State}

/-- A sequence whose bytes carry the configuration and the `BLS` it starts from: it writes neither. -/
theorem perform_carries {es : List Event} (hes : ∀ e ∈ es, ByteCarries u.cfg u.bls e)
    (hu : CarriesSince tr u) : (perform es u).Ends (CarriesSince tr) := by
  have hrun : (perform es u).Ends fun v => CarriesSince tr v ∧ v.cfg = u.cfg ∧ v.bls = u.bls := by
    refine perform_ends (P := fun v => CarriesSince tr v ∧ v.cfg = u.cfg ∧ v.bls = u.bls)
      (fun e he v hv => ?_) ⟨hu, rfl, rfl⟩
    obtain ⟨hsince, hcfg, hbls⟩ := hv
    have hev : ByteCarries v.cfg v.bls e := by
      rw [hcfg, hbls]
      exact hes e he
    have keep : ∀ v' : State, v'.cfg = v.cfg → v'.bls = v.bls → v'.trace = v.trace → ∀ x,
        CarriesSince tr (v'.log e x) ∧ (v'.log e x).cfg = u.cfg ∧ (v'.log e x).bls = u.bls :=
      fun v' hc hb ht x => ⟨hsince.log hev hc hb ht, hc.trans hcfg, hb.trans hbls⟩
    exact ⟨keep _ (by simp) (by simp) (by simp) none, keep _ (by simp) (by simp) (by simp) none,
      fun t => keep _ (by simp) (by simp) (by simp) (some t)⟩
  exact Run.ends_mono hrun fun v hv => hv.1

/-! ### Words -/

theorem wireWord_carries (c : Cfg) (bls rs : Bool) (data : Byte) :
    ∀ e ∈ wireWord c bls rs data, ByteCarries c bls e := by
  unfold wireWord
  split
  · simp [ByteCarries]
  · next p a r hbus =>
    have hbyte : ∀ n en, ByteCarries c bls (.x a (xByte p n rs bls en)) :=
      fun n en => ⟨p, r, n, rs, en, hbus, rfl⟩
    have hdelay : ∀ n, ByteCarries c bls (.d n) := fun _ => trivial
    simp only [List.forall_mem_cons, hbyte, hdelay, true_and]
    nofun

theorem busWrite_carries (c : Cfg) (bls : Bool) (w : BusWord) :
    ∀ e ∈ busWrite c bls w, ByteCarries c bls e := by
  rw [busWrite_eq]
  exact wireWord_carries c bls w.rs w.data

theorem delay_carries (c : Cfg) (bls : Bool) (n : Nat) : ∀ e ∈ [Event.d n], ByteCarries c bls e := by
  simp [ByteCarries]

theorem closeEvents_carries (c : Cfg) (bls : Bool) : ∀ e ∈ closeEvents c, ByteCarries c bls e := by
  unfold closeEvents
  split <;> simp [pClose, ByteCarries]

theorem directionEvents_carries (c : Cfg) (bls : Bool) :
    ∀ e ∈ directionEvents c, ByteCarries c bls e := by
  unfold directionEvents
  split <;> simp [pDirs, ByteCarries]

theorem wireModes_carries (c : Cfg) (bls : Bool) (m : Modes) :
    ∀ e ∈ wireModes c bls m, ByteCarries c bls e :=
  List.forall_mem_append.mpr ⟨List.forall_mem_append.mpr ⟨wireWord_carries _ _ _ _,
    wireWord_carries _ _ _ _⟩, wireWord_carries _ _ _ _⟩

/-- The words and waits of an instruction that does nothing else. -/
theorem plainEvents_carries {i : Instr} {s : State} {es : List Event} (h : plainEvents i s = some es) :
    ∀ e ∈ es, ByteCarries s.cfg s.bls e := by
  have word : ∀ rs d, ∀ e ∈ wireWord s.cfg s.bls rs d, ByteCarries s.cfg s.bls e :=
    wireWord_carries _ _
  have wait := delay_carries s.cfg s.bls s.cfg.tClear
  have modes := wireModes_carries s.cfg s.bls s.modes
  cases i <;> simp only [plainEvents, oneWord, Option.map_some, Option.map_none,
    Option.some.injEq, reduceCtorEq] at h <;> subst h
  case init => exact List.forall_mem_append.mpr ⟨word _ _, word _ _⟩
  case clear | home => exact List.forall_mem_append.mpr ⟨word _ _, wait⟩
  case flush => exact modes
  case clearr =>
    exact List.forall_mem_append.mpr ⟨List.forall_mem_append.mpr ⟨word _ _, wait⟩, modes⟩
  all_goals exact word _ _

/-! ### The operations -/

theorem emitting_carries {events : State → List Event}
    (h : ∀ e ∈ events u, ByteCarries u.cfg u.bls e) (hu : CarriesSince tr u) :
    (emitting events u).Ends (CarriesSince tr) :=
  whenReady_ends fun _ => perform_carries h hu

theorem sendWord_carries (w : State → BusWord) (hu : CarriesSince tr u) :
    (sendWord w u).Ends (CarriesSince tr) :=
  emitting_carries (busWrite_carries u.cfg u.bls (w u)) hu

theorem applyAndFlush_carries (xs : List Setter) (hu : CarriesSince tr u) :
    (applyAndFlush xs u).Ends (CarriesSince tr) := by
  unfold applyAndFlush
  rw [flushEvents_eq]
  exact perform_carries (u := u.applySetters xs) (wireModes_carries u.cfg u.bls _) hu

theorem toggle_carries (x : Setter) (hu : CarriesSince tr u) :
    (toggle x u).Ends (CarriesSince tr) :=
  whenReady_ends fun _ => perform_carries (u := u.applySetters [x]) (busWrite_carries u.cfg u.bls _) hu

theorem setterOnly_carries (x : Setter) (hu : CarriesSince tr u) :
    (setterOnly x u).Ends (CarriesSince tr) :=
  whenReady_ends fun _ => hu

/-- `BLS` is written before the word that carries it (R127). -/
theorem opBacklight_carries (on : Bool) (s : State) :
    (opBacklight on s).Ends (CarriesSince s.trace) := by
  refine whenReady_ends fun _ => ?_
  split
  · refine perform_carries ?_ (CarriesSince.start s)
    split <;> simp [ByteCarries]
  · exact perform_carries (u := { s with bls := on }) (busWrite_carries s.cfg on _)
      (CarriesSince.start { s with bls := on })

theorem opClose_carries (hu : CarriesSince tr u) : (opClose u).Ends (CarriesSince tr) :=
  whenReady_ends fun _ =>
    perform_carries (u := { u with closed := true }) (closeEvents_carries u.cfg u.bls) hu

theorem opDhome_carries (hu : CarriesSince tr u) : (opDhome u).Ends (CarriesSince tr) := by
  refine emitting_carries (events := fun s => homeEvents s.cfg s.bls) (u := u.moveTo 0 0) ?_ hu
  rw [homeEvents_eq]
  exact List.forall_mem_append.mpr ⟨wireWord_carries _ _ _ _, delay_carries _ _ _⟩

theorem opDsetcursor_carries (c r : Nat) (hu : CarriesSince tr u) :
    (opDsetcursor c r u).Ends (CarriesSince tr) := by
  unfold opDsetcursor opSetcursor
  exact sendWord_carries (u := u.moveTo c (clampRow u.cfg.rows r)) _ hu

theorem opDclear_carries (hu : CarriesSince tr u) : (opDclear u).Ends (CarriesSince tr) := by
  refine Run.ends_andThen (P := CarriesSince tr) (emitting_carries (u := u.moveTo 0 0) ?_ hu)
    (fun _ hv => hv) fun v hv => ?_
  · rw [clearEvents_eq, flushEvents_eq]
    exact List.forall_mem_append.mpr ⟨List.forall_mem_append.mpr ⟨wireWord_carries _ _ _ _,
      delay_carries _ _ _⟩, wireModes_carries _ _ _⟩
  · split
    · exact hv
    · exact opDsetcursor_carries _ _ hv

theorem messageByte_carries (b : Byte) (hu : CarriesSince tr u) :
    (messageByte b u).Ends (CarriesSince tr) := by
  unfold messageByte
  split
  · exact opDsetcursor_carries _ _ hu
  · refine Run.ends_andThen (sendWord_carries (fun _ => charWord b) hu) (fun _ hv => hv) fun v hv => ?_
    unfold wrapColumn
    split
    · exact opDsetcursor_carries (u := stepColumn v) _ _ hv
    · exact hv

theorem opDmessage_carries (text : List Byte) (hu : CarriesSince tr u) :
    (opDmessage text u).Ends (CarriesSince tr) := by
  induction text generalizing u with
  | nil => exact hu
  | cons b bs ih => exact Run.ends_andThen (messageByte_carries b hu) (fun _ hv => hv) fun _ hv => ih hv

theorem opDclose_carries (hu : CarriesSince tr u) : (opDclose u).Ends (CarriesSince tr) := by
  refine Run.ends_andThen (opClose_carries hu) (fun _ hv => hv) fun v hv => perform_carries ?_ hv
  split <;> simp [ByteCarries]

/-- `RESET` writes the configuration and `BLS` before its first word (R230). -/
theorem construct_carries (c : Cfg) (s : State) :
    (construct c s).Ends (CarriesSince s.trace) := by
  refine Run.ends_andThen (P := CarriesSince s.trace) (perform_carries (u := s.construct c) ?_
    (CarriesSince.start (s.construct c))) (fun _ hv => hv) fun v hv => applyAndFlush_carries _ hv
  rw [bringUpEvents, initWords_eq]
  exact List.forall_mem_append.mpr ⟨directionEvents_carries _ _,
    List.forall_mem_append.mpr ⟨wireWord_carries _ _ _ _, wireWord_carries _ _ _ _⟩⟩

/-! ### Every instruction -/

/-- Every instruction but `RESET` and `LTR?` is a run whose bytes carry what they have to. -/
theorem exec_run_carries {i : Instr} (hreset : ∀ c, i ≠ .reset c) (hltr : i ≠ .ltr) (s : State) :
    ∃ r : Run, exec i s = r.outcome ∧ r.Ends (CarriesSince s.trace) := by
  have hs := CarriesSince.start s
  obtain ⟨c, rfl⟩ | ⟨es, he⟩ | ⟨xs, rfl⟩ | ⟨x, hx⟩ | ⟨x, hx⟩ | rfl | rfl | rfl | rfl | hc :=
    instr_shapes i s
  · exact absurd rfl (hreset c)
  · exact ⟨_, exec_plain he, whenReady_ends fun _ => perform_carries (plainEvents_carries he) hs⟩
  · exact ⟨whenReady s (applyAndFlush xs), rfl, whenReady_ends fun _ => applyAndFlush_carries xs hs⟩
  · exact ⟨_, exec_toggle hx s, toggle_carries x hs⟩
  · exact ⟨_, exec_setter hx s, setterOnly_carries x hs⟩
  · exact ⟨_, rfl, opBacklight_carries true s⟩
  · exact ⟨_, rfl, opBacklight_carries false s⟩
  · exact ⟨_, rfl, opClose_carries hs⟩
  · exact absurd rfl hltr
  · cases i <;> simp only [isClient, reduceCtorEq] at hc
    case dhome => exact ⟨_, rfl, whenGeometry_ends (opDhome_carries hs)⟩
    case dclear => exact ⟨_, rfl, whenGeometry_ends (opDclear_carries hs)⟩
    case dnewline => exact ⟨_, rfl, whenGeometry_ends (opDsetcursor_carries _ _ hs)⟩
    case dsetcursor c r => exact ⟨_, rfl, whenGeometry_ends (opDsetcursor_carries c r hs)⟩
    case dmessage text => exact ⟨_, rfl, whenGeometry_ends (opDmessage_carries text hs)⟩
    case dclose => exact ⟨_, rfl, whenGeometry_ends (opDclose_carries hs)⟩

/-- Whatever the instruction and however it ends, its bytes carry the configuration and the `BLS` of
the next state. -/
theorem exec_carries {i : Instr} {s t : State} (h : exec i s = .next t) : CarriesSince s.trace t := by
  by_cases hreset : ∃ c, i = .reset c
  · obtain ⟨c, rfl⟩ := hreset
    have hk := construct_carries c s
    obtain ⟨-, -, -, ⟨v, hv, rfl⟩ | ⟨v, e, hv, rfl⟩⟩ := execReset_cases h
    · rw [hv] at hk
      exact hk
    · rw [hv] at hk
      exact hk
  by_cases hltr : i = .ltr
  · rw [hltr, exec_ltr] at h
    split at h <;> cases h
    exact CarriesSince.start s
  · obtain ⟨r, hexec, hr⟩ := exec_run_carries (not_exists.mp hreset) hltr s
    exact Run.ends_of_outcome hr (fun _ _ hv => hv) (hexec.symm.trans h)

/-- Settles O51: a byte that carries the configuration and `BLS` is one of R79, whose bits are known
for an accepted pin map. -/
theorem expanderBytesCarryBacklight : Obligations.ExpanderBytesCarryBacklight := by
  unfold Obligations.ExpanderBytesCarryBacklight
  intro i s t p a r h hbus hwf new htr a' v err hmem
  obtain ⟨new', htr', hnew⟩ := exec_carries h
  obtain rfl : new' = new := List.append_cancel_left (htr'.symm.trans htr)
  obtain ⟨p', r', n, rs, en, hbus', rfl⟩ := hnew _ hmem
  obtain ⟨rfl, rfl, rfl⟩ := BusCfg.i2c.inj (hbus'.symm.trans hbus)
  obtain ⟨-, -, hbl, -, -, -, -, hrw⟩ := xByte_bits (pinsDistinct_of_wf hwf hbus) n rs t.bls en
  exact ⟨rfl, hbl, hrw⟩

end Sys2Proof.Machine
end

section
/-! Proofs of O25, O27, O36 and O40: the backlight line, `CLOSE`, and an operation that stops at its
`k`-th primitive, by the state in which the primitives leave the block. -/

namespace Sys2Proof.Machine

/-! ### What a sequence leaves (R14, R15) -/

/-- No free value is drawn where nothing fails. -/
@[simp] theorem State.after_draws (es : List Event) (s : State) : (s.after es).draws = s.draws := by
  induction es generalizing s with
  | nil => rfl
  | cons e es ih =>
    rw [State.after, ih]
    cases e.fallible <;> simp

/-- Each fallible primitive uses up one answer. -/
theorem State.after_env (es : List Event) (s : State) :
    (s.after es).env = s.env.drop (es.filter Event.fallible).length := by
  have h := congrArg State.env (State.after_withEnv es s s.env)
  rwa [State.withEnv_self, State.withEnv_env] at h

/-- The frame of a sequence of which no primitive failed, with the operation's result. -/
theorem State.after_sameConfig (es : List Event) (s : State) (x : Result) :
    s.KeepsConfig { s.after es with result := x } :=
  ⟨State.after_life es s, State.after_cfg es s, State.after_port es s, State.after_draws es s⟩

/-- A sequence of which a primitive fails after answers that were `ok` (R15): the state it stops in. -/
theorem perform_fails_at {pre post : List Event} {ev : Event} {s : State} {e : TErr} {rest : List TStatus}
    (henv : s.env = List.replicate (pre.filter Event.fallible).length .ok ++ .err e :: rest)
    (hev : ev.fallible = true) :
    perform (pre ++ ev :: post) s =
      .abort ((errEffect ev (s.after pre).answered).log ev (some e)) e := by
  have hanswer : (s.after pre).answer = .err e := by
    simp [State.answer, State.after_env, henv]
  rw [perform_append, perform_oks pre s _ _ henv le_rfl, Run.done_andThen, perform_cons, performOne,
    if_pos hev, hanswer, Run.abort_andThen]

/-- Releases that do not fail mark the lines they name as closed (R35), and do no more to them. -/
theorem State.after_closes (ls : List Line) (s : State) :
    (∀ l, (s.after (ls.map .close)).lines.get l =
      if l ∈ ls then { s.lines.get l with closed := true } else s.lines.get l) ∧
    (s.after (ls.map .close)).xp = s.xp ∧ (s.after (ls.map .close)).xc = s.xc := by
  induction ls generalizing s with
  | nil => exact ⟨fun l => by simp [State.after], rfl, rfl⟩
  | cons k ls ih =>
    obtain ⟨hline, hxp, hxc⟩ := ih ((okEffect (.close k) s.answered).log (.close k) none)
    refine ⟨fun l => (hline l).trans ?_, hxp, hxc⟩
    by_cases hk : l = k
    · simp [okEffect, hk]
    · simp [okEffect, hk]

/-! ### The backlight line (R105) -/

/-- On the parallel bus a backlight operation is at most one write. -/
theorem exec_backlight_parallel {s : State} {h : Handles} (hready : s.Ready)
    (hbus : s.cfg.bus = .par h) (on : Bool) :
    exec (if on then .blOn else .blOff) s =
      (perform (if h.bl then [.w .bl (!on)] else []) s).outcome := by
  have hop : exec (if on then .blOn else .blOff) s = (opBacklight on s).outcome := by
    cases on <;> rfl
  rw [hop, opBacklight_eq, whenReady_ready hready, backlightRun, hbus]

/-- Settles O25: with the line the one write drives it, without it nothing is performed. -/
theorem backlightParallel : Obligations.BacklightParallel := by
  unfold Obligations.BacklightParallel
  intro s h on hready hok hbus
  have hexec := exec_backlight_parallel hready hbus on
  rw [perform_allOk _ hok, Run.outcome] at hexec
  refine ⟨_, hexec, rfl, State.after_trace _ s, ?_⟩
  have hconfig := fun es => State.after_sameConfig es s .ok
  have hregs := fun es => State.after_keepsRegisters es s .ok
  cases h.bl with
  | false => exact ⟨rfl, fun _ _ => rfl, rfl, rfl, hconfig [], hregs [], rfl, rfl⟩
  | true =>
    refine ⟨rfl, fun l hl => ?_, rfl, rfl, hconfig _, hregs _, rfl, rfl⟩
    simp [State.after, okEffect, Event.fallible, hl]

/-! ### `CLOSE` (R107, R128, R152) -/

theorem exec_close {s : State} (hready : s.Ready) :
    exec .close s = (perform (wireClose s.cfg) { s with closed := true }).outcome := by
  rw [← closeEvents_eq]
  exact congrArg Run.outcome (whenReady_ready hready _)

theorem wireClose_parallel {c : Cfg} {h : Handles} (hbus : c.bus = .par h) :
    wireClose c = (presentLines h).map .close := by
  rw [← closeEvents_eq, closeEvents, hbus]
  rfl

/-- Settles O27: each release marks its own line, or the bus, and nothing else. -/
theorem closeCompletes : Obligations.CloseCompletes := by
  unfold Obligations.CloseCompletes
  intro s hready hok
  have hexec := exec_close hready
  rw [perform_allOk (s := { s with closed := true }) _ hok, Run.outcome] at hexec
  obtain ⟨hlife, hcfg, hport, hdraws⟩ :=
    State.after_sameConfig (wireClose s.cfg) { s with closed := true } .ok
  obtain ⟨hmodes, hbls, hclosed, hcol, hrow⟩ :=
    State.after_keepsRegisters (wireClose s.cfg) { s with closed := true } .ok
  have hxp : (State.after (wireClose s.cfg) { s with closed := true }).xp = s.xp := by
    cases hbus : s.cfg.bus with
    | par h =>
      rw [wireClose_parallel hbus]
      exact (State.after_closes (presentLines h) { s with closed := true }).2.1
    | i2c p a r =>
      rw [wireClose, hbus]
      rfl
  refine ⟨_, hexec, rfl, hclosed, State.after_trace _ _, ?_, ⟨hlife, hcfg, hport, hdraws⟩, hmodes, hbls,
    hcol, hrow, hxp⟩
  split
  · next h hbus =>
    obtain ⟨hline, -, hxc⟩ := State.after_closes (presentLines h) { s with closed := true }
    rw [← wireClose_parallel hbus] at hline hxc
    refine ⟨fun l hl => ?_, ?_, fun l => ?_, hxc⟩
    · rw [hline, if_pos (mem_presentLines.mpr (.inl hl))]
    · rw [← Lines.get_bl, hline]
      cases hbl : h.bl <;> simp [mem_presentLines, hbl]
    · rw [hline]
      split <;> exact ⟨rfl, rfl⟩
  · next hbus =>
    rw [wireClose, hbus]
    exact ⟨rfl, rfl⟩

/-! ### A word that fails (R108, R126, R211, R212) -/

/-- Settles O36: the word stops where `perform_fails` says, and no primitive writes a register. -/
theorem wordFailsAtItsWrite : Obligations.WordFailsAtItsWrite := by
  unfold Obligations.WordFailsAtItsWrite
  intro i rs data s k e rest hword hready henv hk
  rw [← wireWord_fallibles s.cfg s.bls rs data] at hk
  obtain ⟨t, pre, ev, post, hrun, hrest, hsplit, hev, hcount, htrace⟩ :=
    (perform_fails _ s k _ rest henv (by simp) hk).1 e rfl
  have hheld := perform_sameHeld (wireWord s.cfg s.bls rs data) s
  rw [hrun] at hheld
  obtain ⟨-, -, hmodes, hbls, hclosed, -, -, hcol, hrow⟩ := hheld
  have hexec : exec i s = .next { t with result := .err e } := by
    rw [exec_oneWord hword, whenReady_ready hready, hrun, Run.outcome]
  refine ⟨_, pre, ev, hexec, rfl, hrest, htrace, ⟨post, ?_⟩, hcount, hev,
    ⟨hmodes, hbls, hclosed, hcol, hrow⟩⟩
  rw [hsplit, List.append_assoc, List.singleton_append]

/-! ### A release that fails (R35, R107, R215) -/

theorem presentLines_nodup (h : Handles) : (presentLines h).Nodup := by
  unfold presentLines
  cases h.bl <;> decide

theorem pClose_fallibles (ls : List Line) :
    ((ls.map Event.close).filter Event.fallible).length = ls.length := by
  rw [List.filter_map, List.filter_eq_self.mpr (by simp [Event.fallible]), List.length_map]

/-- Settles O40: the lines are distinct, so that the releases before the failing one mark their own
lines, and that one and its failure touch no other. -/
theorem partialClose : Obligations.PartialClose := by
  unfold Obligations.PartialClose
  intro s h pre post l e rest hready hbus hlines henv
  have hevents : wireClose s.cfg = pre.map .close ++ .close l :: post.map .close := by
    rw [wireClose_parallel hbus, hlines, List.map_append, List.map_cons]
  obtain ⟨-, hrest, hdisjoint⟩ := List.nodup_append.mp (hlines ▸ presentLines_nodup h)
  obtain ⟨hline, -, -⟩ := State.after_closes pre { s with closed := true }
  rw [← pClose_fallibles pre] at henv
  have hexec := exec_close hready
  rw [hevents, perform_fails_at (s := { s with closed := true }) henv rfl, Run.outcome] at hexec
  refine ⟨_, hexec, rfl, ?_, ?_, fun k hk => ?_, fun k hk => ?_⟩
  · simp
  · simp
  · have hne : k ≠ l := hdisjoint k hk l List.mem_cons_self
    simp [errEffect, hne, hline, hk]
  · have hne : k ≠ l := fun hkl => (List.nodup_cons.mp hrest).1 (hkl ▸ hk)
    have hpre : k ∉ pre := fun hmem => hdisjoint k hmem k (List.mem_cons_of_mem l hk) rfl
    simp [errEffect, hne, hpre, hline]

end Sys2Proof.Machine
end

section
/-! Proof of O54: EN rests low after every word (R106(a), R125), said once for a part of an operation
(`KeepsRest`) and put together along the shapes of the instructions. -/

namespace Sys2Proof.Machine

/-! ### EN at rest -/

/-- EN is low on the bus of the configuration, and the EN line is not high on either. -/
def State.EnableLow (s : State) : Prop :=
  s.lines.en.level ≠ .high ∧
    match s.cfg.bus with
    | .par _ => s.lines.en.level = .low
    | .i2c p _ _ => ∃ v, s.xp = .known v ∧ v.getLsbD p.en = false

/-- A constructed block on which EN is at rest as long as nothing has failed; another block performs
nothing but `RESET`. -/
def State.Rests (s : State) : Prop := EnableRests s ∧ (s.life = .ready → s.cfg.wf = true)

theorem EnableRests.enableLow {s : State} (h : EnableRests s) (hlife : s.life = .ready)
    (hfree : FailureFree s.trace) : s.EnableLow :=
  ⟨(h hfree).1, (h hfree).2 hlife⟩

/-- What shows a word has EN low (R81, R125); on I2C the lines are none of the word's. -/
theorem State.ShowsWord.enableLow {t : State} {bls rs : Bool} {data : Byte}
    (h : t.ShowsWord bls rs data) (hwf : t.cfg.wf = true)
    (hen : ∀ p a r, t.cfg.bus = .i2c p a r → t.lines.en.level ≠ .high) : t.EnableLow := by
  unfold State.ShowsWord at h
  unfold State.EnableLow
  cases hbus : t.cfg.bus with
  | par hd =>
    rw [hbus] at h
    obtain ⟨-, hlow, -⟩ := h
    simp [hlow]
  | i2c p a r =>
    rw [hbus] at h
    exact ⟨hen p a r hbus, _, h, (xByte_bits (pinsDistinct_of_wf hwf hbus) _ _ _ _).1⟩

/-! ### Sequences that leave EN low -/

/-- A sequence that, performed without a failure from a state with EN low, leaves EN low. -/
def LeavesLow (c : Cfg) (es : List Event) : Prop :=
  ∀ s : State, s.cfg = c → s.EnableLow → (s.after es).EnableLow

theorem LeavesLow.append {c : Cfg} {as bs : List Event} (ha : LeavesLow c as) (hb : LeavesLow c bs) :
    LeavesLow c (as ++ bs) := by
  intro s hc hs
  rw [State.after_append]
  exact hb _ ((State.after_cfg as s).trans hc) (ha s hc hs)

theorem leavesLow_wireWord {c : Cfg} (hwf : c.wf = true) (bls rs : Bool) (data : Byte) :
    LeavesLow c (wireWord c bls rs data) := by
  rintro s rfl ⟨hen, -⟩
  obtain ⟨-, hother⟩ := (State.sameOther_after (wireWord_events s.cfg bls rs data)).other
  refine (State.after_wireWord_shows bls rs data s).enableLow (by rwa [State.after_cfg])
    fun p a r hbus => ?_
  rw [State.after_cfg] at hbus
  rw [hbus] at hother
  rwa [hother]

theorem leavesLow_delay (c : Cfg) (n : Nat) : LeavesLow c [.d n] := fun _ _ hs => hs

theorem leavesLow_wireModes {c : Cfg} (hwf : c.wf = true) (bls : Bool) (m : Modes) :
    LeavesLow c (wireModes c bls m) :=
  ((leavesLow_wireWord hwf bls _ _).append (leavesLow_wireWord hwf bls _ _)).append
    (leavesLow_wireWord hwf bls _ _)

theorem leavesLow_plainEvents {i : Instr} {s : State} {es : List Event} (hwf : s.cfg.wf = true)
    (h : plainEvents i s = some es) : LeavesLow s.cfg es := by
  have word := leavesLow_wireWord hwf s.bls
  have wait := leavesLow_delay s.cfg s.cfg.tClear
  have modes := leavesLow_wireModes hwf s.bls s.modes
  cases i <;> simp only [plainEvents, oneWord, Option.map_some, Option.map_none,
    Option.some.injEq, reduceCtorEq] at h <;> subst h
  case init => exact (word _ _).append (word _ _)
  case clear | home => exact (word _ _).append wait
  case flush => exact modes
  case clearr => exact ((word _ _).append wait).append modes
  all_goals exact word _ _

/-! ### Parts of operations -/

/-- A part of an operation that keeps EN at rest, wherever it ends. -/
def KeepsRest (k : State → Run) : Prop := ∀ s, s.Rests → (k s).Ends State.Rests

/-- A failed event in the trace: nothing is claimed of EN any more. -/
theorem enableRests_of_failed {t : State} {tr : List Entry} {e : Event} {x : TErr}
    (h : t.trace = tr ++ [{ ev := e, err := some x }]) : EnableRests t := by
  intro hfree
  have hfail := hfree { ev := e, err := some x } (by simp [h])
  cases hfail

/-- The trace only grows: what is free of failures was so before. -/
theorem FailureFree.of_append {as bs : List Entry} (h : FailureFree (as ++ bs)) : FailureFree as :=
  fun e he => h e (List.mem_append_left bs he)

theorem perform_rests {es : List Event} {s : State} (hready : s.Ready) (hlow : LeavesLow s.cfg es)
    (hs : s.Rests) : (perform es s).Ends State.Rests := by
  have hwf : ∀ t, s.SameHeld t → t.life = .ready → t.cfg.wf = true := fun t ht _ => by
    rw [ht.cfg]
    exact hs.2 hready.1
  have hheld := perform_sameHeld es s
  obtain ⟨t, ht, -⟩ | ⟨t, x, pre, e, post, ht, -, -, htr⟩ | ht := perform_cases es s <;> rw [ht] at hheld ⊢
  · refine ⟨fun hfree => ?_, hwf t hheld⟩
    obtain rfl := perform_done ht
    rw [State.after_trace] at hfree
    obtain ⟨hen, hbus⟩ := hlow s rfl (hs.1.enableLow hready.1 hfree.of_append)
    exact ⟨hen, fun _ => hbus⟩
  · exact ⟨enableRests_of_failed htr, hwf t hheld⟩
  · trivial

/-- An event that drives neither the EN line nor the expander. -/
def Quiet (e : Event) : Prop := (∀ v, e ≠ .w .en v) ∧ ∀ a v, e ≠ .x a v

theorem Quiet.effects {e : Event} (he : Quiet e) (s : State) :
    ((okEffect e s).lines.en.level = s.lines.en.level ∧ (okEffect e s).xp = s.xp) ∧
    (errEffect e s).lines.en.level = s.lines.en.level ∧ (errEffect e s).xp = s.xp := by
  obtain ⟨hw, hx⟩ := he
  cases e with
  | w l v =>
    have hl : l ≠ .en := fun h => hw v (by rw [h])
    simp [okEffect, errEffect, hl]
  | x a v => exact absurd rfl (hx a v)
  | dir l | close l => cases l <;> exact ⟨⟨rfl, rfl⟩, rfl, rfl⟩
  | xclose | d n | closeBlh => exact ⟨⟨rfl, rfl⟩, rfl, rfl⟩

theorem State.Rests.log {s t : State} (hs : s.Rests) (hlife : t.life = s.life) (hcfg : t.cfg = s.cfg)
    (htr : t.trace = s.trace) (hen : t.lines.en.level = s.lines.en.level) (hxp : t.xp = s.xp) (e : Event)
    (x : Option TErr) : (t.log e x).Rests := by
  obtain ⟨hrest, hwf⟩ := hs
  refine ⟨fun hfree => ?_, ?_⟩
  · rw [State.log_trace, htr] at hfree
    obtain ⟨hlow, hbus⟩ := hrest hfree.of_append
    rw [State.log_lines, State.log_life, State.log_cfg, State.log_xp, hen, hlife, hcfg, hxp]
    exact ⟨hlow, hbus⟩
  · rw [State.log_life, State.log_cfg, hlife, hcfg]
    exact hwf

theorem perform_quiet {es : List Event} (hes : ∀ e ∈ es, Quiet e) : KeepsRest (perform es) := by
  refine fun s hs => perform_ends (fun e he u hu => ?_) hs
  have heff := (hes e he).effects
  exact ⟨hu.log (by simp) (by simp) (by simp) (heff u).1.1 (heff u).1.2 e none,
    hu.log (by simp) (by simp) (by simp) (heff u.answered).1.1 (heff u.answered).1.2 e none,
    fun x => hu.log (by simp) (by simp) (by simp) (heff u.answered).2.1 (heff u.answered).2.2 e _⟩

theorem KeepsRest.andThen {f k : State → Run} (hf : KeepsRest f) (hk : KeepsRest k) :
    KeepsRest fun s => (f s).andThen k :=
  fun s hs => Run.ends_andThen (hf s hs) (fun _ hu => hu) hk

theorem KeepsRest.whenGeometry {k : State → Run} (hk : KeepsRest k) :
    KeepsRest fun s => Machine.whenGeometry s k :=
  fun s hs => whenGeometry_ends (hk s hs)

/-! ### The operations -/

theorem emitting_rests {events : State → List Event}
    (h : ∀ s, s.cfg.wf = true → LeavesLow s.cfg (events s)) : KeepsRest (emitting events) :=
  fun s hs => whenReady_ends fun hready => perform_rests hready (h s (hs.2 hready.1)) hs

theorem sendWord_rests (w : State → BusWord) : KeepsRest (sendWord w) :=
  emitting_rests fun s hwf => by
    rw [busWrite_eq]
    exact leavesLow_wireWord hwf _ _ _

theorem applyAndFlush_rests (xs : List Setter) :
    KeepsRest fun s => whenReady s (applyAndFlush xs) := by
  refine fun s hs => whenReady_ends fun hready => ?_
  rw [applyAndFlush, flushEvents_eq]
  exact perform_rests (s := s.applySetters xs) hready (leavesLow_wireModes (hs.2 hready.1) _ _) hs

theorem toggle_rests (x : Setter) : KeepsRest (toggle x) := by
  refine fun s hs => whenReady_ends fun hready => ?_
  rw [busWrite_eq]
  exact perform_rests (s := s.applySetters [x]) hready (leavesLow_wireWord (hs.2 hready.1) _ _ _) hs

theorem setterOnly_rests (x : Setter) : KeepsRest (setterOnly x) := fun _ hs => whenReady_ends fun _ => hs

/-- The backlight line is not EN's; on I2C the flag is sent in a word. -/
theorem opBacklight_rests (on : Bool) : KeepsRest (opBacklight on) := by
  refine fun s hs => whenReady_ends fun hready => ?_
  split
  · refine perform_quiet (fun e he => ?_) s hs
    split at he <;> simp_all [Quiet]
  · rw [busWrite_eq]
    exact perform_rests (s := { s with bls := on }) hready (leavesLow_wireWord (hs.2 hready.1) _ _ _) hs

theorem closeEvents_quiet (c : Cfg) : ∀ e ∈ closeEvents c, Quiet e := by
  unfold closeEvents
  split <;> simp [pClose, Quiet]

theorem opClose_rests : KeepsRest opClose := fun s hs =>
  whenReady_ends fun _ => perform_quiet (closeEvents_quiet s.cfg) { s with closed := true } hs

theorem opDhome_rests : KeepsRest opDhome := by
  have hhome : KeepsRest opHome := emitting_rests fun s hwf => by
    rw [homeEvents_eq]
    exact (leavesLow_wireWord hwf _ _ _).append (leavesLow_delay _ _)
  exact fun s hs => hhome (s.moveTo 0 0) hs

theorem opDsetcursor_rests (c r : Nat) : KeepsRest (opDsetcursor c r) := by
  intro s hs
  unfold opDsetcursor opSetcursor
  exact sendWord_rests _ (s.moveTo c (clampRow s.cfg.rows r)) hs

theorem opDnewline_rests : KeepsRest opDnewline := fun s hs => opDsetcursor_rests _ _ s hs

theorem opDclear_rests : KeepsRest opDclear := by
  have hclear : KeepsRest opClearr := emitting_rests fun s hwf => by
    rw [clearEvents_eq, flushEvents_eq]
    exact ((leavesLow_wireWord hwf _ _ _).append (leavesLow_delay _ _)).append
      (leavesLow_wireModes hwf _ _)
  refine KeepsRest.andThen (fun s hs => hclear (s.moveTo 0 0) hs) fun s hs => ?_
  split
  · exact hs
  · exact opDsetcursor_rests _ _ s hs

theorem messageByte_rests (b : Byte) : KeepsRest (messageByte b) := by
  intro s hs
  unfold messageByte
  split
  · exact opDnewline_rests s hs
  · refine KeepsRest.andThen (sendWord_rests _) (fun u hu => ?_) s hs
    unfold wrapColumn
    split
    · exact opDnewline_rests (stepColumn u) hu
    · exact hu

theorem opDmessage_rests (text : List Byte) : KeepsRest (opDmessage text) := by
  induction text with
  | nil => exact fun _ hs => hs
  | cons b bs ih => exact (messageByte_rests b).andThen ih

theorem opDclose_rests : KeepsRest opDclose := by
  refine opClose_rests.andThen fun s hs => perform_quiet (fun e he => ?_) s hs
  split at he <;> simp_all [Quiet]

/-! ### `RESET` (R230) -/

/-- `try P; Q` runs to its end when both parts do (R15). -/
theorem Run.andThen_eq_done {r : Run} {k : State → Run} {u : State} (h : r.andThen k = .done u) :
    ∃ v, r = .done v ∧ k v = .done u := by
  cases r with
  | done v => exact ⟨v, rfl, h⟩
  | abort v e | refused x | stuck f => cases h

/-- A construction that ran to its end had no failure. -/
theorem construct_done {c : Cfg} {s u : State} (h : construct c s = .done u) :
    u = constructedState c s := by
  obtain ⟨v, hbring, hflush⟩ := Run.andThen_eq_done h
  rw [perform_done hflush, perform_done hbring, State.after_cfg, State.after_bls, State.after_modes]
  rfl

/-- Construction ends with a word, whatever was on the wire before it. -/
theorem constructedState_enableLow {c : Cfg} {s : State} (hwf : c.wf = true)
    (hen : s.lines.en.level ≠ .high) : (constructedState c s).EnableLow := by
  refine (constructedState_shows c s).enableLow (by rwa [constructedState_cfg]) fun p a r hbus => ?_
  rw [constructedState_cfg] at hbus
  rwa [(constructedState_expander hbus s).1]

/-- A construction that did not fail ends with a word; one that failed shows it in the trace. -/
theorem execReset_enableRests {c : Cfg} {s t : State} (hs : EnableRests s)
    (h : exec (.reset c) s = .next t) : EnableRests t := by
  obtain ⟨-, -, hwf, ⟨u, hu, rfl⟩ | ⟨u, x, hu, rfl⟩⟩ := execReset_cases h
  · intro hfree
    obtain rfl := construct_done hu
    rw [constructedState_trace] at hfree
    obtain ⟨hen, hbus⟩ := constructedState_enableLow hwf (hs hfree.of_append).1
    exact ⟨hen, fun _ => hbus⟩
  · have hlogs : (construct c s).Logs s.trace :=
      Run.Logs.andThen (perform_logs _ (s.construct c)) (applyAndFlush_logs c.ctorSetters)
    rw [hu] at hlogs
    obtain ⟨es, ev, -, htr⟩ := hlogs
    exact enableRests_of_failed htr

/-! ### Every instruction -/

/-- Every instruction but `RESET` and `LTR?` is a part that keeps EN at rest. -/
theorem exec_run_rests {i : Instr} (hreset : ∀ c, i ≠ .reset c) (hltr : i ≠ .ltr) {s : State}
    (hs : s.Rests) : ∃ r : Run, exec i s = r.outcome ∧ r.Ends State.Rests := by
  obtain ⟨c, rfl⟩ | ⟨es, he⟩ | ⟨xs, rfl⟩ | ⟨x, hx⟩ | ⟨x, hx⟩ | rfl | rfl | rfl | rfl | hc :=
    instr_shapes i s
  · exact absurd rfl (hreset c)
  · exact ⟨_, exec_plain he, whenReady_ends fun hready =>
      perform_rests hready (leavesLow_plainEvents (hs.2 hready.1) he) hs⟩
  · exact ⟨_, rfl, applyAndFlush_rests xs s hs⟩
  · exact ⟨_, exec_toggle hx s, toggle_rests x s hs⟩
  · exact ⟨_, exec_setter hx s, setterOnly_rests x s hs⟩
  · exact ⟨_, rfl, opBacklight_rests true s hs⟩
  · exact ⟨_, rfl, opBacklight_rests false s hs⟩
  · exact ⟨_, rfl, opClose_rests s hs⟩
  · exact absurd rfl hltr
  · cases i <;> simp only [isClient, reduceCtorEq] at hc
    case dhome => exact ⟨_, rfl, opDhome_rests.whenGeometry s hs⟩
    case dclear => exact ⟨_, rfl, opDclear_rests.whenGeometry s hs⟩
    case dnewline => exact ⟨_, rfl, opDnewline_rests.whenGeometry s hs⟩
    case dsetcursor c r => exact ⟨_, rfl, (opDsetcursor_rests c r).whenGeometry s hs⟩
    case dmessage text => exact ⟨_, rfl, (opDmessage_rests text).whenGeometry s hs⟩
    case dclose => exact ⟨_, rfl, opDclose_rests.whenGeometry s hs⟩

theorem exec_enableRests {i : Instr} {s t : State} (hs : s.Rests) (h : exec i s = .next t) :
    EnableRests t := by
  by_cases hreset : ∃ c, i = .reset c
  · obtain ⟨c, rfl⟩ := hreset
    exact execReset_enableRests hs.1 h
  by_cases hltr : i = .ltr
  · rw [hltr, exec_ltr] at h
    split at h <;> cases h
    exact hs.1
  · obtain ⟨r, hexec, hr⟩ := exec_run_rests (not_exists.mp hreset) hltr hs
    exact (Run.ends_of_outcome hr (fun _ _ hv => hv) (hexec.symm.trans h)).1

/-- Settles O54: an idle step changes nothing, and any other step is an instruction. -/
theorem stepKeepsEnableAtRest : Obligations.StepKeepsEnableAtRest := by
  unfold Obligations.StepKeepsEnableAtRest
  intro s t hlife hs h
  obtain ⟨-, rfl⟩ | ⟨item, rest, i, -, -, hexec⟩ := step_cases h
  · exact hs
  · exact exec_enableRests (s := { s with port := rest }) ⟨hs, hlife.2⟩ hexec

end Sys2Proof.Machine
end

section
/-! Proof of O57: the reference receiver after a part of a word (R108, R126), nibble by nibble, and
after a word that finds EN high or a nibble waiting (R244). -/

namespace Sys2Proof.Machine

/-! ### What the receiver does not look at -/

/-- Delays move no pin: only the events that have an outcome are seen. -/
theorem see_fallibles (bus : BusCfg) (es : List Event) (r : Receiver) :
    (es.filter Event.fallible).foldl (Receiver.see bus) r = es.foldl (Receiver.see bus) r := by
  induction es generalizing r with
  | nil => rfl
  | cons e es ih =>
    cases e with
    | d n => rw [List.foldl_cons, Receiver.see_delay, ← ih r]; rfl
    | dir l | w l v | close l | x a v | xclose | closeBlh => exact ih _

/-- The receiver with other readings of the failed events to come. -/
def Receiver.withLanded (r : Receiver) (landed : List Bool) : Receiver := { r with landed := landed }

@[simp] theorem Receiver.withLanded_pins (r : Receiver) (landed : List Bool) :
    (r.withLanded landed).pins = r.pins := rfl

theorem Receiver.withLanded_take (r : Receiver) (landed : List Bool) (c : Option (Bool × Nibble)) :
    (r.withLanded landed).take c = (r.take c).withLanded landed := by
  unfold Receiver.take Receiver.withLanded
  cases r.half <;> rfl

/-- An event that was performed is seen alike, whatever became of the failed ones. -/
theorem Receiver.withLanded_see (bus : BusCfg) (r : Receiver) (landed : List Bool) (ev : Event) :
    (r.withLanded landed).see bus ev = (r.see bus ev).withLanded landed := by
  unfold Receiver.see
  rw [Receiver.withLanded_pins, Receiver.withLanded_take]
  split <;> rfl

theorem Receiver.see_landed (bus : BusCfg) (r : Receiver) (ev : Event) :
    (r.see bus ev).landed = r.landed := by
  have hsame := congrArg Receiver.landed (Receiver.withLanded_see bus r r.landed ev)
  exact hsame

theorem Receiver.foldl_see_landed (bus : BusCfg) (es : List Event) (r : Receiver) :
    (es.foldl (Receiver.see bus) r).landed = r.landed := by
  induction es generalizing r with
  | nil => rfl
  | cons e es ih => rw [List.foldl_cons, ih, Receiver.see_landed]

/-- Events that did not fail and then one that did, seen or not as its reading says (R108). -/
theorem received_append_failed {s t : State} {pre : List Event} {ev : Event} {x : TErr}
    (landed : List Bool) (hcfg : t.cfg = s.cfg)
    (htr : t.trace = s.trace ++ okEntries pre ++ [{ ev := ev, err := some x }]) :
    t.received landed =
      ((if (s.received landed).landed.headD false then pre ++ [ev] else pre).foldl
        (Receiver.see s.cfg.bus) (s.received landed)).withLanded (s.received landed).landed.tail := by
  have hpre : t.received landed =
      (pre.foldl (Receiver.see s.cfg.bus) (s.received landed)).step s.cfg.bus
        { ev := ev, err := some x } := by
    simp [State.received, receive, hcfg, htr, okEntries, List.foldl_map]
  rw [hpre, Receiver.step_err, Receiver.foldl_see_landed]
  split
  · rw [List.foldl_append, List.foldl_cons, List.foldl_nil, ← Receiver.withLanded_see]
    rfl
  · rfl

/-! ### A part of a nibble -/

/-- An event that leaves EN low when it was low. -/
def LeavesEnable (bus : BusCfg) (ev : Event) : Prop :=
  ∀ q : Pins, q.en ≠ .high → (q.after bus ev).en ≠ .high

/-- An event after which EN is high. -/
def RaisesEnable (bus : BusCfg) (ev : Event) : Prop := ∀ q : Pins, (q.after bus ev).en = .high

/-- While EN stays low the receiver latches nothing. -/
theorem foldl_see_low {bus : BusCfg} {es : List Event} (hes : ∀ ev ∈ es, LeavesEnable bus ev)
    {r : Receiver} (hen : r.pins.en ≠ .high) :
    ∃ q, es.foldl (Receiver.see bus) r = r.withPins q ∧ q.en ≠ .high := by
  induction es generalizing r with
  | nil => exact ⟨r.pins, rfl, hen⟩
  | cons e es ih =>
    obtain ⟨he, hes⟩ := List.forall_mem_cons.mp hes
    obtain ⟨q, hq, hlow⟩ := ih hes (r := r.withPins (r.pins.after bus e)) (he r.pins hen)
    exact ⟨q, by rw [List.foldl_cons, Receiver.see_steady (.inl hen)]; exact hq, hlow⟩

/-- A nibble's writes latch it; before the last of them nothing is latched, and EN is high only then. -/
def NibbleProgress (bus : BusCfg) (r : Receiver) (rs : Bool) (n : Nibble) (es : List Event) : Prop :=
  es.foldl (Receiver.see bus) r = r.latch rs n ∧
  ∀ k < es.length, ∃ q, (es.take k).foldl (Receiver.see bus) r = r.withPins q ∧
    (q.en = .high ↔ k + 1 = es.length)

theorem nibbleProgress {bus : BusCfg} {r : Receiver} {rs : Bool} {n : Nibble} {es setup : List Event}
    {up down : Event} (hes : es = setup ++ [up, down]) (hsetup : ∀ ev ∈ setup, LeavesEnable bus ev)
    (hup : RaisesEnable bus up) (hen : r.pins.en ≠ .high)
    (hlatch : es.foldl (Receiver.see bus) r = r.latch rs n) : NibbleProgress bus r rs n es := by
  refine ⟨hlatch, fun k hk => ?_⟩
  have hlength : es.length = setup.length + 2 := by simp [hes]
  obtain hk | hk : k ≤ setup.length ∨ k = setup.length + 1 := by omega
  · have htake : es.take k = setup.take k := by rw [hes, List.take_append_of_le_length hk]
    obtain ⟨q, hq, hlow⟩ := foldl_see_low (fun ev hev => hsetup ev (List.mem_of_mem_take hev)) hen
    refine ⟨q, by rw [htake, hq], ?_⟩
    simp only [hlow, false_iff]
    omega
  · have htake : es.take k = setup ++ [up] := by simp [hes, hk, List.take_append]
    obtain ⟨q, hq, hlow⟩ := foldl_see_low hsetup hen
    have hhigh : (q.after bus up).en = .high := hup q
    refine ⟨q.after bus up, ?_, by simp only [hhigh, true_iff]; omega⟩
    rw [htake, List.foldl_append, hq, List.foldl_cons, List.foldl_nil, Receiver.see_steady (.inl hlow)]
    rfl

theorem leavesEnable_line (h : Handles) {l : Line} (v : Bool) (hl : l ≠ .en) :
    LeavesEnable (.par h) (.w l v) := by
  intro q hq
  cases l with
  | en => exact absurd rfl hl
  | rs | d4 | d5 | d6 | d7 | bl => exact hq

theorem leavesEnable_low (h : Handles) : LeavesEnable (.par h) (.w .en false) := fun _ _ => nofun

theorem leavesEnable_pNibble (h : Handles) (n : Nibble) : ∀ ev ∈ pNibble n, LeavesEnable (.par h) ev := by
  have hline := fun l v hl => leavesEnable_line h (l := l) v hl
  simp [pNibble, hline]

/-- A nibble on the lines and its pulse, after line writes that leave EN low (R102 to R104). -/
theorem nibbleProgress_parallel (h : Handles) (t : Nat) {before : List Event} {rs : Bool} {n : Nibble}
    {r : Receiver} (hbefore : ∀ ev ∈ before, LeavesEnable (.par h) ev) (hen : r.pins.en ≠ .high)
    (hlatch : (before ++ pNibble n ++ pPulse t).foldl (Receiver.see (.par h)) r = r.latch rs n) :
    NibbleProgress (.par h) r rs n ((before ++ pNibble n ++ pPulse t).filter Event.fallible) := by
  refine nibbleProgress (setup := (before ++ pNibble n).filter Event.fallible ++ [.w .en false])
    (up := .w .en true) (down := .w .en false) ?_ ?_ (fun _ => rfl) hen
    ((see_fallibles _ _ r).trans hlatch)
  · rw [List.filter_append, List.append_assoc]
    rfl
  · intro ev hev
    obtain hev | hev := List.mem_append.mp hev
    · obtain hev | hev := List.mem_append.mp (List.mem_of_mem_filter hev)
      · exact hbefore ev hev
      · exact leavesEnable_pNibble h n ev hev
    · rw [List.mem_singleton.mp hev]
      exact leavesEnable_low h

/-- A nibble's three bytes: presented, raised, latched (R124). -/
theorem nibbleProgress_expander (c : Cfg) {p : PinMap} (hp : PinsDistinct p) (a a' : Byte) (b rs bls : Bool)
    (n : Nibble) {r : Receiver} (hen : r.pins.en ≠ .high) :
    NibbleProgress (.i2c p a' b) r rs n
      ((xPulse c p a (xMap p n ||| xCtl p rs bls)).filter Event.fallible) := by
  have hpins : ∀ (q : Pins) en,
      q.after (.i2c p a' b) (.x a (xByte p n rs bls en)) = .nibble rs n en :=
    fun _ en => Pins.ofByte_xByte hp n rs bls en
  refine nibbleProgress (setup := [.x a (xByte p n rs bls false)])
    (up := .x a (xByte p n rs bls true)) (down := .x a (xByte p n rs bls false)) ?_ ?_ ?_ hen
    ((see_fallibles _ _ r).trans (see_xPulse c hp a a' b rs bls n hen))
  · rw [xPulse, xByte_base, xByte_enable]
    rfl
  · intro ev hev q _
    rw [List.mem_singleton.mp hev, hpins]
    nofun
  · intro q
    rw [hpins]
    rfl

/-! ### A part of a word -/

/-- The receiver after the first `k` nibbles of a word. -/
def Receiver.latchFirst (r : Receiver) (w : BusWord) : Nat → Receiver
  | 0 => r
  | 1 => r.latch w.rs (hiNibble w.data)
  | _ => (r.latch w.rs (hiNibble w.data)).latch w.rs (loNibble w.data)

/-- After the first `n` writes of a word that begins with EN not high: the nibbles latched, and whether
EN is high. -/
def WordProgress (bus : BusCfg) (r : Receiver) (w : BusWord) (es : List Event) (n : Nat) (l : Nat × Bool) :
    Prop :=
  ∃ q, (es.take n).foldl (Receiver.see bus) r = (r.latchFirst w l.1).withPins q ∧
    (q.en = .high ↔ l.2 = true)

/-- A word is the progress of its two nibbles, of which the first is done after `m` writes and the second
after `m'`. -/
theorem wordProgress {bus : BusCfg} {w : BusWord} {r : Receiver} {es hi lo : List Event} {m m' : Nat}
    (hhi : NibbleProgress bus r w.rs (hiNibble w.data) hi)
    (hlo : NibbleProgress bus (r.latch w.rs (hiNibble w.data)) w.rs (loNibble w.data) lo)
    (hes : es = hi ++ lo) (hm : hi.length = m) (hm' : hi.length + lo.length = m') {n : Nat} (hn : n ≤ m') :
    WordProgress bus r w es n
      (if n < m then 0 else if n < m' then 1 else 2, n + 1 == m || n + 1 == m') := by
  obtain ⟨hfull, hpart⟩ := hhi
  obtain ⟨hfull', hpart'⟩ := hlo
  subst hes
  by_cases hfirst : n < m
  · obtain ⟨q, hq, hen⟩ := hpart n (by omega)
    refine ⟨q, ?_, ?_⟩
    · rw [List.take_append_of_le_length (by omega), hq, if_pos hfirst]
      rfl
    · simp only [hen, Bool.or_eq_true, beq_iff_eq]
      omega
  have htake : ((hi ++ lo).take n).foldl (Receiver.see bus) r =
      (lo.take (n - m)).foldl (Receiver.see bus) (r.latch w.rs (hiNibble w.data)) := by
    rw [List.take_append, List.take_of_length_le (by omega), List.foldl_append, hfull, hm]
  by_cases hsecond : n < m'
  · obtain ⟨q, hq, hen⟩ := hpart' (n - m) (by omega)
    refine ⟨q, ?_, ?_⟩
    · rw [htake, hq, if_neg hfirst, if_pos hsecond]
      rfl
    · simp only [hen, Bool.or_eq_true, beq_iff_eq]
      omega
  · refine ⟨Pins.nibble w.rs (loNibble w.data) false, ?_, ?_⟩
    · rw [htake, List.take_of_length_le (by omega), hfull', if_neg hfirst, if_neg hsecond]
      rfl
    · simp [Pins.nibble, Level.ofBit]
      omega

theorem Receiver.see_rs (h : Handles) (rs : Bool) (r : Receiver) :
    r.see (.par h) (.w .rs rs) = r.withPins { r.pins with rs := .ofBit rs } :=
  Receiver.see_line h r .rs rs (by decide)

/-- RS, and the high nibble on the lines with its pulse (R102). -/
theorem see_rs_nibble (h : Handles) (t : Nat) (rs : Bool) (n : Nibble) {r : Receiver}
    (hen : r.pins.en ≠ .high) :
    ([Event.w .rs rs] ++ pNibble n ++ pPulse t).foldl (Receiver.see (.par h)) r = r.latch rs n := by
  have hnibble := see_nibble h t n (r := r.withPins { r.pins with rs := .ofBit rs }) rfl hen
  rw [Receiver.withPins_latch] at hnibble
  rw [List.foldl_append, List.foldl_append, List.foldl_cons, List.foldl_nil, Receiver.see_rs]
  exact hnibble

/-- A word's writes on the parallel bus: 8 for the first nibble, 7 for the second (R102, R108). -/
theorem wordProgress_parallel (h : Handles) (c : Cfg) (w : BusWord) {r : Receiver}
    (hen : r.pins.en ≠ .high) {n : Nat} (hn : n ≤ 15) :
    WordProgress (.par h) r w ((pWrite c w).filter Event.fallible) n (latched (.par h) n) := by
  have hlow := Receiver.latch_enable r w.rs (hiNibble w.data)
  have hrs : ∀ ev ∈ [Event.w .rs w.rs], LeavesEnable (.par h) ev :=
    List.forall_mem_singleton.mpr (leavesEnable_line h w.rs (by decide))
  have hhi := nibbleProgress_parallel h c.tPulse hrs hen
    (see_rs_nibble h c.tPulse w.rs (hiNibble w.data) hen)
  have hlo := nibbleProgress_parallel h c.tPulse (before := []) nofun hlow
    (by
      rw [List.nil_append, List.foldl_append]
      exact see_nibble h c.tPulse (loNibble w.data) (Receiver.latch_rs _ _ _) hlow)
  have hlatched : latched (.par h) n =
      (if n < 8 then 0 else if n < 15 then 1 else 2, n + 1 == 8 || n + 1 == 15) := by simp [latched]
  rw [hlatched]
  exact wordProgress hhi hlo rfl rfl rfl hn

/-- A word's bytes on I2C: 3 for each nibble (R123, R126). -/
theorem wordProgress_expander (c : Cfg) {p : PinMap} (hp : PinsDistinct p) (a : Byte) (b bls : Bool)
    (w : BusWord) {r : Receiver} (hen : r.pins.en ≠ .high) {n : Nat} (hn : n ≤ 6) :
    WordProgress (.i2c p a b) r w ((xWrite c p a bls w).filter Event.fallible) n
      (latched (.i2c p a b) n) := by
  have hhi := nibbleProgress_expander c hp a a b w.rs bls (hiNibble w.data) hen
  have hlo := nibbleProgress_expander c hp a a b w.rs bls (loNibble w.data)
    (Receiver.latch_enable r w.rs (hiNibble w.data))
  have hlatched : latched (.i2c p a b) n =
      (if n < 3 then 0 else if n < 6 then 1 else 2, n + 1 == 3 || n + 1 == 6) := by simp [latched]
  rw [hlatched]
  exact wordProgress hhi hlo rfl rfl rfl hn

/-- The writes of a word, and what they have latched (R57, R108, R126). -/
theorem wordProgress_busWrite {c : Cfg} (hwf : c.wf = true) (bls : Bool) (w : BusWord) {r : Receiver}
    (hen : r.pins.en ≠ .high) {n : Nat} (hn : n ≤ wordWrites c.bus) :
    WordProgress c.bus r w ((busWrite c bls w).filter Event.fallible) n (latched c.bus n) := by
  unfold busWrite
  cases hbus : c.bus with
  | par h =>
    rw [hbus] at hn
    exact wordProgress_parallel h c w hen hn
  | i2c p a b =>
    rw [hbus] at hn
    exact wordProgress_expander c (pinsDistinct_of_wf hwf hbus) a b bls w hen hn

/-! ### A word that finds EN high (R106, R244) -/

/-- EN left high: the pulse's first write of EN low latches the nibble, and the pulse latches it again. -/
theorem see_pPulse_high (h : Handles) (t : Nat) (rs : Bool) (n : Nibble) (r : Receiver) :
    (pPulse t).foldl (Receiver.see (.par h)) (r.withPins { Pins.nibble rs n false with en := .high }) =
      (r.take (some (rs, n))).latch rs n := by
  change (pPulse t).foldl (Receiver.see (.par h)) (r.withPins (.nibble rs n true)) = _
  have hedge : (r.withPins (.nibble rs n true)).see (.par h) (.w .en false) = r.latch rs n := by
    rw [Receiver.see_fall h _ rfl, Receiver.withPins_pins, Pins.capture_nibble,
      Receiver.withPins_take]
    rfl
  have hagain : (r.latch rs n).see (.par h) (.w .en false) = r.latch rs n :=
    Receiver.see_low h _ (Receiver.latch_enable r rs n)
  have hpulse := see_pPulse h t rs n (en := .low) nofun (r.take (some (rs, n)))
  have hsame : (pPulse t).foldl (Receiver.see (.par h)) (r.withPins (.nibble rs n true)) =
      (pPulse t).foldl (Receiver.see (.par h)) (r.latch rs n) := by
    simp only [pPulse, List.foldl_cons, List.foldl_nil, Receiver.see_delay, hedge, hagain]
  exact hsame.trans hpulse

/-- EN left high: the first byte, with EN low, latches what the pins held; the nibble is then latched as
usual. -/
theorem see_xPulse_high (c : Cfg) {p : PinMap} (hp : PinsDistinct p) (a a' : Byte) (b rs bls : Bool)
    (n : Nibble) {r : Receiver} (hen : r.pins.en = .high) :
    (xPulse c p a (xMap p n ||| xCtl p rs bls)).foldl (Receiver.see (.i2c p a' b)) r =
      (r.take r.pins.capture).latch rs n := by
  have hpins : ∀ q : Pins, q.after (.i2c p a' b) (.x a (xByte p n rs bls false)) = .nibble rs n false :=
    fun _ => Pins.ofByte_xByte hp n rs bls false
  have hedge : r.see (.i2c p a' b) (.x a (xByte p n rs bls false)) =
      (r.take r.pins.capture).withPins (.nibble rs n false) := by
    rw [Receiver.see_falls hen (by rw [hpins]; rfl), hpins]
    rfl
  have hagain : ((r.take r.pins.capture).withPins (.nibble rs n false)).see (.i2c p a' b)
      (.x a (xByte p n rs bls false)) = (r.take r.pins.capture).withPins (.nibble rs n false) :=
    Receiver.see_still (hpins _)
  have hpulse := see_xPulse c hp a a' b rs bls n
    (r := (r.take r.pins.capture).withPins (.nibble rs n false)) nofun
  rw [Receiver.withPins_latch] at hpulse
  rw [← hpulse]
  simp only [xPulse, xSend, xByte_base, List.cons_append, List.nil_append, List.foldl_cons,
    Receiver.see_delay, hedge, hagain]

/-- A word that finds EN high: one nibble too many is latched before its own (R244). -/
theorem see_busWrite_high {c : Cfg} (hwf : c.wf = true) (bls : Bool) (w : BusWord) {r : Receiver}
    (hen : r.pins.en = .high) :
    ∃ cap, (busWrite c bls w).foldl (Receiver.see c.bus) r = (r.take cap).latchFirst w 2 ∧
      ∀ h, c.bus = .par h → cap = some (w.rs, hiNibble w.data) := by
  unfold busWrite
  cases hbus : c.bus with
  | par h =>
    refine ⟨some (w.rs, hiNibble w.data), ?_, fun _ _ => rfl⟩
    have hnibble := see_pNibble h (hiNibble w.data) (rs := w.rs)
      (r := r.withPins { r.pins with rs := .ofBit w.rs }) rfl
    rw [Receiver.withPins_withPins, Receiver.withPins_pins, hen] at hnibble
    simp only [pWrite, List.foldl_append, List.foldl_cons, List.foldl_nil, Receiver.see_delay,
      Receiver.see_rs]
    rw [hnibble, see_pPulse_high,
      see_nibble h c.tPulse _ (Receiver.latch_rs _ _ _) (Receiver.latch_enable _ _ _)]
    rfl
  | i2c p a b =>
    have hp := pinsDistinct_of_wf hwf hbus
    refine ⟨r.pins.capture, ?_, nofun⟩
    simp only [xWrite, List.foldl_append, List.foldl_cons, List.foldl_nil, Receiver.see_delay]
    rw [see_xPulse_high c hp a a b _ bls _ hen, see_xPulse c hp a a b _ bls _ (Receiver.latch_enable _ _ _)]
    rfl

/-! ### What has been received -/

@[simp] theorem Receiver.take_captures (r : Receiver) (c : Option (Bool × Nibble)) :
    (r.take c).captures = r.captures ++ [c] := by
  unfold Receiver.take
  cases r.half <;> rfl

@[simp] theorem Receiver.latch_captures (r : Receiver) (rs : Bool) (n : Nibble) :
    (r.latch rs n).captures = r.captures ++ [some (rs, n)] := Receiver.take_captures r _

/-- From a receiver at rest the nibbles latched are captured, and a high nibble alone waits. -/
theorem Receiver.latchFirst_received {r : Receiver} (hhalf : r.half = none) (w : BusWord) (k : Nat) :
    (r.latchFirst w k).captures = r.captures ++
      [some (w.rs, hiNibble w.data), some (w.rs, loNibble w.data)].take k ∧
    (r.latchFirst w k).half = if k = 1 then some (some (w.rs, hiNibble w.data)) else none := by
  match k with
  | 0 => simp [Receiver.latchFirst, hhalf]
  | 1 => simp [Receiver.latchFirst, Receiver.latch, Receiver.withPins, Receiver.take, hhalf]
  | k + 2 => simp [Receiver.latchFirst, Receiver.latch_latch hhalf, hhalf]

/-- A nibble waiting is paired with the word's high nibble, and its low nibble waits (R244). -/
theorem Receiver.latchFirst_waiting {r : Receiver} {half : Option (Bool × Nibble)}
    (hhalf : r.half = some half) (w : BusWord) :
    (r.latchFirst w 2).half = some (some (w.rs, loNibble w.data)) ∧
    (r.latchFirst w 2).words = r.words ++ pairWord half (some (w.rs, hiNibble w.data)) := by
  simp [Receiver.latchFirst, Receiver.latch, Receiver.withPins, Receiver.take, hhalf]

/-- A part of a word, by the number of its writes. -/
theorem see_part {c : Cfg} (hwf : c.wf = true) {bls : Bool} {w : BusWord} {r : Receiver}
    (hen : r.pins.en ≠ .high) {es : List Event} (hes : es <+: busWrite c bls w) {n : Nat}
    (hn : (es.filter Event.fallible).length = n) :
    ∃ q, es.foldl (Receiver.see c.bus) r = (r.latchFirst w (latched c.bus n).1).withPins q ∧
      (q.en = .high ↔ (latched c.bus n).2 = true) := by
  have hwrites := hes.filter Event.fallible
  have hle := hwrites.length_le
  rw [hn, busWrite_eq, wireWord_fallibles] at hle
  rw [← see_fallibles, List.prefix_iff_eq_take.mp hwrites, hn]
  exact wordProgress_busWrite hwf bls w hen hle

theorem oneWord_ne_reset {ic : IC} {i : Instr} {w : Bool × Byte} (h : oneWord ic i = some w) (c : Cfg) :
    i ≠ .reset c := by
  rintro rfl
  cases h

/-- What the receiver has latched of a word of which a write fails (R108, R126). -/
theorem received_failed_word {i : Instr} {rs : Bool} {data : Byte} {s : State} {k : Nat} {e : TErr}
    {rest : List TStatus} {landed : List Bool} (hword : oneWord s.cfg.ic i = some (rs, data))
    (hready : s.Ready) (hwf : s.cfg.wf = true) (hen : (s.received landed).pins.en ≠ .high)
    (henv : s.env = List.replicate k .ok ++ .err e :: rest) (hk : k < wordWrites s.cfg.bus) {n : Nat}
    (hn : n = if (s.received landed).landed.headD false then k + 1 else k) :
    ∃ t q more, exec i s = .next t ∧ t.result = .err e ∧
      t.received landed = (((s.received landed).latchFirst ⟨rs, data⟩
        (latched s.cfg.bus n).1).withPins q).withLanded more ∧
      (q.en = .high ↔ (latched s.cfg.bus n).2 = true) := by
  obtain ⟨t, pre, ev, hexec, hres, -, htr, hprefix, hcount, hev, -⟩ :=
    wordFailsAtItsWrite i rs data s k e rest hword hready henv hk
  have hcfg := (exec_sameConfig (oneWord_ne_reset hword) hexec).cfg
  have hreceived := received_append_failed landed hcfg htr
  rw [← busWrite_eq s.cfg s.bls ⟨rs, data⟩] at hprefix
  have hpart : (if (s.received landed).landed.headD false then pre ++ [ev] else pre) <+:
      busWrite s.cfg s.bls ⟨rs, data⟩ := by
    split
    · exact hprefix
    · exact (List.prefix_append pre [ev]).trans hprefix
  obtain ⟨q, hq, hhigh⟩ := see_part hwf hen hpart (n := n) (by
    rw [hn]
    split <;> simp [hcount, hev])
  exact ⟨t, q, _, hexec, hres, by rw [hreceived, hq], hhigh⟩

/-- Settles O57: a failed word is a part of the word's nibbles, as its reading says; a whole word then
finds the nibble or the level of EN that this part has left. -/
theorem receiverOfAFailedWord : Obligations.ReceiverOfAFailedWord := by
  unfold Obligations.ReceiverOfAFailedWord
  refine ⟨fun i rs data s k e rest landed hword hready hwf ⟨hhalf, hen⟩ henv hk => ?_,
    fun i rs data s landed hword hready hok hwf => ?_⟩
  · obtain ⟨t, q, more, hexec, hres, hreceived, hhigh⟩ :=
      received_failed_word hword hready hwf hen henv hk rfl
    obtain ⟨hcaptures, hwaits⟩ := Receiver.latchFirst_received hhalf ⟨rs, data⟩
      (latched s.cfg.bus (if (s.received landed).landed.headD false then k + 1 else k)).1
    refine ⟨t, _, hexec, hres, rfl, ?_, ?_, ?_⟩ <;> rw [hreceived]
    · exact hcaptures
    · exact hhigh
    · exact hwaits
  · obtain ⟨t, hexec, -, htr, -, hconfig, -⟩ := oneWordInstructionsComplete i rs data s hword hready hok
    have hreceived := received_append_okEntries landed hconfig.cfg htr
    rw [← busWrite_eq s.cfg s.bls ⟨rs, data⟩] at hreceived
    by_cases hen : (s.received landed).pins.en = .high
    · obtain ⟨cap, hsee, hpar⟩ := see_busWrite_high hwf s.bls ⟨rs, data⟩ hen
      rw [hsee] at hreceived
      refine ⟨t, hexec, ?_, fun half _ hlow => absurd hen hlow, fun _ => ⟨cap, ?_, hpar⟩⟩ <;>
        rw [hreceived]
      · rfl
      · simp [Receiver.latchFirst]
    · have hsee := see_busWrite hwf s.bls ⟨rs, data⟩ hen
      rw [hsee] at hreceived
      refine ⟨t, hexec, ?_, fun half hhalf _ => ?_, fun hhigh => absurd hhigh hen⟩ <;> rw [hreceived]
      · rfl
      · exact Receiver.latchFirst_waiting hhalf ⟨rs, data⟩

end Sys2Proof.Machine
end

section
/-! Proofs of O15, O16 and O41: the controller operations that only send words and wait, and when the
operations of the block are refused. -/

namespace Sys2Proof.Machine

/-! ### Operations that only send words and wait (R140, R142, R144) -/

/-- Whatever comes before it, the last word of a sequence is what the wire shows. -/
theorem State.after_append_wireWord_shows (es : List Event) (bls rs : Bool) (data : Byte) (s : State) :
    (s.after (es ++ wireWord s.cfg bls rs data)).ShowsWord bls rs data := by
  have hshows := State.after_wireWord_shows bls rs data (s.after es)
  rwa [State.after_cfg, ← State.after_append] at hshows

/-- A word is still shown once the wait after it is over. -/
theorem State.after_wireWord_delay_shows (bls rs : Bool) (data : Byte) (n : Nat) (s : State) :
    (s.after (wireWord s.cfg bls rs data ++ [.d n])).ShowsWord bls rs data := by
  rw [State.after_append]
  exact State.after_delay_shows (State.after_wireWord_shows bls rs data s)

/-- On a ready block, when no write fails, such an operation performs its events and keeps all else. -/
theorem exec_plain_completes {i : Instr} {s : State} {es : List Event} {bls rs : Bool} {data : Byte}
    (hready : s.Ready) (hok : s.AllOk) (hes : plainEvents i s = some es)
    (hshows : (s.after es).ShowsWord bls rs data) :
    ∃ t, exec i s = .next t ∧ t.result = .ok ∧ t.trace = s.trace ++ okEntries es ∧
      t.ShowsWord bls rs data ∧ s.KeepsConfig t ∧ s.KeepsRegisters t ∧ s.OtherSpaceKept t :=
  have hevents := plainEvents_events hes
  ⟨_, (exec_plain hes).trans (whenReady_perform_allOk hready hok es), rfl, State.after_trace es s,
    hshows, State.after_keepsConfig hevents _, State.after_keepsRegisters es s _,
    (State.sameOther_after hevents).other⟩

/-- Settles O15: the two words are all of `INIT`, and the second is shown. -/
theorem initCompletes : Obligations.InitCompletes := by
  unfold Obligations.InitCompletes
  intro s hready hok
  exact exec_plain_completes hready hok rfl (State.after_append_wireWord_shows _ s.bls false _ s)

/-- Settles O16: each of the two is its word and the wait, which changes nothing the wire shows. -/
theorem clearAndHomeComplete : Obligations.ClearAndHomeComplete := by
  unfold Obligations.ClearAndHomeComplete
  intro s hready hok
  have hshows := fun data => State.after_wireWord_delay_shows s.bls false data s.cfg.tClear s
  exact ⟨exec_plain_completes hready hok rfl (hshows _), exec_plain_completes hready hok rfl (hshows _)⟩

/-! ### Refusals (R141, R214) -/

theorem whenReady_unbuilt {s : State} (hopen : s.closed = false) (hlife : s.life = .unbuilt)
    (k : State → Run) : whenReady s k = .refused .notConstructed := by
  simp [whenReady, hopen, hlife]

theorem whenReady_failed {s : State} (hopen : s.closed = false) (hlife : s.life = .failed)
    (k : State → Run) : whenReady s k = .refused .constructionFailed := by
  simp [whenReady, hopen, hlife]

/-- Settles O41: `CLOSED` refuses everything, and every operation but `LTR?` begins with the check of
what construction came to. -/
theorem blockRefusals : Obligations.BlockRefusals := by
  unfold Obligations.BlockRefusals
  intro i s hclient hreset
  refine ⟨fun hclosed => exec_closed_refused hclosed hclient, fun hltr hopen hlife => ?_,
    fun hltr hopen hlife => ?_⟩ <;> obtain ⟨k, hk⟩ := exec_block (s := s) hclient hreset hltr
  · rw [hk, whenReady_unbuilt hopen hlife, Run.outcome]
  · rw [hk, whenReady_failed hopen hlife, Run.outcome]

end Sys2Proof.Machine
end

section
/-! Proofs of O19, O20 and O21: a setter as a write to one of eight flags, read back flag by flag. -/

namespace Sys2Proof.Machine

/-! ### Reading a flag back (R160, R174) -/

/-- Registers that agree in the eight flags of R174 are the same registers. -/
theorem Modes.ext_flag {m m' : Modes} (h : ∀ k < 8, m.flag k = m'.flag k) : m = m' := by
  obtain ⟨⟨i, s⟩, ⟨d, c, b⟩, ⟨l, n, f⟩⟩ := m
  obtain ⟨⟨i', s'⟩, ⟨d', c', b'⟩, ⟨l', n', f'⟩⟩ := m'
  obtain rfl : i = i' := h 0 (by decide)
  obtain rfl : s = s' := h 1 (by decide)
  obtain rfl : d = d' := h 2 (by decide)
  obtain rfl : c = c' := h 3 (by decide)
  obtain rfl : b = b' := h 4 (by decide)
  obtain rfl : l = l' := h 5 (by decide)
  obtain rfl : n = n' := h 6 (by decide)
  obtain rfl : f = f' := h 7 (by decide)
  rfl

/-- A flag after a setter: its own flag is off after an "off" setter and on after any other, and every
other flag is as before (R160 to R163). -/
theorem flag_applySetter (x : Setter) (m : Modes) {k : Nat} (hk : k < 8) :
    (applySetter x m).flag k = if setterFlag x = k then decide (x ∉ offSetters) else m.flag k := by
  interval_cases k <;> cases x <;> rfl

theorem Modes.flag_zero (k : Nat) : Modes.zero.flag k = false := by
  unfold Modes.flag
  split <;> rfl

theorem setterFlag_lt (x : Setter) : setterFlag x < 8 := by
  cases x <;> decide

/-! ### The algebra (R164) -/

/-- Of two setters on one flag the later decides. -/
theorem applySetter_applySetter_same {x y : Setter} (h : setterFlag x = setterFlag y) (m : Modes) :
    applySetter y (applySetter x m) = applySetter y m := by
  refine Modes.ext_flag fun k hk => ?_
  simp only [flag_applySetter _ _ hk, h]
  split <;> rfl

/-- Setters on different flags commute. -/
theorem applySetter_comm {x y : Setter} (h : setterFlag x ≠ setterFlag y) (m : Modes) :
    applySetter y (applySetter x m) = applySetter x (applySetter y m) := by
  refine Modes.ext_flag fun k hk => ?_
  simp only [flag_applySetter _ _ hk]
  by_cases hx : setterFlag x = k
  · have hy : setterFlag y ≠ k := fun hy => h (hx.trans hy.symm)
    simp only [if_pos hx, if_neg hy]
  · simp only [if_neg hx]

/-- An "off" setter gives its flag the reset value. -/
theorem flag_applySetter_off {x : Setter} (h : x ∈ offSetters) (m : Modes) :
    (applySetter x m).flag (setterFlag x) = Modes.zero.flag (setterFlag x) := by
  rw [flag_applySetter x m (setterFlag_lt x), if_pos rfl, Modes.flag_zero]
  exact decide_eq_false (not_not_intro h)

/-- The eight "off" setters write every flag. -/
theorem applySetters_offSetters (m : Modes) : applySetters offSetters m = Modes.zero := rfl

theorem applySetters_append_singleton (xs : List Setter) (x : Setter) (m : Modes) :
    applySetters (xs ++ [x]) m = applySetter x (applySetters xs m) := by
  simp [applySetters]

/-- Each flag has a setter for each of its two values (R90). -/
theorem exists_setter : ∀ k < 8, ∀ v : Bool,
    ∃ x ∈ allSetters, setterFlag x = k ∧ decide (x ∉ offSetters) = v := by decide

/-- From reset the flags can be given any values one after another: here the first `n` of them. -/
theorem exists_setters_below (m : Modes) : ∀ n ≤ 8, ∃ xs, ∀ k < 8,
    (applySetters xs Modes.zero).flag k = if k < n then m.flag k else false := by
  intro n
  induction n with
  | zero => exact fun _ => ⟨[], fun k _ => Modes.flag_zero k⟩
  | succ n ih =>
    intro hn
    obtain ⟨xs, hxs⟩ := ih (by omega)
    obtain ⟨x, -, hflag, hvalue⟩ := exists_setter n (by omega) (m.flag n)
    refine ⟨xs ++ [x], fun k hk => ?_⟩
    rw [applySetters_append_singleton, flag_applySetter _ _ hk, hxs k hk, hflag, hvalue]
    obtain hlt | rfl | hgt := Nat.lt_trichotomy k n
    · rw [if_neg (by omega), if_pos hlt, if_pos (by omega)]
    · rw [if_pos rfl, if_pos (by omega)]
    · rw [if_neg (by omega), if_neg (by omega), if_neg (by omega)]

/-- Every value of the registers is reached from reset. -/
theorem exists_applySetters_zero (m : Modes) : ∃ xs, applySetters xs Modes.zero = m := by
  obtain ⟨xs, hxs⟩ := exists_setters_below m 8 le_rfl
  exact ⟨xs, Modes.ext_flag fun k hk => (hxs k hk).trans (if_pos hk)⟩

/-- Settles O21: clause by clause from what a flag is after a setter; (a) is (b) for a setter and
itself. -/
theorem setterAlgebra : Obligations.SetterAlgebra := by
  unfold Obligations.SetterAlgebra
  exact ⟨fun x m => applySetter_applySetter_same (x := x) rfl m,
    fun x y m h => applySetter_applySetter_same h m, fun x y m h => applySetter_comm h m,
    fun x m h => flag_applySetter_off h m, applySetters_offSetters, exists_applySetters_zero⟩

/-! ### Each setter (R161 to R163) -/

/-- Settles O20: the sixteen equations of `applySetter`. -/
theorem setterFlags : Obligations.SetterFlags := by
  unfold Obligations.SetterFlags
  exact fun m => ⟨rfl, rfl, rfl, rfl, rfl, rfl, rfl, rfl, rfl, rfl, rfl, rfl, rfl, rfl, rfl, rfl⟩

/-- Settles O19: on a ready block a setter row writes its flag and performs nothing. -/
theorem settersComplete : Obligations.SettersComplete := by
  unfold Obligations.SettersComplete
  intro i x s hx hready
  rw [exec_setter hx, setterOnly, whenReady_ready hready]
  rfl

end Sys2Proof.Machine
end

section
/-! Proofs of O17, O18, O22, O23, O24 and O39: flags first, then the words of the new flags; `CLEARR`
as `CLEAR` and `FLUSH`; and the status read. -/

namespace Sys2Proof.Machine

/-! ### Flags, then words (R165, R167, R171) -/

theorem exec_apply {s : State} (hready : s.Ready) (xs : List Setter) :
    exec (.apply xs) s = (perform (wireModes s.cfg s.bls (applySetters xs s.modes))
      (s.applySetters xs)).outcome := by
  rw [← flushEvents_eq]
  exact congrArg Run.outcome (whenReady_ready hready (applyAndFlush xs))

theorem exec_toggle_ready {i : Instr} {x : Setter} {s : State} (hx : toggleSetter i = some x)
    (hready : s.Ready) :
    exec i s = (perform (wireWord s.cfg s.bls false
      (s.cfg.ic.iDisplay ||| dmByte s.cfg.ic (applySetter x s.modes).dm)) (s.applySetters [x])).outcome := by
  rw [exec_toggle hx, toggle, whenReady_ready hready, busWrite_eq]
  rfl

/-- Setters, and then words of which no write fails: the flags are the setters', the wire shows the
last word, and all else is kept. -/
theorem setters_then_words_complete {s : State} {es : List Event} {bls rs : Bool} {data : Byte}
    (xs : List Setter) (hok : s.AllOk) (hes : ∀ e ∈ es, WordEvent s.cfg e)
    (hshows : ((s.applySetters xs).after es).ShowsWord bls rs data) :
    ∃ t, (perform es (s.applySetters xs)).outcome = .next t ∧ t.result = .ok ∧
      t.modes = applySetters xs s.modes ∧ t.trace = s.trace ++ okEntries es ∧
      t.ShowsWord bls rs data ∧ s.KeepsConfig t ∧ t.bls = s.bls ∧ t.closed = s.closed ∧
      t.col = s.col ∧ t.row = s.row ∧ s.OtherSpaceKept t := by
  obtain ⟨hmodes, hbls, hclosed, hcol, hrow⟩ := State.after_keepsRegisters es (s.applySetters xs) .ok
  obtain ⟨hlife, hcfg, hport, hdraws⟩ := State.after_sameConfig es (s.applySetters xs) .ok
  refine ⟨_, ?_, rfl, hmodes, State.after_trace es _, hshows, ⟨hlife, hcfg, hport, hdraws⟩, hbls,
    hclosed, hcol, hrow, (State.sameOther_after (s := s.applySetters xs) hes).other⟩
  rw [perform_allOk (s := s.applySetters xs) es hok, Run.outcome]

/-- Settles O17: both are setters and then the three mode words; `FLUSH` has no setters. -/
theorem applyAndFlushComplete : Obligations.ApplyAndFlushComplete := by
  unfold Obligations.ApplyAndFlushComplete
  intro xs s hready hok
  refine ⟨?_, exec_plain_completes hready hok rfl (State.after_wireModes_shows s.bls s.modes s)⟩
  obtain ⟨t, hexec, hres, hmodes, hrest⟩ := setters_then_words_complete xs hok
    (wireModes_events s.cfg s.bls (applySetters xs s.modes))
    (State.after_wireModes_shows s.bls (applySetters xs s.modes) (s.applySetters xs))
  rw [← hmodes] at hrest
  exact ⟨t, (exec_apply hready xs).trans hexec, hres, hmodes, hrest⟩

/-- Settles O18: a toggle is its one setter and then the display word. -/
theorem togglesComplete : Obligations.TogglesComplete := by
  unfold Obligations.TogglesComplete
  intro i x s hx hready hok
  obtain ⟨t, hexec, hres, hmodes, hrest⟩ := setters_then_words_complete [x] hok
    (wireWord_events s.cfg s.bls false
      (s.cfg.ic.iDisplay ||| dmByte s.cfg.ic (applySetter x s.modes).dm))
    (State.after_wireWord_shows s.bls false _ (s.applySetters [x]))
  change t.modes = applySetter x s.modes at hmodes
  obtain ⟨hem, hfm⟩ := applySetter_of_toggle hx s.modes
  rw [← hmodes] at hrest hem hfm
  exact ⟨t, (exec_toggle_ready hx hready).trans hexec, hres, hmodes, hem, hfm, hrest⟩

/-! ### What has been written stays written (R127, R168, R171) -/

/-- No primitive writes a flag, so that the setters' flags stand wherever the words end. -/
theorem perform_applySetters_modes (es : List Event) (xs : List Setter) (s : State) :
    (perform es (s.applySetters xs)).Ends fun t => t.modes = applySetters xs s.modes :=
  Run.ends_mono (perform_sameHeld es (s.applySetters xs)) fun _ h => h.modes

theorem exec_apply_modes {xs : List Setter} {s t : State} (h : exec (.apply xs) s = .next t) :
    t.modes = applySetters xs s.modes :=
  Run.ends_of_outcome (r := whenReady s (applyAndFlush xs))
    (whenReady_ends fun _ => perform_applySetters_modes _ xs s) (fun _ _ hu => hu) h

theorem exec_toggle_applySetter {i : Instr} {x : Setter} {s t : State} (hx : toggleSetter i = some x)
    (h : exec i s = .next t) : t.modes = applySetter x s.modes := by
  rw [exec_toggle hx] at h
  exact Run.ends_of_outcome (whenReady_ends fun _ => perform_applySetters_modes _ [x] s)
    (fun _ _ hu => hu) h

/-- On I2C the flag is stored before the word that carries it, and no primitive writes it. -/
theorem opBacklight_bls {s : State} {p : PinMap} {a : Byte} {r : Bool} (hbus : s.cfg.bus = .i2c p a r)
    (on : Bool) : (opBacklight on s).Ends fun t => t.bls = on := by
  rw [opBacklight_eq]
  refine whenReady_ends fun _ => ?_
  rw [backlightRun, hbus]
  exact Run.ends_mono (perform_sameHeld _ { s with bls := on }) fun _ h => h.bls

/-- Settles O39: each of these writes its registers before its first primitive. -/
theorem noRollback : Obligations.NoRollback := by
  unfold Obligations.NoRollback
  intro s t
  refine ⟨fun xs => exec_apply_modes, fun i x => exec_toggle_applySetter, fun p a r hbus => ?_⟩
  have hlight := fun on => Run.ends_of_outcome (opBacklight_bls hbus on) (t := t) fun _ _ hu => hu
  exact ⟨hlight true, hlight false⟩

/-! ### The full clear (R177, R178) -/

/-- Settles O23: whatever comes before them, the three mode words show the last of them. -/
theorem clearrCompletes : Obligations.ClearrCompletes := by
  unfold Obligations.ClearrCompletes
  intro s hready hok
  refine exec_plain_completes hready hok rfl ?_
  rw [State.after_append]
  have hshows := State.after_wireModes_shows s.bls s.modes
    (s.after (wireWord s.cfg s.bls false s.cfg.ic.iClear ++ [.d s.cfg.tClear]))
  rwa [State.after_cfg] at hshows

/-- The state with another result output, which no primitive reads (R23(b)). -/
def State.withResult (s : State) (x : Result) : State := { s with result := x }

theorem State.answer_withResult (s : State) (x : Result) : (s.withResult x).answer = s.answer := rfl
theorem State.answered_withResult (s : State) (x : Result) :
    (s.withResult x).answered = s.answered.withResult x := rfl
theorem State.log_withResult (s : State) (x : Result) (e : Event) (err : Option TErr) :
    (s.withResult x).log e err = (s.log e err).withResult x := rfl
theorem okEffect_withResult (e : Event) (s : State) (x : Result) :
    okEffect e (s.withResult x) = (okEffect e s).withResult x := by cases e <;> rfl
theorem errEffect_withResult (e : Event) (s : State) (x : Result) :
    errEffect e (s.withResult x) = (errEffect e s).withResult x := by cases e <;> rfl

/-- What an operation comes to does not depend on the result of the one before it. -/
theorem perform_withResult_outcome (es : List Event) (s : State) (x : Result) :
    (perform es (s.withResult x)).outcome = (perform es s).outcome := by
  induction es generalizing s with
  | nil => rfl
  | cons e es ih =>
    simp only [perform_cons, performOne, State.answer_withResult, State.answered_withResult,
      okEffect_withResult, errEffect_withResult, State.log_withResult]
    cases e.fallible with
    | false => exact ih _
    | true =>
      cases s.answer with
      | ok => exact ih _
      | err t | never => rfl

/-- A block that is not ready refuses whatever begins with that check, for one and the same reason. -/
theorem whenReady_not_ready {s : State} (h : ¬ s.Ready) :
    ∃ r, ∀ k, whenReady s k = .refused r := by
  cases hc : s.closed with
  | true => exact ⟨_, whenReady_closed hc⟩
  | false =>
    cases hl : s.life with
    | unbuilt => exact ⟨_, whenReady_unbuilt hc hl⟩
    | failed => exact ⟨_, whenReady_failed hc hl⟩
    | ready => exact absurd ⟨hl, hc⟩ h

/-- After primitives that came to their end, `FLUSH` replays the registers as they were before. -/
theorem exec_flush_of_sameHeld {s u : State} (h : s.SameHeld u) (hready : s.Ready) (x : Result) :
    exec .flush (u.withResult x) = (perform (wireModes s.cfg s.bls s.modes) u).outcome := by
  obtain ⟨hlife, hopen⟩ := hready
  have hu : (u.withResult x).Ready := ⟨h.life.trans hlife, h.closed.trans hopen⟩
  rw [exec_plain rfl, whenReady_ready hu, perform_withResult_outcome]
  show (perform (wireModes u.cfg u.bls u.modes) u).outcome = _
  rw [h.cfg, h.bls, h.modes]

/-- Settles O22: `CLEARR` is the events of `CLEAR` and then those of `FLUSH`, and the first part leaves
`FLUSH` the block it found. -/
theorem clearrIsClearThenFlush : Obligations.ClearrIsClearThenFlush := by
  unfold Obligations.ClearrIsClearThenFlush
  intro s
  rw [exec_plain (i := .clearr) rfl, exec_plain (i := .clear) rfl]
  by_cases hready : s.Ready
  · rw [whenReady_ready hready, whenReady_ready hready, perform_append]
    have hheld := perform_sameHeld
      (wireWord s.cfg s.bls false s.cfg.ic.iClear ++ [.d s.cfg.tClear]) s
    cases hrun : perform (wireWord s.cfg s.bls false s.cfg.ic.iClear ++ [.d s.cfg.tClear]) s with
    | done u =>
      rw [hrun] at hheld
      exact (exec_flush_of_sameHeld hheld hready .ok).symm
    | abort u e => rfl
    | refused r => rfl
    | stuck f => rfl
  · obtain ⟨r, hrefused⟩ := whenReady_not_ready hready
    rw [hrefused, hrefused]
    rfl

/-! ### The status read (R176) -/

/-- Settles O24: on a block that is not closed `LTR?` is answered, and two bits differ just when their
xor is 1. -/
theorem ltrStatusCompletes : Obligations.LtrStatusCompletes := by
  unfold Obligations.LtrStatusCompletes
  intro s hopen
  rw [exec_ltr, if_neg (by simp [hopen])]
  rfl

end Sys2Proof.Machine
end

section
/-! Proofs of O28, O29, O30, O31 and O32: on a usable block on which nothing fails, a client operation is
words and a cursor, so that the state it ends in is given outright (`State.after`, `State.moveTo`). -/

namespace Sys2Proof.Machine

/-! ### The cursor is not read by the block (R190) -/

theorem State.moveTo_moveTo (s : State) (c c' : Int) (r r' : Nat) :
    (s.moveTo c r).moveTo c' r' = s.moveTo c' r' := rfl

theorem okEffect_moveTo (e : Event) (s : State) (c : Int) (r : Nat) :
    okEffect e (s.moveTo c r) = (okEffect e s).moveTo c r := by cases e <;> rfl

/-- What a sequence makes of the block does not depend on the client's cursor. -/
theorem State.after_moveTo (es : List Event) (s : State) (c : Int) (r : Nat) :
    (s.moveTo c r).after es = (s.after es).moveTo c r := by
  induction es generalizing s with
  | nil => rfl
  | cons e es ih =>
    simp only [State.after]
    rw [← ih]
    cases e.fallible with
    | false => exact congrArg (fun u => State.after es (u.log e none)) (okEffect_moveTo e s c r)
    | true => exact congrArg (fun u => State.after es (u.log e none)) (okEffect_moveTo e s.answered c r)

theorem State.after_ready {s : State} (h : s.Ready) (es : List Event) : (s.after es).Ready :=
  ⟨(State.after_life es s).trans h.1, (State.after_closed es s).trans h.2⟩

/-! ### Operations of the block, as parts of the client's -/

theorem emitting_allOk {s : State} (hready : s.Ready) (hok : s.AllOk) (events : State → List Event) :
    emitting events s = .done (s.after (events s)) := by
  rw [emitting, whenReady_ready hready, perform_allOk _ hok]

theorem sendWord_allOk {s : State} (hready : s.Ready) (hok : s.AllOk) (w : State → BusWord) :
    sendWord w s = .done (s.after (wireWord s.cfg s.bls (w s).rs (w s).data)) := by
  rw [sendWord, emitting_allOk hready hok, busWrite_eq]

theorem opHome_allOk {s : State} (hready : s.Ready) (hok : s.AllOk) :
    opHome s = .done (s.after (wireWord s.cfg s.bls false s.cfg.ic.iHome ++ [.d s.cfg.tClear])) := by
  rw [opHome, emitting_allOk hready hok, homeEvents_eq]

theorem opClearr_allOk {s : State} (hready : s.Ready) (hok : s.AllOk) :
    opClearr s = .done (s.after (wireWord s.cfg s.bls false s.cfg.ic.iClear ++ [.d s.cfg.tClear] ++
      wireModes s.cfg s.bls s.modes)) := by
  rw [opClearr, emitting_allOk hready hok, clearEvents_eq, flushEvents_eq]

/-- `DSETCURSOR`, after other events and with the cursor anywhere, is its address word, and the cursor
is at the clamped position then (R196). -/
theorem opDsetcursor_after {s : State} (hready : s.Ready) (hok : s.AllOk) (es : List Event) (col : Int)
    (row c r : Nat) :
    opDsetcursor c r ((s.after es).moveTo col row) =
      .done ((s.after (es ++ wireWord s.cfg s.bls false (s.cfg.ic.iDdram |||
        ddramAddress s.cfg.cols c (clampRow s.cfg.rows r)))).moveTo c (clampRow s.cfg.rows r)) := by
  rw [opDsetcursor, opSetcursor, sendWord_allOk (s := ((s.after es).moveTo col row).moveTo c _)
    (State.after_ready hready es) (State.after_allOk es hok)]
  simp only [State.moveTo_moveTo, State.moveTo_cfg, State.moveTo_bls, State.after_cfg, State.after_bls,
    State.after_moveTo, ← State.after_append]
  rfl

/-! ### From the state reached to the instruction -/

theorem whenGeometry_ok {s : State} (h : s.GeometryOk) (k : State → Run) : whenGeometry s k = k s :=
  if_pos h

/-- A client operation that comes to words and a cursor has done that, and has left all else alone. -/
theorem client_completes {s : State} {op : State → Run} {es : List Event} {c : Int} {r : Nat}
    (hgeometry : s.GeometryOk) (hes : ∀ e ∈ es, WordEvent s.cfg e)
    (hop : op s = .done ((s.after es).moveTo c r)) :
    ∃ t, (whenGeometry s op).outcome = .next t ∧ t.result = .ok ∧ t.col = c ∧ t.row = r ∧
      t.trace = s.trace ++ okEntries es ∧ s.KeepsConfig t ∧ t.modes = s.modes ∧ t.bls = s.bls ∧
      t.closed = s.closed ∧ s.OtherSpaceKept t := by
  obtain ⟨hlife, hcfg, hport, hdraws⟩ := State.after_sameConfig es s .ok
  refine ⟨{ (s.after es).moveTo c r with result := .ok }, ?_, rfl, rfl, rfl, State.after_trace es s,
    ⟨hlife, hcfg, hport, hdraws⟩, State.after_modes es s, State.after_bls es s, State.after_closed es s,
    (State.sameOther_after hes).other⟩
  rw [whenGeometry_ok hgeometry, hop, Run.outcome]

/-- Settles O28: the address word is sent from the position just stored. -/
theorem clientSetCursorCompletes : Obligations.ClientSetCursorCompletes := by
  unfold Obligations.ClientSetCursorCompletes
  intro c r s hready hok hgeometry
  obtain ⟨t, hexec, hres, hcol, hrow, hrest⟩ := client_completes hgeometry
    (wireWord_events s.cfg s.bls false _) (opDsetcursor_after hready hok [] s.col s.row c r)
  refine ⟨t, hexec, hres, hcol, hrow, ?_⟩
  rw [hrow]
  exact hrest

/-! ### A new line (R195) -/

/-- The address word of a new line's start (R195 to R198). -/
def newlineWord (c : Cfg) (m : Modes) (row : Nat) : Bool × Byte :=
  (false, c.ic.iDdram |||
    BitVec.ofNat 8 ((newlineTo c m row).1 + rowOffset c.cols (newlineTo c m row).2))

/-- `DNEWLINE` is a `DSETCURSOR` to where a new line starts. -/
theorem opDnewline_after {s : State} (hready : s.Ready) (hok : s.AllOk) (es : List Event) (col : Int)
    (row : Nat) :
    opDnewline ((s.after es).moveTo col row) =
      .done ((s.after (es ++ wireWord s.cfg s.bls false (newlineWord s.cfg s.modes row).2)).moveTo
        (newlineTo s.cfg s.modes row).1 (newlineTo s.cfg s.modes row).2) := by
  rw [opDnewline, opDsetcursor_after hready hok, startColumn, State.moveTo_modes, State.moveTo_cfg,
    State.after_modes, State.after_cfg]
  rfl

/-- Settles O29: it is a `DSETCURSOR` to the start of the next row. -/
theorem clientNewlineCompletes : Obligations.ClientNewlineCompletes := by
  unfold Obligations.ClientNewlineCompletes
  intro s hready hok hgeometry
  obtain ⟨t, hexec, hres, hcol, hrow, hrest⟩ := client_completes hgeometry
    (wireWord_events s.cfg s.bls false _) (opDnewline_after hready hok [] s.col s.row)
  refine ⟨t, hexec, hres, hcol, hrow, ?_⟩
  rw [hrow]
  exact hrest

/-! ### The home position and the full clear (R193, R194) -/

/-- Settles O30: the block's `HOME` from position `(0,0)`. -/
theorem clientHomeCompletes : Obligations.ClientHomeCompletes := by
  unfold Obligations.ClientHomeCompletes
  intro s hready hok hgeometry
  have hop : opDhome s = .done ((s.after
      (wireWord s.cfg s.bls false s.cfg.ic.iHome ++ [.d s.cfg.tClear])).moveTo 0 0) := by
    rw [← State.after_moveTo]
    exact opHome_allOk (s := s.moveTo 0 0) hready hok
  exact client_completes hgeometry
    (wordEvent_append (wireWord_events s.cfg s.bls false _) wordEvent_delay) hop

theorem geometryCheck_iff (c : Cfg) :
    geometryCheck c = true ↔ 1 ≤ c.cols ∧ 1 ≤ c.rows ∧ c.rows ≤ 4 := by
  simp [geometryCheck, and_assoc]

/-- Row 0 is a row of every geometry (R191). -/
theorem clampRow_zero {rows : Nat} (h : 1 ≤ rows) : clampRow rows 0 = 0 := if_neg (by omega)

/-- `DCLEAR` is the full clear, and from right to left the address word of the last column after it. -/
theorem opDclear_allOk {s : State} (hready : s.Ready) (hok : s.AllOk) (hgeometry : s.GeometryOk) :
    opDclear s = .done ((s.after (wireWord s.cfg s.bls false s.cfg.ic.iClear ++ [.d s.cfg.tClear] ++
      wireModes s.cfg s.bls s.modes ++ if ltr s.modes then [] else
        wireWord s.cfg s.bls false (s.cfg.ic.iDdram ||| BitVec.ofNat 8 (s.cfg.cols - 1)))).moveTo
      (if ltr s.modes then 0 else (s.cfg.cols : Int) - 1) 0) := by
  obtain ⟨hcols, hrows, -⟩ := (geometryCheck_iff s.cfg).mp hgeometry
  rw [opDclear, opClearr_allOk (s := s.moveTo 0 0) hready hok, Run.done_andThen, State.after_moveTo]
  simp only [State.moveTo_cfg, State.moveTo_bls, State.moveTo_modes, State.after_cfg, State.after_modes]
  cases hltr : ltr s.modes with
  | true => simp only [if_true, List.append_nil]
  | false =>
    simp only [Bool.false_eq_true, if_false]
    rw [opDsetcursor_after hready hok, clampRow_zero hrows, Nat.cast_sub hcols]
    rfl

/-- Settles O31: the full clear, with the cursor where the direction of writing starts. -/
theorem clientClearCompletes : Obligations.ClientClearCompletes := by
  unfold Obligations.ClientClearCompletes
  intro s hready hok hgeometry
  have hclear := wordEvent_append (wordEvent_append (wireWord_events s.cfg s.bls false s.cfg.ic.iClear)
    (wordEvent_delay (n := s.cfg.tClear))) (wireModes_events s.cfg s.bls s.modes)
  refine client_completes hgeometry (wordEvent_append hclear ?_) (opDclear_allOk hready hok hgeometry)
  split
  · nofun
  · exact wireWord_events s.cfg s.bls false _

/-! ### A text (R200) -/

/-- Words on the wire, each with its register select. -/
def wireWords (c : Cfg) (bls : Bool) (ws : List (Bool × Byte)) : List Event :=
  ws.flatMap fun w => wireWord c bls w.1 w.2

theorem wireWords_one (c : Cfg) (bls : Bool) (w : Bool × Byte) :
    wireWords c bls [w] = wireWord c bls w.1 w.2 := List.flatMap_singleton _ _

theorem wireWords_pair (c : Cfg) (bls : Bool) (w v : Bool × Byte) :
    wireWords c bls [w, v] = wireWord c bls w.1 w.2 ++ wireWord c bls v.1 v.2 := by simp [wireWords]

theorem wireWords_append (c : Cfg) (bls : Bool) (ws vs : List (Bool × Byte)) :
    wireWords c bls (ws ++ vs) = wireWords c bls ws ++ wireWords c bls vs := List.flatMap_append

theorem wireWords_events (c : Cfg) (bls : Bool) (ws : List (Bool × Byte)) :
    ∀ e ∈ wireWords c bls ws, WordEvent c e := by
  intro e he
  obtain ⟨w, -, hw⟩ := List.mem_flatMap.mp he
  exact wireWord_events c bls w.1 w.2 e hw

/-- The column after a character (R200). -/
def nextColumn (m : Modes) (col : Int) : Int := if ltr m then col + 1 else col - 1

theorem stepColumn_eq (s : State) : stepColumn s = s.moveTo (nextColumn s.modes s.col) s.row := rfl

/-- The walk over one byte: where a new line starts after it, or the next column (R200). -/
theorem messageWalk_byte (c : Cfg) (m : Modes) (b : Byte) (col : Int) (row : Nat) :
    messageWalk c m [b] col row =
      if b = 0x0A then ([newlineWord c m row], ↑(newlineTo c m row).1, (newlineTo c m row).2)
      else if nextColumn m col ≥ c.cols ∨ nextColumn m col < 0 then
        ([(true, b), newlineWord c m row], ↑(newlineTo c m row).1, (newlineTo c m row).2)
      else ([(true, b)], nextColumn m col, row) := rfl

/-- The walk over a text goes on where the walk over its first byte ends. -/
theorem messageWalk_cons (c : Cfg) (m : Modes) (b : Byte) (bs : List Byte) (col : Int) (row : Nat) :
    messageWalk c m (b :: bs) col row =
      let first := messageWalk c m [b] col row
      let rest := messageWalk c m bs first.2.1 first.2.2
      (first.1 ++ rest.1, rest.2) := by
  rw [messageWalk, messageWalk_byte, nextColumn]
  generalize (if ltr m then col + 1 else col - 1) = col'
  dsimp only
  split
  · rfl
  · split <;> rfl

/-- The state after a text of which no write failed. -/
def State.walked (s : State) (text : List Byte) : State :=
  let walk := messageWalk s.cfg s.modes text s.col s.row
  (s.after (wireWords s.cfg s.bls walk.1)).moveTo walk.2.1 walk.2.2

theorem State.walked_cons (s : State) (b : Byte) (bs : List Byte) :
    s.walked (b :: bs) = (s.walked [b]).walked bs := by
  simp only [State.walked, State.moveTo_cfg, State.moveTo_modes, State.moveTo_bls, State.moveTo_col,
    State.moveTo_row, State.after_cfg, State.after_modes, State.after_bls]
  rw [messageWalk_cons _ _ b bs]
  simp only [wireWords_append, State.after_moveTo, State.after_append]
  rfl

theorem State.walked_ready {s : State} (h : s.Ready) (text : List Byte) : (s.walked text).Ready :=
  State.after_ready h _

theorem State.walked_allOk {s : State} (h : s.AllOk) (text : List Byte) : (s.walked text).AllOk :=
  State.after_allOk (s := s) _ h

/-- A byte of a message is what the walk says: a new line, a character at the edge with a new line
after it, or a character within the line. -/
theorem messageByte_allOk {s : State} (hready : s.Ready) (hok : s.AllOk) (b : Byte) :
    messageByte b s = .done (s.walked [b]) := by
  rw [messageByte, State.walked, messageWalk_byte]
  by_cases hb : b = 0x0A
  · have hline := opDnewline_after hready hok [] s.col s.row
    rw [if_pos hb, if_pos hb, wireWords_one]
    exact hline
  rw [if_neg hb, if_neg hb, opWchar, sendWord_allOk hready hok, Run.done_andThen, wrapColumn, stepColumn_eq]
  simp only [State.after_modes, State.after_col, State.after_row, State.moveTo_col, State.moveTo_cfg,
    State.after_cfg]
  split
  · rw [opDnewline_after hready hok, wireWords_pair]
    rfl
  · rw [wireWords_one]
    rfl

theorem opDmessage_allOk (text : List Byte) {s : State} (hready : s.Ready) (hok : s.AllOk) :
    opDmessage text s = .done (s.walked text) := by
  induction text generalizing s with
  | nil => rfl
  | cons b bs ih =>
    rw [opDmessage, messageByte_allOk hready hok, Run.done_andThen,
      ih (State.walked_ready hready _) (State.walked_allOk hok _), State.walked_cons s b bs]

/-- Settles O32: byte by byte, the operation is the walk over the text. -/
theorem clientMessageCompletes : Obligations.ClientMessageCompletes := by
  unfold Obligations.ClientMessageCompletes
  intro text s hready hok hgeometry
  obtain ⟨t, hexec, hres, hcol, hrow, htrace, hrest⟩ := client_completes hgeometry
    (wireWords_events s.cfg s.bls _) (opDmessage_allOk text hready hok)
  exact ⟨t, hexec, hres, htrace, hcol, hrow, hrest⟩

end Sys2Proof.Machine
end

section
/-! Proof of O33: `DCLOSE` as the block's `CLOSE` and the release of a handle behind which there is no
state (R201). -/

namespace Sys2Proof.Machine

/-- The release of the client's own handle, when it has one (R201). -/
def handleEvents (c : Cfg) : List Event := if c.ownsBlh then [.closeBlh] else []

theorem okEntries_append (as bs : List Event) : okEntries (as ++ bs) = okEntries as ++ okEntries bs :=
  List.map_append

/-- The release is an event of the trace and at most one answer used up, and nothing else. -/
theorem State.after_handleEvents (c : Cfg) (s : State) :
    ∃ env, s.after (handleEvents c) =
      { s with trace := s.trace ++ okEntries (handleEvents c), env := env } := by
  unfold handleEvents
  split
  · exact ⟨s.env.tail, rfl⟩
  · exact ⟨s.env, by simp [State.after, okEntries]⟩

theorem opClose_allOk {s : State} (hready : s.Ready) (hok : s.AllOk) :
    opClose s = .done (State.after (wireClose s.cfg) { s with closed := true }) := by
  rw [opClose, whenReady_ready hready, closeEvents_eq]
  exact perform_allOk (s := { s with closed := true }) _ hok

theorem opDclose_allOk {s : State} (hready : s.Ready) (hok : s.AllOk) :
    opDclose s = .done ((State.after (wireClose s.cfg) { s with closed := true }).after
      (handleEvents s.cfg)) := by
  rw [opDclose, opClose_allOk hready hok, Run.done_andThen, State.after_cfg]
  exact perform_allOk _ (State.after_allOk (s := { s with closed := true }) _ hok)

/-- Settles O33: the block's part is O27, and the handle's release leaves all of that alone. -/
theorem clientCloseCompletes : Obligations.ClientCloseCompletes := by
  unfold Obligations.ClientCloseCompletes
  intro s hready hok hgeometry
  obtain ⟨t, hexec, -, hclosed, htrace, hreleased, ⟨hlife, hcfg, hport, hdraws⟩, hrest⟩ :=
    closeCompletes s hready hok
  have hblock : exec .close s = _ := congrArg Run.outcome (opClose_allOk hready hok)
  obtain rfl := Host.Outcome.next.inj (hblock.symm.trans hexec)
  obtain ⟨env, hhandle⟩ := State.after_handleEvents s.cfg
    (State.after (wireClose s.cfg) { s with closed := true })
  have hop := (opDclose_allOk hready hok).trans (congrArg Run.done hhandle)
  have hdclose : exec .dclose s = _ :=
    congrArg Run.outcome ((whenGeometry_ok hgeometry opDclose).trans hop)
  refine ⟨_, hdclose, rfl, hclosed, ?_, hreleased, ⟨hlife, hcfg, hport, hdraws⟩, hrest⟩
  change (State.after _ _).trace ++ okEntries (handleEvents s.cfg) = _
  rw [State.after_trace, List.append_assoc, ← okEntries_append]
  rfl

end Sys2Proof.Machine
end

section
/-! Proofs of O34, O42 and O46: the row offsets, the client's refusals, and who moves the cursor. -/

namespace Sys2Proof.Machine

/-! ### Row offsets (R198) -/

/-- Settles O34: the rows of the table one by one. -/
theorem rowOffsetTable : Obligations.RowOffsetTable := by
  unfold Obligations.RowOffsetTable
  refine ⟨rfl, fun c hc => ?_, fun c r hr => ?_⟩
  · simp only [rowOffset, if_neg hc]
  · obtain ⟨k, rfl⟩ := Nat.exists_eq_add_of_lt hr
    rw [show 3 + k + 1 = k + 4 from by omega]
    rfl

/-! ### Refusals (R191, R192, R214) -/

/-- A part of an operation that begins with the block's refusals, as the state `s` decides them: only
`CLOSED` and what construction came to count (R214). -/
def Gated (s : State) (r : Run) : Prop :=
  ∃ (u : State) (k f : State → Run), u.closed = s.closed ∧ u.life = s.life ∧
    r = (whenReady u k).andThen f

theorem gated_whenReady {s u : State} (hclosed : u.closed = s.closed) (hlife : u.life = s.life)
    (k : State → Run) : Gated s (whenReady u k) :=
  ⟨u, k, .done, hclosed, hlife, by cases whenReady u k <;> rfl⟩

theorem Gated.andThen {s : State} {r : Run} (h : Gated s r) (f : State → Run) : Gated s (r.andThen f) := by
  obtain ⟨u, k, g, hclosed, hlife, rfl⟩ := h
  exact ⟨u, k, _, hclosed, hlife, Run.andThen_assoc _ _ _⟩

theorem gated_opDsetcursor (c r : Nat) (s : State) : Gated s (opDsetcursor c r s) :=
  gated_whenReady (u := s.moveTo c (clampRow s.cfg.rows r)) rfl rfl _

/-- Every byte of a text has a word of its own, so that the first one is refused (R200). -/
theorem gated_messageByte (b : Byte) (s : State) : Gated s (messageByte b s) := by
  unfold messageByte
  split
  · exact gated_opDsetcursor _ _ s
  · exact (gated_whenReady rfl rfl _).andThen _

/-- Every client operation but the empty text begins with an operation of the block. -/
theorem exec_client {i : Instr} (hclient : isClient i = true) (s : State) :
    ∃ op, exec i s = (whenGeometry s op).outcome ∧ (i ≠ .dmessage [] → Gated s (op s)) := by
  cases i <;> simp only [isClient, reduceCtorEq] at hclient
  case dhome => exact ⟨opDhome, rfl, fun _ => gated_whenReady (u := s.moveTo 0 0) rfl rfl _⟩
  case dclear =>
    exact ⟨opDclear, rfl, fun _ => (gated_whenReady (u := s.moveTo 0 0) rfl rfl _).andThen _⟩
  case dnewline => exact ⟨opDnewline, rfl, fun _ => gated_opDsetcursor _ _ s⟩
  case dsetcursor c r => exact ⟨opDsetcursor c r, rfl, fun _ => gated_opDsetcursor c r s⟩
  case dmessage text =>
    refine ⟨opDmessage text, rfl, fun hne => ?_⟩
    cases text with
    | nil => exact absurd rfl hne
    | cons b bs => exact (gated_messageByte b s).andThen _
  case dclose => exact ⟨opDclose, rfl, fun _ => (gated_whenReady rfl rfl _).andThen _⟩

/-- Settles O42: the geometry is checked first, and then the block operation that comes first. -/
theorem clientRefusals : Obligations.ClientRefusals := by
  unfold Obligations.ClientRefusals
  intro i s hclient
  obtain ⟨op, hexec, hgated⟩ := exec_client hclient s
  refine ⟨fun hbad => ?_, ?_, fun hgeometry hne => ?_⟩
  · have hno : ¬ s.GeometryOk := fun h => by
      obtain ⟨hcols, hlow, hhigh⟩ := (geometryCheck_iff s.cfg).mp h
      omega
    rw [hexec, whenGeometry, if_neg hno, Run.outcome]
  · rintro hgeometry rfl
    exact congrArg Run.outcome (whenGeometry_ok hgeometry (opDmessage []))
  · obtain ⟨u, k, f, hclosed, hlife, hop⟩ := hgated hne
    rw [hexec, whenGeometry_ok hgeometry, hop, ← hclosed, ← hlife]
    refine ⟨fun h => ?_, fun hopen h => ?_, fun hopen h => ?_⟩
    · rw [whenReady_closed h, Run.refused_andThen, Run.outcome]
    · rw [whenReady_unbuilt hopen h, Run.refused_andThen, Run.outcome]
    · rw [whenReady_failed hopen h, Run.refused_andThen, Run.outcome]

/-! ### The cursor (R190) -/

/-- Settles O46: no primitive and no register of the block is the cursor, and of the client's operations
`DCLOSE` does not write it. -/
theorem onlyClientMovesCursor : Obligations.OnlyClientMovesCursor := by
  unfold Obligations.OnlyClientMovesCursor
  intro i s t h hi
  have hprimitive : ∀ e u, KeptBy (fun u => u.col = s.col ∧ u.row = s.row) e u :=
    keptBy_of_sameHeld fun u v hv hu => ⟨hv.col.trans hu.1, hv.row.trans hu.2⟩
  by_cases hreset : ∃ c, i = .reset c
  · obtain ⟨c, rfl⟩ := hreset
    exact execReset_keeps (fun e u _ _ => hprimitive e u) (fun _ _ hu => hu) ⟨rfl, rfl⟩
      (fun _ _ _ hu => hu) h
  · refine exec_keeps (not_exists.mp hreset) (fun e u _ _ => hprimitive e u) ?_ (fun _ _ hu => hu)
      ⟨rfl, rfl⟩ h
    refine ⟨fun _ _ _ hu => hu, fun _ _ _ _ hu => hu, fun _ _ hu => hu, fun hclient hdclose => ?_⟩
    obtain hblock | hclose := hi
    · rw [hblock] at hclient
      cases hclient
    · exact absurd hclose hdclose

end Sys2Proof.Machine
end

section
/-! Proof of O59: what the reference receiver makes of the words of a text (R200, R246). -/

namespace Sys2Proof.Machine

/-- Words one after another, to a receiver at rest: each is received whole, and the receiver is at rest
again. -/
theorem see_wireWords {c : Cfg} (hwf : c.wf = true) (bls : Bool) (ws : List (Bool × Byte)) {r : Receiver}
    (hhalf : r.half = none) (hen : r.pins.en ≠ .high) :
    ∃ r', (wireWords c bls ws).foldl (Receiver.see c.bus) r = r' ∧ r'.half = none ∧ r'.pins.en ≠ .high ∧
      r'.words = r.words ++ ws.map fun w => ⟨w.1, w.2⟩ := by
  induction ws generalizing r with
  | nil => exact ⟨r, rfl, hhalf, hen, by simp⟩
  | cons w ws ih =>
    have hword := see_busWrite hwf bls ⟨w.1, w.2⟩ hen
    rw [busWrite_eq, Receiver.latch_latch hhalf] at hword
    obtain ⟨r', hrest, hhalf', hen', hwords⟩ := ih
      (r := (r.latch w.1 (hiNibble w.2)).latch w.1 (loNibble w.2))
      (by rw [Receiver.latch_latch hhalf]; exact hhalf) (Receiver.latch_enable _ _ _)
    rw [Receiver.latch_latch hhalf] at hrest hwords
    refine ⟨r', ?_, hhalf', hen', ?_⟩
    · rw [wireWords, List.flatMap_cons, List.foldl_append, hword]
      exact hrest
    · simp [hwords]

theorem characters_append (ws vs : List BusWord) :
    characters (ws ++ vs) = characters ws ++ characters vs := by simp [characters]

/-- Of the words of one byte the character itself alone is one: a new line's address word is none, and
the newline byte is not sent. -/
theorem characters_messageWalk_byte (c : Cfg) (m : Modes) (b : Byte) (col : Int) (row : Nat) :
    characters ((messageWalk c m [b] col row).1.map fun w => ⟨w.1, w.2⟩) =
      [b].filter fun b => b ≠ 0x0A := by
  rw [messageWalk_byte]
  by_cases hb : b = 0x0A
  · subst hb
    rfl
  · have hsent : ([b].filter fun b => b ≠ 0x0A) = [b] :=
      List.filter_eq_self.mpr fun a ha => decide_eq_true (List.mem_singleton.mp ha ▸ hb)
    rw [if_neg hb, hsent]
    split <;> rfl

/-- The characters among the words of the walk are the bytes that are no newline. -/
theorem characters_messageWalk (c : Cfg) (m : Modes) (text : List Byte) (col : Int) (row : Nat) :
    characters ((messageWalk c m text col row).1.map fun w => ⟨w.1, w.2⟩) =
      text.filter fun b => b ≠ 0x0A := by
  induction text generalizing col row with
  | nil => rfl
  | cons b bs ih =>
    rw [messageWalk_cons _ _ b bs, List.map_append, characters_append, characters_messageWalk_byte, ih,
      ← List.filter_append]
    rfl

/-- Settles O59: the message is the words of the walk, and the receiver gets them all. -/
theorem receiverGetsTheMessage : Obligations.ReceiverGetsTheMessage := by
  unfold Obligations.ReceiverGetsTheMessage
  intro text s landed hready hok hgeometry hwf ⟨hhalf, hen⟩
  obtain ⟨t, hexec, -, htrace, -, -, hconfig, -⟩ := clientMessageCompletes text s hready hok hgeometry
  obtain ⟨r, hsee, hhalf', hen', hwords⟩ :=
    see_wireWords hwf s.bls (messageWalk s.cfg s.modes text s.col s.row).1 hhalf hen
  have hreceived : t.received landed = r := (received_append_okEntries landed hconfig.cfg htrace).trans hsee
  refine ⟨t, hexec, ?_, ?_⟩
  · rw [ReceiverAtRest, hreceived]
    exact ⟨hhalf', hen'⟩
  · rw [hreceived, hwords, characters_append, characters_messageWalk]

end Sys2Proof.Machine
end

section
/-! Proofs of O12 and O53: when `RESET` is refused, and that only a constructed block is closed and only
an accepted configuration constructed. -/

namespace Sys2Proof.Machine

/-! ### Refusals of `RESET` (R214, R230) -/

/-- Settles O12: `CLOSED` first, then the outcome of an earlier `RESET`, then the configuration. -/
theorem resetRefusals : Obligations.ResetRefusals := by
  unfold Obligations.ResetRefusals
  intro c s
  have hexec : exec (.reset c) s = (opReset c s).outcome := rfl
  refine ⟨fun hclosed => exec_closed_refused hclosed rfl, fun hopen hfailed => ?_,
    fun hopen hlife hwf => ?_⟩
  · rw [hexec, opReset, if_neg (by simp [hopen]), if_pos hfailed, Run.outcome]
  · rw [hexec, opReset, if_neg (by simp [hopen]), if_neg hlife, if_neg (by simp [hwf]), Run.outcome]

/-! ### Construction before use (R214, R230) -/

/-- `CLOSE` ends, completed or aborted, only where it found the block ready (R214). -/
theorem opClose_foundReady (s : State) : (opClose s).Ends fun _ => s.Ready :=
  whenReady_ends fun hready => Run.ends_mono (perform_sameHeld _ _) fun _ _ => hready

/-- `DCLOSE` begins with `CLOSE` (R201). -/
theorem opDclose_foundReady (s : State) : (opDclose s).Ends fun _ => s.Ready :=
  Run.ends_andThen (opClose_foundReady s) (fun _ hready => hready) fun _ hready =>
    Run.ends_mono (perform_sameHeld _ _) fun _ _ => hready

/-- A closing operation answers a next state on a ready block only. -/
theorem exec_closing_ready {i : Instr} {s t : State} (hi : i = .close ∨ i = .dclose)
    (h : exec i s = .next t) : s.Ready := by
  obtain rfl | rfl := hi
  · exact Run.ends_of_outcome (P := fun _ => s.Ready) (opClose_foundReady s) (fun _ _ hu => hu) h
  · exact Run.ends_of_outcome (P := fun _ => s.Ready) (whenGeometry_ends (opDclose_foundReady s))
      (fun _ _ hu => hu) h

/-- `RESET` stores its configuration, and nothing it does later writes it (R6, R230). -/
theorem execReset_cfg {c : Cfg} {s t : State} (h : exec (.reset c) s = .next t) : t.cfg = c :=
  execReset_keeps (P := fun u => u.cfg = c)
    (fun e u _ _ => keptBy_of_sameHeld (fun _ _ hv hu => hv.cfg.trans hu) e u)
    (fun _ _ hu => hu) rfl (fun _ _ _ hu => hu) h

/-- A `RESET` that runs leaves an open block with an accepted configuration, whatever fails. -/
theorem execReset_lifeCoherent {c : Cfg} {s t : State} (h : exec (.reset c) s = .next t) :
    LifeCoherent t := by
  obtain ⟨hopen, -, hwf, -⟩ := execReset_cases h
  obtain ⟨-, hclosed⟩ := execReset_port_closed h
  refine ⟨fun hc => ?_, fun _ => ?_⟩
  · rw [hclosed, hopen] at hc
    cases hc
  · rwa [execReset_cfg h]

/-- Every instruction keeps the coherence of construction: but for `RESET` only the closing operations
touch any of it, and they run on a constructed block only. -/
theorem exec_lifeCoherent {i : Instr} {s t : State} (hs : LifeCoherent s) (h : exec i s = .next t) :
    LifeCoherent t := by
  by_cases hreset : ∃ c, i = .reset c
  · obtain ⟨c, rfl⟩ := hreset
    exact execReset_lifeCoherent h
  have hreset := not_exists.mp hreset
  obtain ⟨hclosedReady, hreadyWf⟩ := hs
  obtain ⟨-, hcfg, hlife⟩ := exec_sameConfig hreset h
  refine ⟨fun hclosed => ?_, fun hready => ?_⟩
  · rw [hlife]
    by_cases hclosing : i = .close ∨ i = .dclose
    · exact (exec_closing_ready hclosing h).1
    · obtain ⟨hclose, hdclose⟩ := not_or.mp hclosing
      exact hclosedReady ((exec_closed hreset hclose hdclose h).symm.trans hclosed)
  · rw [hcfg]
    exact hreadyWf (hlife.symm.trans hready)

/-- Settles O53: an idle step changes nothing, and any other step is an instruction. -/
theorem stepKeepsLifeCoherent : Obligations.StepKeepsLifeCoherent := by
  unfold Obligations.StepKeepsLifeCoherent
  intro s t hs h
  obtain ⟨-, rfl⟩ | ⟨item, rest, i, -, -, hexec⟩ := step_cases h
  · exact hs
  · exact exec_lifeCoherent (s := { s with port := rest }) hs hexec

end Sys2Proof.Machine
end

section
/-! Proofs of O10, O13 and O58: what an accepted `RESET` comes to when no write fails, what the receiver
makes of it, and that a block whose `RESET` failed stays refused. -/

namespace Sys2Proof.Machine

/-! ### The block a `RESET` makes (R175, R230) -/

/-- Construction clears `CLOSED` when it begins, and no part of it writes the cursor, the port or the
count of free values. -/
theorem constructedState_registers (c : Cfg) (s : State) :
    (constructedState c s).closed = false ∧ (constructedState c s).col = s.col ∧
    (constructedState c s).row = s.row ∧ (constructedState c s).port = s.port ∧
    (constructedState c s).draws = s.draws := by
  simp [constructedState]

/-- The trace of construction, read off the wire: directions, `INIT`, the three mode words. -/
theorem constructedState_wire (c : Cfg) (s : State) :
    (constructedState c s).trace = s.trace ++ okEntries (wireDirections c ++
      wireWord c (constructedState c s).bls false c.ic.iInit1 ++
      wireWord c (constructedState c s).bls false c.ic.iInit2 ++
      wireModes c (constructedState c s).bls (constructedState c s).modes) := by
  rw [constructedState_trace, bringUpEvents, directionEvents_eq, initWords_eq, flushEvents_eq,
    constructedState_bls, constructedState_modes]
  simp only [List.append_assoc]

/-- Settles O10: with no failure `RESET` comes to `constructedState`. -/
theorem resetConstructsTheBlock : Obligations.ResetConstructsTheBlock := by
  unfold Obligations.ResetConstructsTheBlock
  intro c s hopen hlife hwf hok
  obtain ⟨hclosed, hcol, hrow, hport, hdraws⟩ := constructedState_registers c s
  exact ⟨_, execReset_allOk hopen hlife hwf hok, rfl, rfl, constructedState_cfg c s, hclosed,
    constructedState_modes c s, constructedState_bls c s, constructedState_wire c s, hcol, hrow, hport,
    hdraws⟩

/-! ### A failed `RESET` (R214, R234) -/

/-- A `RESET` that ends in an error marks the block failed, and leaves it open. -/
theorem execReset_err_failed {c : Cfg} {s t : State} {e : TErr} (h : exec (.reset c) s = .next t)
    (herr : t.result = .err e) : t.closed = false ∧ t.life = .failed := by
  obtain ⟨hopen, -, -, ⟨u, -, rfl⟩ | ⟨u, x, -, rfl⟩⟩ := execReset_cases h
  · cases herr
  · exact ⟨(execReset_port_closed h).2.trans hopen, rfl⟩

/-- Settles O13: a later `RESET` is refused by its own check, any other operation by the block's. -/
theorem failedResetIsFinal : Obligations.FailedResetIsFinal := by
  unfold Obligations.FailedResetIsFinal
  intro c s t e h herr
  obtain ⟨hopen, hfailed⟩ := execReset_err_failed h herr
  refine ⟨hfailed, fun i hclient hltr => ?_⟩
  by_cases hreset : ∃ d, i = .reset d
  · obtain ⟨d, rfl⟩ := hreset
    exact (resetRefusals d t).2.1 hopen hfailed
  · exact (blockRefusals i t hclient (not_exists.mp hreset)).2.2 hltr hopen hfailed

/-! ### What the receiver gets from `RESET` (R230, R246) -/

/-- Direction set-up drives no pin of the receiver. -/
theorem see_wireDirections (c : Cfg) (r : Receiver) :
    (wireDirections c).foldl (Receiver.see c.bus) r = r := by
  have hdir : ∀ l, r.see c.bus (.dir l) = r :=
    fun l => Receiver.see_still (by cases c.bus <;> rfl)
  rw [← directionEvents_eq, directionEvents]
  split
  · rw [pDirs, List.foldl_map]
    exact List.foldl_fixed' hdir _
  · rfl

/-- The words of a `RESET`, each with its register select: two of `INIT`, three of the modes. -/
def bringUpWords (c : Cfg) (m : Modes) : List (Bool × Byte) :=
  [(false, c.ic.iInit1), (false, c.ic.iInit2), (false, c.ic.iEntry ||| emByte c.ic m.em),
    (false, c.ic.iDisplay ||| dmByte c.ic m.dm), (false, c.ic.iFunction ||| fmByte c.ic m.fm)]

/-- What `RESET` puts on the wire is the directions and these words. -/
theorem wireDirections_append_bringUp (c : Cfg) (bls : Bool) (m : Modes) :
    wireDirections c ++ wireWord c bls false c.ic.iInit1 ++ wireWord c bls false c.ic.iInit2 ++
      wireModes c bls m = wireDirections c ++ wireWords c bls (bringUpWords c m) := by
  simp [wireWords, bringUpWords, wireModes]

/-- Settles O58: the directions are not seen, and the receiver has been at rest since before any
event. -/
theorem receiverGetsTheBringUp : Obligations.ReceiverGetsTheBringUp := by
  unfold Obligations.ReceiverGetsTheBringUp
  intro c s landed hopen hlife hempty hok hwf
  obtain ⟨t, hexec, -, -, hcfg, -, -, -, htrace, -⟩ := resetConstructsTheBlock c s hopen hlife hwf hok
  rw [wireDirections_append_bringUp] at htrace
  obtain ⟨r, hsee, hhalf, hen, hwords⟩ := see_wireWords hwf t.bls (bringUpWords c t.modes)
    (r := .start landed) rfl nofun
  have hstart : (s.construct c).received landed = .start landed := by
    rw [State.received, State.construct_trace, hempty]
    rfl
  have hreceived : t.received landed = r := by
    rw [received_append_okEntries (s := s.construct c) landed hcfg htrace, hstart, List.foldl_append,
      State.construct_cfg, see_wireDirections, hsee]
  refine ⟨t, hexec, ?_, ?_⟩
  · rw [ReceiverAtRest, hreceived]
    exact ⟨hhalf, hen⟩
  · rw [hreceived, hwords]
    rfl

end Sys2Proof.Machine
end
